-- ==== Sys2Proof/Word.lean ====
section
/-!
DEFINITION. The plainest data of the ARTQ block: bytes, the 64-bit command word, positive integers and exact
frequencies. The block has no general registers (R20), so there is no register word.
-/

namespace Sys2Proof

/-- An 8-bit unsigned value (R12). -/
abbrev Byte := BitVec 8

/-- A host command word (R120). -/
abbrev Word := BitVec 64

/-- An integer `>= 1`: the legal values of LEN_N and TEMPO_N (R25). -/
abbrev Pos := { n : Nat // 0 < n }

/-- What a frequency is a rational multiple of. The spec's frequencies are reals (R10, R34), and State is plain data:
the note table needs the powers of the twelfth root of 2 (R246), and any other real a host may give stands under a name
(DESIGN CHOICE, log 2). -/
inductive FreqBase where
  /-- `2 ^ (k / 12)`. -/
  | semitone (k : Fin 12)
  /-- A positive real that the host gives and that has no other exact form here; the block never looks inside. -/
  | real (n : Nat)
deriving DecidableEq, Repr

/-- A frequency in Hz, exactly: `coef` times its base. Every base is positive, so the sign is that of `coef` and the
frequency is 0 (silence, R34) exactly when `coef` is. -/
structure Freq where
  coef : Rat
  base : FreqBase
deriving DecidableEq, Repr

/-- 0 Hz, silence (R34). -/
def Freq.zero : Freq := { coef := 0, base := .semitone 0 }

/-- A rational number of Hz. -/
def Freq.ofRat (q : Rat) : Freq := { coef := q, base := .semitone 0 }

end Sys2Proof
end

