-- ==== Sys2Proof/Config.lean ====
section
/-!
DEFINITION. The configuration registers (R9, R23): read-only, fixed when a session is constructed. They are plain
data, held in State, so every statement about all states is a statement about all configurations.
-/

namespace Sys2Proof

/-- The synthetic low-memory fields, in the source's order (R85). -/
inductive LowField where
  | ramFontPtr | ramFontSegw | monitorType | devices | kbMods | kbHead | kbTail | kbRing | screenMode
  | screenWidth | pageSize | cursorCol | cursorRow | cursorEnd | cursorStart | visiblePage | modeInfo | cgaPalette
deriving DecidableEq, Repr

/-- Every low-memory field (R85). -/
def LowField.all : List LowField :=
  [.ramFontPtr, .ramFontSegw, .monitorType, .devices, .kbMods, .kbHead, .kbTail, .kbRing, .screenMode,
   .screenWidth, .pageSize, .cursorCol, .cursorRow, .cursorEnd, .cursorStart, .visiblePage, .modeInfo, .cgaPalette]

/-- Width of a field in bytes (R85). -/
def LowField.width : LowField → Nat
  | .ramFontPtr | .ramFontSegw | .kbHead | .kbTail | .screenWidth | .pageSize => 2
  | .kbRing => 32
  | _ => 1

/-- `LOWMEM_ADDR` (R84): where each field begins in the EA space. -/
structure LowmemAddr where
  ramFontPtr : Nat
  ramFontSegw : Nat
  monitorType : Nat
  devices : Nat
  kbMods : Nat
  kbHead : Nat
  kbTail : Nat
  kbRing : Nat
  screenMode : Nat
  screenWidth : Nat
  pageSize : Nat
  cursorCol : Nat
  cursorRow : Nat
  cursorEnd : Nat
  cursorStart : Nat
  visiblePage : Nat
  modeInfo : Nat
  cgaPalette : Nat
deriving DecidableEq, Repr

/-- `LOWMEM_ADDR[f]`. -/
def LowmemAddr.of (m : LowmemAddr) : LowField → Nat
  | .ramFontPtr => m.ramFontPtr
  | .ramFontSegw => m.ramFontSegw
  | .monitorType => m.monitorType
  | .devices => m.devices
  | .kbMods => m.kbMods
  | .kbHead => m.kbHead
  | .kbTail => m.kbTail
  | .kbRing => m.kbRing
  | .screenMode => m.screenMode
  | .screenWidth => m.screenWidth
  | .pageSize => m.pageSize
  | .cursorCol => m.cursorCol
  | .cursorRow => m.cursorRow
  | .cursorEnd => m.cursorEnd
  | .cursorStart => m.cursorStart
  | .visiblePage => m.visiblePage
  | .modeInfo => m.modeInfo
  | .cgaPalette => m.cgaPalette

/-- Where one bit of a packed low-memory byte comes from (`LOWMEM_PACK`, R88, R98, R99; DESIGN CHOICE of this form,
log 3). -/
inductive PackBit where
  /-- A fixed bit. -/
  | fixed (b : Bool)
  /-- Bit `k` of argument `i`, inverted when `neg`. A Bool argument counts as 0 or 1. -/
  | arg (i k : Nat) (neg : Bool)
deriving DecidableEq, Repr

/-- The configuration registers (R9, R23). `qdepth = none` is "unbounded". -/
structure Config where
  dataSeg : BitVec 16
  romFontOff : BitVec 16
  ramFontOff : BitVec 16
  overrides : List (Nat × Byte)
  ovrVideoBulk : Bool
  lowmem : LowmemAddr
  modeNumber : List (List Byte × Byte)
  packDevices : List PackBit
  packMode : List PackBit
  packPalette : List PackBit
  tandy : Bool
  perVoiceVolume : Bool
  qdepth : Option Nat
  noiseSize : Nat
  noiseLinked : List Nat
  noiseInit : List Freq
  noteAnchor : Int
  eofMark : Byte
  tandyMagic : Byte
deriving DecidableEq, Repr

/-- `PLAY_WAIT_DEPTH` (R9). -/
def Config.playWaitDepth : Nat := 15

/-- Two fields overlap nowhere (R84). -/
def LowmemAddr.disjoint (m : LowmemAddr) (f g : LowField) : Bool :=
  decide (m.of f + f.width ≤ m.of g) || decide (m.of g + g.width ≤ m.of f)

/-- The constraints a session's configuration meets (R333 step 1, R23, R70, R84), as a check. -/
def Config.wf (c : Config) : Bool :=
  decide (0 < c.dataSeg.toNat * 16) && decide (c.dataSeg.toNat * 16 ≤ 0xA0000)
  && LowField.all.all (fun f => decide (c.lowmem.of f + f.width ≤ c.dataSeg.toNat * 16))
  && LowField.all.all (fun f => LowField.all.all (fun g => f == g || c.lowmem.disjoint f g))
  && decide (c.ramFontOff.toNat + 127 * 8 ≤ 0x30000) && decide (c.romFontOff.toNat + 128 * 8 ≤ 0x10000)
  && c.overrides.all (fun p => decide (p.1 < 2 ^ 20)) && decide (c.overrides.map Prod.fst).Nodup
  && decide (c.modeNumber.map Prod.fst).Nodup
  && c.packDevices.length == 8 && c.packMode.length == 8 && c.packPalette.length == 8
  && c.noiseLinked.length == 2 && decide c.noiseLinked.Nodup
  && c.noiseLinked.all (fun i => decide (i < c.noiseSize))
  && c.noiseInit.length == c.noiseSize && c.noiseInit.all (fun f => decide (0 ≤ f.coef))
  && (match c.qdepth with | none => true | some n => decide (17 ≤ n))

/-- The suggested column of R85. -/
def LowmemAddr.suggested : LowmemAddr :=
  { ramFontPtr := 0x0007C, ramFontSegw := 0x0007E, monitorType := 0x00410, devices := 0x00411, kbMods := 0x00417
    kbHead := 0x0041A, kbTail := 0x0041C, kbRing := 0x0041E, screenMode := 0x00449, screenWidth := 0x0044A
    pageSize := 0x0044C, cursorCol := 0x00450, cursorRow := 0x00451, cursorEnd := 0x00460, cursorStart := 0x00461
    visiblePage := 0x00462, modeInfo := 0x00465, cgaPalette := 0x00466 }

/-- The spec's example configuration (95_test_vectors.md section 0). Its values are not normative; the model's reset
state takes them (DESIGN CHOICE, log 1). In the palette byte the spec suggests "bit 4 = intensity" and gives no such
argument: bit 4 of the background stands for it (log 3). -/
def Config.sample : Config :=
  { dataSeg := 0x13AD, romFontOff := 0xFA6E, ramFontOff := 0x0500, overrides := [], ovrVideoBulk := false
    lowmem := LowmemAddr.suggested, modeNumber := []
    packDevices := [.fixed false, .arg 0 0 false, .arg 0 1 false, .arg 0 2 false, .arg 1 0 false, .fixed false,
      .arg 2 0 false, .arg 2 1 false]
    packMode := [.arg 0 0 false, .arg 1 0 false, .arg 2 0 true, .fixed true, .fixed false, .arg 3 0 false,
      .fixed false, .fixed false]
    packPalette := [.arg 1 0 false, .arg 1 1 false, .arg 1 2 false, .arg 1 3 false, .arg 1 4 false, .arg 0 0 false,
      .fixed false, .fixed false]
    tandy := false, perVoiceVolume := false, qdepth := none
    noiseSize := 8, noiseLinked := [3, 7], noiseInit := List.replicate 8 Freq.zero
    noteAnchor := 57, eofMark := 0x1A, tandyMagic := 0xFD }

end Sys2Proof
end

