-- ==== Sys2Proof/Syntax.lean ====
section
/-!
DEFINITION. The abstract syntax: one constructor of `Instr` for each row of spec/opcode_table.json, the 16 host
commands (R125), the 24 MML lexical units (R129) and the 16 reserved opcodes (R127). Operands keep every value the
encoding admits; which of them are valid is said by WellFormed.lean and enforced by the meanings (R126).
-/

namespace Sys2Proof

/-- One of the four voice queues (R33): three tone voices and the shared noise channel. -/
inductive Voice where
  | v0 | v1 | v2 | noise
deriving DecidableEq, Repr

/-- One of the three tone voices (R25, R33). -/
inductive ToneVoice where
  | v0 | v1 | v2
deriving DecidableEq, Repr

/-- An accidental (R131): `#` or `+` is sharp, `-` is flat. -/
inductive Acc where
  | sharp | flat
deriving DecidableEq, Repr

/-- A note letter (R129 format UL). -/
inductive Letter where
  | C | D | E | F | G | A | B
deriving DecidableEq, Repr

/-- One instruction: a host command word without its data-channel items (R121, R123), or one MML lexical unit (R129).
`off`, `val`, `n`, `value` and `depth` are the signed 17-bit fields A and B (R122). A number operand of a unit is `none`
where the digits are missing (R130). -/
inductive Instr where
  -- host commands (R125)
  | peek (off : BitVec 17)
  | poke (off val : BitVec 17)
  | readBlock (off n : BitVec 17)
  | writeBlock (off n : BitVec 17)
  | setSegment (isNone : Bool) (value : BitVec 17)
  | bload (isNone : Bool) (off : BitVec 17)
  | bsave (off n : BitVec 17)
  | enqueue (v : Voice)
  | playAndWait (v : Voice)
  | waitDepth (mask : BitVec 4) (depth : BitVec 17)
  | waitIdle (mask : BitVec 4)
  | stopAll
  | isPlaying (v : Voice)
  | qlen (v : Voice)
  | play (k : BitVec 2)
  | soundReset
  -- MML lexical units (R129)
  | mmlNop
  | mmlX (ref : List Byte) (term : Bool)
  | mmlN (n : Option Nat) (dot : Bool)
  | mmlL (n : Option Nat)
  | mmlT (n : Option Nat)
  | mmlO (n : Option Nat)
  | mmlUp
  | mmlDown
  | mmlA (acc : Option Acc) (len : Option Nat) (dot : Bool)
  | mmlB (acc : Option Acc) (len : Option Nat) (dot : Bool)
  | mmlC (acc : Option Acc) (len : Option Nat) (dot : Bool)
  | mmlD (acc : Option Acc) (len : Option Nat) (dot : Bool)
  | mmlE (acc : Option Acc) (len : Option Nat) (dot : Bool)
  | mmlF (acc : Option Acc) (len : Option Nat) (dot : Bool)
  | mmlG (acc : Option Acc) (len : Option Nat) (dot : Bool)
  | mmlP (len : Option Nat) (dot : Bool)
  | mmlMN
  | mmlML
  | mmlMS
  | mmlMF
  | mmlMB
  | mmlMOther (suffix : Option Byte)
  | mmlV (n : Option Nat)
  | mmlOther (b : Byte)
  -- reserved opcodes (R127), with the other 59 bits of the word
  | reserved00 (rest : BitVec 59)
  | reserved11 (rest : BitVec 59)
  | reserved12 (rest : BitVec 59)
  | reserved13 (rest : BitVec 59)
  | reserved14 (rest : BitVec 59)
  | reserved15 (rest : BitVec 59)
  | reserved16 (rest : BitVec 59)
  | reserved17 (rest : BitVec 59)
  | reserved18 (rest : BitVec 59)
  | reserved19 (rest : BitVec 59)
  | reserved1A (rest : BitVec 59)
  | reserved1B (rest : BitVec 59)
  | reserved1C (rest : BitVec 59)
  | reserved1D (rest : BitVec 59)
  | reserved1E (rest : BitVec 59)
  | reserved1F (rest : BitVec 59)
deriving DecidableEq, Repr

/-- The four queue numbers, ascending. -/
def Voice.all : List Voice := [.v0, .v1, .v2, .noise]

/-- The queue of a voice as the number the spec gives it (R33). -/
def Voice.idx : Voice → Nat
  | .v0 => 0
  | .v1 => 1
  | .v2 => 2
  | .noise => 3

/-- The three tone voices, ascending. -/
def ToneVoice.all : List ToneVoice := [.v0, .v1, .v2]

/-- The number of a tone voice. -/
def ToneVoice.idx : ToneVoice → Nat
  | .v0 => 0
  | .v1 => 1
  | .v2 => 2

/-- The queue of a tone voice (R33). -/
def ToneVoice.queue : ToneVoice → Voice
  | .v0 => .v0
  | .v1 => .v1
  | .v2 => .v2

end Sys2Proof
end

