-- ==== Sys2Proof/Machine/State.lean ====
section
/-!
DEFINITION. The state of the block as plain data (10_state.md, 70_reset_and_hazards.md R330), the reasons a step can
stop, and the state after session construction.
-/

namespace Sys2Proof.Machine

/-! ### Why a step can stop -/

/-- A fault stops the machine. The spec has none: its errors are responses after which the block goes on (R300, R307),
so this type has no constructor and no step can fault. Safe. -/
inductive Fault where
deriving DecidableEq, Repr

/-- The instruction has no meaning where it stands. This is not the spec's refusal, which is a response (R304). -/
inductive Refusal where
  /-- Raised by `exec` for an instruction that has no meaning yet. Safe. -/
  | notModelled (mnemonic : String)
  /-- Raised by the meaning of an MML unit where no PLAY is scanning: the scanner state it acts on does not exist
  (R39). `step` never hands a unit to `exec` there, and itself
  answers with it only in a state no run reaches, a PLAY that scans without a scanner. Safe. -/
  | unitOutsidePlay
deriving DecidableEq, Repr

/-! ### Banks of like things -/

/-- One value for each tone voice. -/
structure Tri (α : Type) where
  v0 : α
  v1 : α
  v2 : α
deriving DecidableEq, Repr

/-- The entry of a tone voice. -/
def Tri.get {α : Type} (t : Tri α) : ToneVoice → α
  | .v0 => t.v0
  | .v1 => t.v1
  | .v2 => t.v2

/-- Replace the entry of a tone voice. -/
def Tri.set {α : Type} (t : Tri α) (v : ToneVoice) (x : α) : Tri α :=
  match v with
  | .v0 => { t with v0 := x }
  | .v1 => { t with v1 := x }
  | .v2 => { t with v2 := x }

/-- The same value for each tone voice. -/
def Tri.const {α : Type} (x : α) : Tri α := { v0 := x, v1 := x, v2 := x }

/-- One value for each of the four queues. -/
structure Quad (α : Type) where
  v0 : α
  v1 : α
  v2 : α
  noise : α
deriving DecidableEq, Repr

/-- The entry of a queue. -/
def Quad.get {α : Type} (q : Quad α) : Voice → α
  | .v0 => q.v0
  | .v1 => q.v1
  | .v2 => q.v2
  | .noise => q.noise

/-- Replace the entry of a queue. -/
def Quad.set {α : Type} (q : Quad α) (v : Voice) (x : α) : Quad α :=
  match v with
  | .v0 => { q with v0 := x }
  | .v1 => { q with v1 := x }
  | .v2 => { q with v2 := x }
  | .noise => { q with noise := x }

/-- The same value for each queue. -/
def Quad.const {α : Type} (x : α) : Quad α := { v0 := x, v1 := x, v2 := x, noise := x }

/-! ### Sound state -/

/-- The kind of an event (R34): a tone, or noise that is white or not. -/
inductive EventKind where
  | tone
  | noise (white : Bool)
deriving DecidableEq, Repr

/-- A tone or noise event (R34). The fields hold any number; which values are admissible is R200. -/
structure Event where
  kind : EventKind
  freq : Freq
  dur : Rat
  fill : Rat
  loop : Bool
  vol : Nat
deriving DecidableEq, Repr

/-- The articulation codes 0, 1 and 2 (R30). Code 3 is reserved and never written (I6). -/
inductive Speed where
  | normal | legato | staccato
deriving DecidableEq, Repr

/-- One tone voice's PlayState (R25). -/
structure PlayState where
  oct : Fin 7
  eff : Option (Fin 7)
  lenN : Pos
  tempoN : Pos
  speed : Speed
  vol : Fin 16
deriving DecidableEq, Repr

/-- The PlayState a sound reset leaves (R25, R210). -/
def PlayState.default : PlayState :=
  { oct := 4, eff := none, lenN := ⟨4, by decide⟩, tempoN := ⟨120, by decide⟩, speed := .normal, vol := 15 }

/-- The MML scanner, which exists only while a PLAY runs (R39): `B`, `P`, `ACTIVE` and `ACC` by voice, the number of
strings K, and the voice whose turn it is in the pass (R242). -/
structure Scan where
  k : Nat
  buf : Tri (List Byte)
  pos : Tri Nat
  active : Tri Bool
  acc : Tri Rat
  turn : ToneVoice
deriving DecidableEq, Repr

/-! ### The collaborators' answers -/

/-- Bytes by address, addresses strictly rising; an address not listed holds no byte (R83: the store "answers -1 for an
offset it does not hold"). -/
abbrev Memory := List Host.Cell

/-- What a byte-answering collaborator answers at each address: its bytes, and the addresses where its answer breaks
the contract of R102. -/
structure Store where
  cells : Memory
  bad : List Nat
deriving DecidableEq, Repr

/-- The video-mode object's metadata (R87, R92 to R99). A numeric answer may break its contract, so it is an integer. -/
structure VideoMeta where
  monitorType : Int
  modeName : List Byte
  width : Int
  pageSize : Int
  cursorCol : Int
  cursorRow : Int
  cursorStart : Int
  cursorEnd : Int
  visiblePage : Int
  wide : Bool
  isGraphics : Bool
  colorswitch : Bool
  blink : Bool
  cga4 : Bool
  paletteId : Nat
  background : Nat
deriving DecidableEq, Repr

/-- The keyboard state's answers (R89 to R91): slot s is entry s of `slots`. -/
structure Keyboard where
  mods : Int
  head : Int
  tail : Int
  slots : List (Int × Int)
deriving DecidableEq, Repr

/-- The device counts (R88). -/
structure Devices where
  serial : Nat
  game : Bool
  printers : Nat
deriving DecidableEq, Repr

/-- What every collaborator answers now (R310). Fonts are keyed by `char * 8 + row`, video and data by the
region-relative offset. `bulk` is the answer of `Video.get_range` where it is not the cells of `video` (R82), any list of
integers. Not state of the block (R330); answers are inputs of the step (R11, log 9). -/
structure Collab where
  font : Store
  video : Store
  bulk : Option (List Int)
  data : Store
  isProtected : Bool
  running : Bool
  videoMeta : VideoMeta
  keyboard : Keyboard
  devices : Devices
  strings : List (List Byte × List Byte)
deriving DecidableEq, Repr

/-- Collaborators that hold nothing (DESIGN CHOICE for the reset state, log 11). -/
def Collab.empty : Collab :=
  { font := { cells := [], bad := [] }, video := { cells := [], bad := [] }, bulk := none
    data := { cells := [], bad := [] }, isProtected := false, running := false
    videoMeta := { monitorType := 0, modeName := [], width := 0, pageSize := 0, cursorCol := 0, cursorRow := 0
                   cursorStart := 0, cursorEnd := 0, visiblePage := 0, wide := false, isGraphics := false
                   colorswitch := false, blink := false, cga4 := false, paletteId := 0, background := 0 }
    keyboard := { mods := 0, head := 0, tail := 0, slots := List.replicate 16 (0, 0) }
    devices := { serial := 0, game := false, printers := 0 }, strings := [] }

/-! ### Interface -/

/-- A collaborator output (R310), in the order of EVENTS. -/
inductive Emit where
  | fontSet (char row : Nat) (value : Byte)
  | rebuildGlyph (char : Nat)
  | rendererStop
  | videoSet (rel : Nat) (value : Byte)
  | videoSetRange (rel : Nat) (bytes : List Byte)
  | dataSet (rel : Nat) (value : Byte)
  | kbdSetModifiers (value : Byte)
  | kbdSetHeadByte (k : Nat) (value : Byte)
  | kbdSetTailByte (k : Nat) (value : Byte)
  | kbdSetSlotByte (slot half : Nat) (value : Byte)
deriving DecidableEq, Repr

/-- The metadata queries of the video-mode object (R310). -/
inductive VideoQuery where
  | monitorType | modeName | width | pageSize | cursorCol | cursorRow | cursorStart | cursorEnd | visiblePage
  | wide | isGraphics | colorswitch | blinkEnabled | isCga4 | paletteId | background
deriving DecidableEq, Repr

/-- A collaborator query (R310). -/
inductive Ask where
  | fontGet (char row : Nat)
  | videoGet (rel : Nat)
  | videoGetRange (rel count : Nat)
  | videoQuery (q : VideoQuery)
  | dataGet (rel : Nat)
  | dataProtected
  | dataRunning
  | kbdModifiers
  | kbdHead
  | kbdTail
  | kbdSlot (slot : Nat)
  | devSerialCount
  | devGamePort
  | devPrinterCount
  | strResolve (ref : List Byte)
deriving DecidableEq, Repr

/-- A data-channel item (R123). -/
inductive DataItem where
  | bytes (b : List Byte)
  | file (off : BitVec 16) (payload : List Byte)
  | event (e : Event)
deriving DecidableEq, Repr

/-- The status of a response (R124): 0, 1, 2, 0xFF. -/
inductive Status where
  | ok | ifc | range | refused
deriving DecidableEq, Repr

/-- The data of a response (R124). -/
inductive RespData where
  | nothing
  | byte (b : Byte)
  | bytes (b : List Byte)
  | fileOut (seg off : BitVec 16) (len : Nat) (bytes : List Byte)
  | bool (b : Bool)
  | nat (n : Nat)
deriving DecidableEq, Repr

/-- A response (R124). -/
structure Response where
  status : Status
  data : RespData
deriving DecidableEq, Repr

/-- The outstanding command with its continuation (R41): what it still has to do. -/
inductive Cont where
  /-- ENQUEUE held at capacity (R201, R203). -/
  | enqueue (v : Voice) (e : Event)
  /-- PLAY_AND_WAIT held at capacity, before its append (R204). -/
  | playAndWait (v : Voice) (e : Event)
  /-- PLAY_AND_WAIT held after its append (R204). -/
  | backPressure (v : Voice)
  /-- WAIT_DEPTH held (R205). -/
  | waitDepth (mask : BitVec 4) (depth : Nat)
  /-- WAIT_IDLE held (R206). -/
  | waitIdle (mask : BitVec 4)
  /-- PLAY in its round-robin scan (R242); not a hold. -/
  | playScan
  /-- PLAY held at capacity inside a unit's `Emit` (R248). -/
  | playEmit (v : ToneVoice) (e : Event)
  /-- PLAY padding, this voice next (R267); a hold only where that voice needs a pad and its queue is full. -/
  | playPad (v : ToneVoice)
  /-- PLAY in its foreground wait (R268). -/
  | playForeground
deriving DecidableEq, Repr

/-- A renderer step (R211 to R213). -/
inductive RendererStep where
  | take (v : Voice)
  | done (v : Voice)
  | stopAck
deriving DecidableEq, Repr

/-- A change of one collaborator's answers, between commands (R343). -/
inductive CollabChange where
  | fontByte (key : Nat) (b : Option Byte)
  | fontBad (key : Nat)
  | videoByte (rel : Nat) (b : Option Byte)
  | videoBad (rel : Nat)
  | dataByte (rel : Nat) (b : Option Byte)
  | dataBad (rel : Nat)
  | bulk (answer : Option (List Int))
  | protection (isProtected running : Bool)
  | videoMeta (m : VideoMeta)
  | keyboard (k : Keyboard)
  | devices (d : Devices)
  | strings (t : List (List Byte × List Byte))
deriving DecidableEq, Repr

/-- What can happen to the block from outside (R8). -/
inductive Input where
  /-- The host presents a command word with its data-channel items (R120). -/
  | command (word : Word) (items : List DataItem)
  | renderer (r : RendererStep)
  | collab (c : CollabChange)
deriving DecidableEq, Repr

/-! ### The state -/

/-- The whole state. `asks`, `chan`, `resp`, `coll` and `inbox` are the model's own fields (logs 28, 8, 16, 9, 4); every
other field is the spec's. -/
structure State where
  /-- The configuration registers (R23). -/
  cfg : Config
  /-- SEG (R22). -/
  seg : BitVec 16
  /-- PS (R25). -/
  ps : Tri PlayState
  /-- FG (R32): true is foreground. -/
  fg : Bool
  /-- Q (R33), head first. -/
  queue : Quad (List Event)
  /-- BUSY (R36). -/
  busy : Quad Bool
  /-- CUR (R36). -/
  cur : Quad (Option Event)
  /-- STOP_REQ (R37). -/
  stopReq : Bool
  /-- NOISE_FREQ (R38). -/
  noiseFreq : List Freq
  /-- OUT (R41). -/
  out : Option Cont
  /-- B, P, ACTIVE, ACC (R39). -/
  scan : Option Scan
  /-- REFUSED (R41). -/
  refused : Bool
  /-- EVENTS (R41). -/
  events : List Emit
  /-- The collaborator queries made, oldest first: the order a collaborator sees (R342). -/
  asks : List Ask
  /-- The data-channel items of the command being taken (R123). -/
  chan : List DataItem
  /-- The responses given, oldest first (R124). -/
  resp : List Response
  /-- What the collaborators answer (R310). -/
  coll : Collab
  /-- What happens next outside the block. -/
  inbox : List Input
deriving DecidableEq, Repr

/-- The state after session construction with configuration `c` (R330). -/
def State.session (c : Config) : State :=
  { cfg := c, seg := c.dataSeg, ps := Tri.const PlayState.default, fg := true
    queue := Quad.const [], busy := Quad.const false, cur := Quad.const none, stopReq := false
    noiseFreq := c.noiseInit, out := none, scan := none, refused := false, events := [], asks := []
    chan := [], resp := [], coll := Collab.empty, inbox := [] }

/-- Session construction, which does not build a configuration that breaks R333 (I13). -/
def State.construct (c : Config) : Option State := if c.wf then some (State.session c) else none

/-- The machine right after reset: session construction (R330) with the example configuration (log 1). -/
def State.reset : State := State.session Config.sample

end Sys2Proof.Machine
end

