-- ==== Sys2Proof/Machine/Ops.lean ====
section
/-!
DEFINITION. The named operations over the state: the collaborators' memories, the updates every meaning is made of,
the response of a command, and raising an error and refusing (60_exceptions.md). Returning from an error needs no
operation: no trap state exists (R309).
-/

namespace Sys2Proof.Machine

/-! ### Memories of the collaborators -/

/-- The byte at an address, `none` where the memory holds none. -/
def Memory.read : Memory → Nat → Option Byte
  | [], _ => none
  | (x, c) :: m, a => if a = x then some c else Memory.read m a

/-- Hold byte `b` at `a`. -/
def Memory.put : Memory → Nat → Byte → Memory
  | [], a, b => [(a, b)]
  | (x, c) :: m, a, b =>
    if a < x then (a, b) :: (x, c) :: m else if a = x then (a, b) :: m else (x, c) :: Memory.put m a b

/-- Hold nothing at `a`. -/
def Memory.remove : Memory → Nat → Memory
  | [], _ => []
  | (x, c) :: m, a => if a = x then m else (x, c) :: Memory.remove m a

/-- Write a byte, or make the address unmapped. -/
def Memory.write (m : Memory) (a : Nat) : Option Byte → Memory
  | some b => m.put a b
  | none => m.remove a

/-- The canonical form: addresses strictly rising. No entry can equal what an unlisted address reads as, since every
entry holds a byte and an unlisted address holds none. -/
abbrev Memory.wf (m : Memory) : Prop := m.Pairwise (fun x y => x.1 < y.1)

/-- A collaborator's answer to a single-byte read: in its contract, -1 ("unmapped") or a byte (R75, R102). -/
inductive Answer where
  | outOfContract
  | unmapped
  | byte (b : Byte)
deriving DecidableEq, Repr

/-- The sentinel form of R75: an integer in [-1, 255], or none for an answer that breaks the contract. -/
def Answer.sentinel : Answer → Option Int
  | .outOfContract => none
  | .unmapped => some (-1)
  | .byte b => some b.toNat

/-- `max(0, answer)` (R162): an unmapped byte reads 0. -/
def Answer.clamped : Answer → Option Byte
  | .outOfContract => none
  | .unmapped => some 0
  | .byte b => some b

/-- The answer of a store at an address. -/
def Store.answer (st : Store) (a : Nat) : Answer :=
  if a ∈ st.bad then .outOfContract
  else match st.cells.read a with
    | some b => .byte b
    | none => .unmapped

/-- The store's owner changes one of its bytes. -/
def Store.write (st : Store) (a : Nat) (b : Option Byte) : Store :=
  { cells := st.cells.write a b, bad := st.bad.filter (fun x => x != a) }

/-- The store's answer at an address stops keeping the contract. -/
def Store.spoil (st : Store) (a : Nat) : Store := { st with bad := a :: st.bad }

/-- The key of glyph byte (char, row) in the font store. -/
def glyphKey (char row : Nat) : Nat := char * 8 + row

/-- What an output changes in a collaborator's answers: a set glyph byte is in the font store from then on (R67). What the
video-mode object, the data store and the keyboard do with theirs is their own, and comes as an input (log 10). -/
def Collab.receive (c : Collab) : Emit → Collab
  | .fontSet char row v => { c with font := c.font.write (glyphKey char row) (some v) }
  | .rebuildGlyph _ | .rendererStop | .videoSet _ _ | .videoSetRange _ _ | .dataSet _ _ => c
  | .kbdSetModifiers _ | .kbdSetHeadByte _ _ | .kbdSetTailByte _ _ | .kbdSetSlotByte _ _ _ => c

/-! ### Updates -/

/-- SEG <- x. -/
def State.setSeg (s : State) (x : BitVec 16) : State := { s with seg := x }

/-- FG <- b. -/
def State.setFg (s : State) (b : Bool) : State := { s with fg := b }

/-- PS[v] <- p. -/
def State.setPs (s : State) (v : ToneVoice) (p : PlayState) : State := { s with ps := s.ps.set v p }

/-- Q[v] <- q. -/
def State.setQueue (s : State) (v : Voice) (q : List Event) : State := { s with queue := s.queue.set v q }

/-- BUSY[v] <- b and CUR[v] <- c, as the renderer writes them (R36). -/
def State.setInFlight (s : State) (v : Voice) (b : Bool) (c : Option Event) : State :=
  { s with busy := s.busy.set v b, cur := s.cur.set v c }

/-- NOISE_FREQ <- t. -/
def State.setNoise (s : State) (t : List Freq) : State := { s with noiseFreq := t }

/-- STOP_REQ <- b. -/
def State.setStop (s : State) (b : Bool) : State := { s with stopReq := b }

/-- The command becomes, or stays, outstanding with this continuation (R41, `hold`). -/
def State.hold (s : State) (c : Cont) : State := { s with out := some c }

/-- The scanner state becomes `sc`. -/
def State.setScan (s : State) (sc : Scan) : State := { s with scan := some sc }

/-- `emit`: append collaborator outputs in order (R11); each collaborator takes its own at once. -/
def State.emit (s : State) (l : List Emit) : State :=
  { s with events := s.events ++ l, coll := l.foldl Collab.receive s.coll }

/-- `ask`: record collaborator queries in order (R11, R342); the answers come from `coll`. -/
def State.asked (s : State) (l : List Ask) : State := { s with asks := s.asks ++ l }

/-- Give a response (R124). -/
def State.answer (s : State) (r : Response) : State := { s with resp := s.resp ++ [r] }

/-- The outstanding command, if any, is over; a PLAY's scanner state goes with it (R39). -/
def State.finish (s : State) : State := { s with out := none, scan := none }

/-! ### Responses, errors and refusals -/

/-- The command completes with status OK and this data (R124). -/
def State.respond (s : State) (d : RespData) : State := s.finish.answer { status := .ok, data := d }

/-- The causes of IFC (R301). They are for the reader: no response and no state holds them (R300, log 16). `noteOctave` is
never raised (C8). -/
inductive IfcCause where
  | isProtected | badCommand | badAccidental | noteOctave | badMSuffix | noVoiceVolume | missingNumber | zeroLength
  | zeroTempo | noteRange | emptyReference | badReference
deriving DecidableEq, Repr

/-- The errors of the block (R300). -/
inductive Err where
  | ifc (cause : IfcCause)
  | range (val : Int)
deriving DecidableEq, Repr

/-- `code(E)` (R300). -/
def Err.status : Err → Status
  | .ifc _ => .ifc
  | .range _ => .range

/-- The number of a status (R124). -/
def Status.code : Status → Nat
  | .ok => 0
  | .ifc => 1
  | .range => 2
  | .refused => 0xFF

/-- `raise E`: the command ends with error E; OUT is cleared, the response is given, and nothing else happens (R307).
What the command wrote before stays (R308); a PLAY's scanner state is discarded (R269). -/
def State.raise (s : State) (e : Err) : State := s.finish.answer { status := e.status, data := .nothing }

/-- `refuse`: answer REFUSED and set the sticky flag; no other state changes, and an outstanding command is not
disturbed (R304). -/
def State.refuse (s : State) : State :=
  { s with refused := true, resp := s.resp ++ [{ status := .refused, data := .nothing }] }

end Sys2Proof.Machine
end

