-- ==== Sys2Proof/Decode.lean ====
section
/-!
DEFINITION. Decoding of the two languages (30_encoding.md), total and rejecting by name, and the encoder written from
the same tables. Which operand VALUES a command accepts (R126) is not decoded here: a word that fits its row's mask is
read as its row's instruction, and that instruction's meaning refuses the values R126 refuses (log 22).
-/

namespace Sys2Proof

/-! ### MML bytes -/

/-- Case folding of an MML byte (R128): only ASCII letters fold. -/
def fold (b : Byte) : Byte := if 0x61 ≤ b.toNat ∧ b.toNat ≤ 0x7A then b - 0x20 else b

/-- `digit` of R129. -/
def isDigit (b : Byte) : Bool := decide (0x30 ≤ b.toNat) && decide (b.toNat ≤ 0x39)

/-- The value of a digit run, most significant digit first (R130). -/
def digitsValue (ds : List Byte) : Nat := ds.foldl (fun n d => n * 10 + (d.toNat - 0x30)) 0

/-- `ReadNum` of R244: a maximal digit run, `none` where there is no digit, and what follows it. -/
def readNum (bs : List Byte) : Option Nat × List Byte :=
  match bs.takeWhile isDigit with
  | [] => (none, bs)
  | d :: ds => (some (digitsValue (d :: ds)), bs.dropWhile isDigit)

/-- At most one `.` (R132). -/
def readDot : List Byte → Bool × List Byte
  | [] => (false, [])
  | b :: r => if b = 0x2E then (true, r) else (false, b :: r)

/-- The accidental after a letter (R131). -/
def readAcc : List Byte → Option Acc × List Byte
  | [] => (none, [])
  | b :: r =>
    if b = 0x23 ∨ b = 0x2B then (some .sharp, r) else if b = 0x2D then (some .flat, r) else (none, b :: r)

/-- Format UN after its letter: digits, then an optional dot; without a digit the unit ends there (R129, R130). -/
def readNumDot (mk : Option Nat → Bool → Instr) (r : List Byte) : Instr × List Byte :=
  match readNum r with
  | (none, r1) => (mk none false, r1)
  | (some n, r1) => (mk (some n) (readDot r1).1, (readDot r1).2)

/-- Format UA after its letter (R129). -/
def readArg (mk : Option Nat → Instr) (r : List Byte) : Instr × List Byte := (mk (readNum r).1, (readNum r).2)

/-- Format UP after its letter: an optional length and an optional dot (R129). -/
def readPause (mk : Option Nat → Bool → Instr) (r : List Byte) : Instr × List Byte :=
  let num := readNum r
  (mk num.1 (readDot num.2).1, (readDot num.2).2)

/-- Format UL after its letter: accidental, length, dot, each optional (R129). -/
def readNote (mk : Option Acc → Option Nat → Bool → Instr) (r : List Byte) : Instr × List Byte :=
  let acc := readAcc r
  readPause (mk acc.1) acc.2

/-- `;`, the end of a splice reference (R133). -/
def isSemicolon (b : Byte) : Bool := b == 0x3B

/-- Format UX after its letter: the bytes up to the first `;`, which is consumed too, or to the end (R133). -/
def readSplice (r : List Byte) : Instr × List Byte :=
  let ref := r.takeWhile (fun b => !isSemicolon b)
  match r.dropWhile (fun b => !isSemicolon b) with
  | [] => (.mmlX ref false, [])
  | _ :: rest => (.mmlX ref true, rest)

/-- Format UM after its `M`: exactly one suffix byte, missing at the end of the buffer (R129, R134, R264). -/
def readMode : List Byte → Instr × List Byte
  | [] => (.mmlMOther none, [])
  | b :: r =>
    match (fold b).toNat with
    | 0x4E => (.mmlMN, r)
    | 0x4C => (.mmlML, r)
    | 0x53 => (.mmlMS, r)
    | 0x46 => (.mmlMF, r)
    | 0x42 => (.mmlMB, r)
    | _ => (.mmlMOther (some b), r)

/-- The unit that begins with byte `c`, and the bytes after it (R129, R134, R243). -/
def decodeFrom (c : Byte) (r : List Byte) : Instr × List Byte :=
  match (fold c).toNat with
  | 0x3B => (.mmlNop, r)
  | 0x58 => readSplice r
  | 0x4E => readNumDot .mmlN r
  | 0x4C => readArg .mmlL r
  | 0x54 => readArg .mmlT r
  | 0x4F => readArg .mmlO r
  | 0x3E => (.mmlUp, r)
  | 0x3C => (.mmlDown, r)
  | 0x41 => readNote .mmlA r
  | 0x42 => readNote .mmlB r
  | 0x43 => readNote .mmlC r
  | 0x44 => readNote .mmlD r
  | 0x45 => readNote .mmlE r
  | 0x46 => readNote .mmlF r
  | 0x47 => readNote .mmlG r
  | 0x50 => readPause .mmlP r
  | 0x4D => readMode r
  | 0x56 => readArg .mmlV r
  | _ => (.mmlOther c, r)

/-- The next lexical unit of a byte string and the bytes after it; `none` only for the empty string, an exhausted
voice (R40). -/
def decodeUnit : List Byte → Option (Instr × List Byte)
  | [] => none
  | c :: r => some (decodeFrom c r)

/-- Whether a first byte begins an MML command (R135): the complement is the row "MML other byte". -/
def isCommandByte (b : Byte) : Bool :=
  (fold b).toNat ∈ [0x3B, 0x58, 0x4E, 0x4C, 0x54, 0x4F, 0x3E, 0x3C, 0x41, 0x42, 0x43, 0x44, 0x45, 0x46, 0x47, 0x50,
    0x4D, 0x56]

/-- Whether a byte is one of the mode suffixes N, L, S, F, B (R129). -/
def isModeSuffix (b : Byte) : Bool := (fold b).toNat ∈ [0x4E, 0x4C, 0x53, 0x46, 0x42]

/-! ### Host command words -/

/-- Why a host word or a byte string is no instruction. Each is answered by a refusal (R126, R304). -/
inductive DecodeError where
  /-- `Z != 0`. -/
  | zNonzero
  /-- A bit of F that the opcode marks 0 is set. -/
  | fNonzero
  /-- A is nonzero where the opcode marks it 0. -/
  | aNonzero
  /-- B is nonzero where the opcode marks it 0. -/
  | bNonzero
  /-- No byte: an exhausted voice, no unit. -/
  | emptyUnit
  /-- Bytes follow the unit. -/
  | trailingBytes
deriving DecidableEq, Repr

/-- The fields of format H (R121). -/
def fieldOp (w : Word) : BitVec 5 := w.extractLsb' 0 5
/-- F, bits 8:5 (R121). -/
def fieldF (w : Word) : BitVec 4 := w.extractLsb' 5 4
/-- A, bits 25:9 (R121). -/
def fieldA (w : Word) : BitVec 17 := w.extractLsb' 9 17
/-- B, bits 42:26 (R121). -/
def fieldB (w : Word) : BitVec 17 := w.extractLsb' 26 17
/-- Z, bits 63:43 (R121). -/
def fieldZ (w : Word) : BitVec 21 := w.extractLsb' 43 21

/-- `VOICE = F[1:0]` (R122) as a voice. -/
def voiceOf (b : BitVec 2) : Voice :=
  match b.toNat with
  | 0 => .v0
  | 1 => .v1
  | 2 => .v2
  | _ => .noise

/-- A voice as `F[1:0]`. -/
def voiceBits : Voice → BitVec 2
  | .v0 => 0
  | .v1 => 1
  | .v2 => 2
  | .noise => 3

/-- Answer `i` if the fields marked 0 are 0: `f` the marked bits of F, `a` and `b` the marked operands (R125, R126). -/
def checked (z : BitVec 21) (f : BitVec 4) (a b : BitVec 17) (i : Instr) : Except DecodeError Instr :=
  if z ≠ 0 then .error .zNonzero
  else if f ≠ 0 then .error .fNonzero
  else if a ≠ 0 then .error .aNonzero
  else if b ≠ 0 then .error .bNonzero
  else .ok i

/-- The instruction of a host command word (R121, R125, R127). -/
def decodeWord (w : Word) : Except DecodeError Instr :=
  let f := fieldF w
  let a := fieldA w
  let b := fieldB w
  let z := fieldZ w
  let v := voiceOf (f.extractLsb' 0 2)
  let rest := w.extractLsb' 5 59
  match (fieldOp w).toNat with
  | 0x01 => checked z f 0 b (.peek a)
  | 0x02 => checked z f 0 0 (.poke a b)
  | 0x03 => checked z f 0 0 (.readBlock a b)
  | 0x04 => checked z f 0 0 (.writeBlock a b)
  | 0x05 => checked z (f &&& 0xE) 0 b (.setSegment (f.getLsbD 0) a)
  | 0x06 => checked z (f &&& 0xE) 0 b (.bload (f.getLsbD 0) a)
  | 0x07 => checked z f 0 0 (.bsave a b)
  | 0x08 => checked z (f &&& 0xC) a b (.enqueue v)
  | 0x09 => checked z (f &&& 0xC) a b (.playAndWait v)
  | 0x0A => checked z 0 0 b (.waitDepth f a)
  | 0x0B => checked z 0 a b (.waitIdle f)
  | 0x0C => checked z f a b .stopAll
  | 0x0D => checked z (f &&& 0xC) a b (.isPlaying v)
  | 0x0E => checked z (f &&& 0xC) a b (.qlen v)
  | 0x0F => checked z (f &&& 0xC) a b (.play (f.extractLsb' 0 2))
  | 0x10 => checked z f a b .soundReset
  | 0x00 => .ok (.reserved00 rest)
  | 0x11 => .ok (.reserved11 rest)
  | 0x12 => .ok (.reserved12 rest)
  | 0x13 => .ok (.reserved13 rest)
  | 0x14 => .ok (.reserved14 rest)
  | 0x15 => .ok (.reserved15 rest)
  | 0x16 => .ok (.reserved16 rest)
  | 0x17 => .ok (.reserved17 rest)
  | 0x18 => .ok (.reserved18 rest)
  | 0x19 => .ok (.reserved19 rest)
  | 0x1A => .ok (.reserved1A rest)
  | 0x1B => .ok (.reserved1B rest)
  | 0x1C => .ok (.reserved1C rest)
  | 0x1D => .ok (.reserved1D rest)
  | 0x1E => .ok (.reserved1E rest)
  | _ => .ok (.reserved1F rest)

/-! ### The encoder -/

/-- How an instruction is written: a command word, or the bytes of an MML unit. -/
inductive Code where
  | word (w : Word)
  | unit (bytes : List Byte)
deriving DecidableEq, Repr

/-- A word of format H with Z = 0 (R121): `OP | F<<5 | A<<9 | B<<26`. -/
def hostWord (op : BitVec 5) (f : BitVec 4) (a b : BitVec 17) : Word :=
  op.setWidth 64 ||| f.setWidth 64 <<< 5 ||| a.setWidth 64 <<< 9 ||| b.setWidth 64 <<< 26

/-- A word with a reserved opcode: the other 59 bits are free (R127). -/
def reservedWord (op : BitVec 5) (rest : BitVec 59) : Word := op.setWidth 64 ||| rest.setWidth 64 <<< 5

/-- F with only `NONE = F[0]` (R122). -/
def noneBits (n : Bool) : BitVec 4 := (BitVec.ofBool n).setWidth 4

/-- F with only `F[1:0]` (R122). -/
def lowF (x : BitVec 2) : BitVec 4 := x.setWidth 4

/-- The decimal digits of `n`, most significant first, before `acc`; `fuel > n` digits are enough. -/
def decimalAux : Nat → Nat → List Byte → List Byte
  | 0, _, acc => acc
  | fuel + 1, n, acc =>
    let d := BitVec.ofNat 8 (0x30 + n % 10)
    if n < 10 then d :: acc else decimalAux fuel (n / 10) (d :: acc)

/-- A number operand in decimal without leading zeros (R130). -/
def decimal (n : Nat) : List Byte := decimalAux (n + 1) n []

/-- A number operand that may be missing. -/
def numBytes : Option Nat → List Byte
  | none => []
  | some n => decimal n

/-- The dot modifier (R132). -/
def dotBytes (dot : Bool) : List Byte := if dot then [0x2E] else []

/-- The accidental modifier, a sharp written `#` (R131). -/
def accBytes : Option Acc → List Byte
  | none => []
  | some .sharp => [0x23]
  | some .flat => [0x2D]

/-- A note unit (format UL). -/
def noteBytes (c : Byte) (acc : Option Acc) (len : Option Nat) (dot : Bool) : Code :=
  .unit (c :: (accBytes acc ++ numBytes len ++ dotBytes dot))

/-- The code of an instruction (R121, R125, R127, R129), letters in upper case. -/
def encode : Instr → Code
  | .peek off => .word (hostWord 0x01 0 off 0)
  | .poke off val => .word (hostWord 0x02 0 off val)
  | .readBlock off n => .word (hostWord 0x03 0 off n)
  | .writeBlock off n => .word (hostWord 0x04 0 off n)
  | .setSegment isNone value => .word (hostWord 0x05 (noneBits isNone) value 0)
  | .bload isNone off => .word (hostWord 0x06 (noneBits isNone) off 0)
  | .bsave off n => .word (hostWord 0x07 0 off n)
  | .enqueue v => .word (hostWord 0x08 (lowF (voiceBits v)) 0 0)
  | .playAndWait v => .word (hostWord 0x09 (lowF (voiceBits v)) 0 0)
  | .waitDepth mask depth => .word (hostWord 0x0A mask depth 0)
  | .waitIdle mask => .word (hostWord 0x0B mask 0 0)
  | .stopAll => .word (hostWord 0x0C 0 0 0)
  | .isPlaying v => .word (hostWord 0x0D (lowF (voiceBits v)) 0 0)
  | .qlen v => .word (hostWord 0x0E (lowF (voiceBits v)) 0 0)
  | .play k => .word (hostWord 0x0F (lowF k) 0 0)
  | .soundReset => .word (hostWord 0x10 0 0 0)
  | .mmlNop => .unit [0x3B]
  | .mmlX ref term => .unit (0x58 :: (ref ++ if term then [0x3B] else []))
  | .mmlN n dot => .unit (0x4E :: (numBytes n ++ dotBytes dot))
  | .mmlL n => .unit (0x4C :: numBytes n)
  | .mmlT n => .unit (0x54 :: numBytes n)
  | .mmlO n => .unit (0x4F :: numBytes n)
  | .mmlUp => .unit [0x3E]
  | .mmlDown => .unit [0x3C]
  | .mmlA acc len dot => noteBytes 0x41 acc len dot
  | .mmlB acc len dot => noteBytes 0x42 acc len dot
  | .mmlC acc len dot => noteBytes 0x43 acc len dot
  | .mmlD acc len dot => noteBytes 0x44 acc len dot
  | .mmlE acc len dot => noteBytes 0x45 acc len dot
  | .mmlF acc len dot => noteBytes 0x46 acc len dot
  | .mmlG acc len dot => noteBytes 0x47 acc len dot
  | .mmlP len dot => .unit (0x50 :: (numBytes len ++ dotBytes dot))
  | .mmlMN => .unit [0x4D, 0x4E]
  | .mmlML => .unit [0x4D, 0x4C]
  | .mmlMS => .unit [0x4D, 0x53]
  | .mmlMF => .unit [0x4D, 0x46]
  | .mmlMB => .unit [0x4D, 0x42]
  | .mmlMOther none => .unit [0x4D]
  | .mmlMOther (some b) => .unit [0x4D, b]
  | .mmlV n => .unit (0x56 :: numBytes n)
  | .mmlOther b => .unit [b]
  | .reserved00 rest => .word (reservedWord 0x00 rest)
  | .reserved11 rest => .word (reservedWord 0x11 rest)
  | .reserved12 rest => .word (reservedWord 0x12 rest)
  | .reserved13 rest => .word (reservedWord 0x13 rest)
  | .reserved14 rest => .word (reservedWord 0x14 rest)
  | .reserved15 rest => .word (reservedWord 0x15 rest)
  | .reserved16 rest => .word (reservedWord 0x16 rest)
  | .reserved17 rest => .word (reservedWord 0x17 rest)
  | .reserved18 rest => .word (reservedWord 0x18 rest)
  | .reserved19 rest => .word (reservedWord 0x19 rest)
  | .reserved1A rest => .word (reservedWord 0x1A rest)
  | .reserved1B rest => .word (reservedWord 0x1B rest)
  | .reserved1C rest => .word (reservedWord 0x1C rest)
  | .reserved1D rest => .word (reservedWord 0x1D rest)
  | .reserved1E rest => .word (reservedWord 0x1E rest)
  | .reserved1F rest => .word (reservedWord 0x1F rest)

/-- The instruction a piece of code is, all of it: a unit's bytes with nothing after them. -/
def decode : Code → Except DecodeError Instr
  | .word w => decodeWord w
  | .unit bs =>
    match decodeUnit bs with
    | none => .error .emptyUnit
    | some (i, []) => .ok i
    | some (_, _ :: _) => .error .trailingBytes

/-! ### The table's numbering -/

/-- Code as spec/opcode_table.json numbers a row's bits. A row of 16 bits is an MML unit of two bytes whose first byte is
the HIGH byte of the number ("cmd: byte 0 (high byte of match)"); a row of up to 8 bits is one MML byte, unless its value
lies below 0x20, where no MML command begins: that is an opcode of the other language, all other bits 0; a wider row is
a host word (DEDUCED, log 6). -/
def tableCode (nbits w : Nat) : Code :=
  if nbits = 0 then .unit [BitVec.ofNat 8 w]
  else if nbits ≤ 8 then
    if w % 256 < 0x20 then .word (BitVec.ofNat 64 (w % 256)) else .unit [BitVec.ofNat 8 w]
  else if nbits ≤ 16 then .unit [BitVec.ofNat 8 (w / 256), BitVec.ofNat 8 w]
  else .word (BitVec.ofNat 64 (w % 2 ^ nbits))

/-- The instruction the decoder reads from a table word. A unit whose modifiers the table gives no bits to stands
alone. -/
def decodeTableWord (nbits w : Nat) : Option Instr :=
  match decode (tableCode nbits w) with
  | .ok i => some i
  | .error _ => none

end Sys2Proof
end

