-- ==== Sys2Proof/WellFormed.lean ====
section
/-!
DEFINITION. Which instructions are well formed: those some code spells (`encodable`), and among them those whose own
operands are valid (`wf`): R126 for host commands, R130, R264 and R266 for MML units. What R126 asks of the data channel
depends on the state and is checked by the meanings.
-/

namespace Sys2Proof

/-- `off`, or the value of SET_SEGMENT, lies in [-32768, 65535] (R126). -/
def offsetValid (a : BitVec 17) : Bool := decide (-32768 ≤ a.toInt) && decide (a.toInt ≤ 65535)

/-- A block length or a depth lies in [0, 65535] (R126). -/
def lengthValid (b : BitVec 17) : Bool := decide (0 ≤ b.toInt) && decide (b.toInt ≤ 65535)

/-- Some code decodes to this instruction: every operand of a host command does; of a unit, a splice reference holds no
`;` (R133), a missing number has no dot (R129), and the two rows without operands of their own hold only bytes no
other row takes (R135, R264). -/
def Instr.encodable : Instr → Bool
  | .mmlX ref _ => ref.all (fun b => !isSemicolon b)
  | .mmlN none dot => !dot
  | .mmlMOther (some b) => !isModeSuffix b
  | .mmlOther b => !isCommandByte b
  | _ => true

/-- The instruction is encodable and its own operands are valid. -/
def Instr.wf (i : Instr) : Bool :=
  i.encodable &&
  match i with
  | .peek off => offsetValid off
  | .poke off _ => offsetValid off
  | .readBlock off n => offsetValid off && lengthValid n
  | .writeBlock off n => offsetValid off && lengthValid n
  | .bsave off n => offsetValid off && lengthValid n
  | .setSegment isNone value => if isNone then value == 0 else offsetValid value
  | .bload isNone off => if isNone then off == 0 else offsetValid off
  | .waitDepth _ depth => lengthValid depth
  | .play k => k != 0
  | .mmlN n _ => n.isSome
  | .mmlL n => n.isSome
  | .mmlT n => n.isSome
  | .mmlO n => n.isSome
  | .mmlV n => n.isSome
  | _ => true

end Sys2Proof
end

