-- ==== Sys2Proof/Machine/Operands.lean ====
section
/-!
DEFINITION. Operand forms: offsets and effective addresses (20_memory.md section 1), durations, the note table and the
note names (42_mml.md section 2), event admission (R200).
-/

namespace Sys2Proof.Machine

/-! ### Offsets and effective addresses -/

/-- `norm16` (R61): a negative offset wraps modulo 65536. -/
def norm16 (off : Int) : BitVec 16 := BitVec.ofInt 16 (if off < 0 then off + 65536 else off)

/-- `EA_i` (R62, R63): the address of byte i of an access at an offset, modulo 2^20. -/
def effAddr (seg : BitVec 16) (off : Int) (i : Nat) : BitVec 20 :=
  seg.setWidth 20 * 16 + (norm16 off).setWidth 20 + BitVec.ofNat 20 i

/-! ### Exact numbers -/

/-- `2 ^ z`. -/
def pow2 : Int → Rat
  | .ofNat n => ((2 ^ n : Nat) : Rat)
  | .negSucc n => 1 / ((2 ^ (n + 1) : Nat) : Rat)

/-- `2 ^ (d / 12)` times `c` Hz: whole octaves go into the rational part, the rest is a semitone below 12. -/
def semitoneFreq (c : Rat) (d : Int) : Freq :=
  { coef := c * pow2 (d / 12), base := .semitone (Fin.ofNat 12 (d % 12).toNat) }

/-- `NOTE_FREQ(t) = 440 * 2 ^ ((t - NOTE_ANCHOR) / 12)` (R246). -/
def noteFreq (anchor : Int) (t : Nat) : Freq := semitoneFreq 440 ((t : Int) - anchor)

/-- Half a frequency (R202). -/
def halfFreq (f : Freq) : Freq := { f with coef := f.coef / 2 }

/-- `e.freq != 0` (R202). -/
def freqNonzero (f : Freq) : Bool := decide (f.coef ≠ 0)

/-- `Dur` (R245), in seconds. -/
def duration (ln tempoN : Pos) (dotted : Bool) : Rat :=
  (1 / (ln.val : Rat)) * (240 / (tempoN.val : Rat)) * (if dotted then 3 / 2 else 1)

/-- `ratio` (R248). -/
def Speed.ratio : Speed → Rat
  | .normal => 7 / 8
  | .legato => 1
  | .staccato => 3 / 4

/-! ### Note names -/

/-- `SEMI` (R247): the 17 names; C-, E#, F- and B# are not in the table. -/
def semi : Letter → Option Acc → Option (Fin 12)
  | .C, none => some 0
  | .C, some .sharp => some 1
  | .C, some .flat => none
  | .D, none => some 2
  | .D, some .sharp => some 3
  | .D, some .flat => some 1
  | .E, none => some 4
  | .E, some .sharp => none
  | .E, some .flat => some 3
  | .F, none => some 5
  | .F, some .sharp => some 6
  | .F, some .flat => none
  | .G, none => some 7
  | .G, some .sharp => some 8
  | .G, some .flat => some 6
  | .A, none => some 9
  | .A, some .sharp => some 10
  | .A, some .flat => some 8
  | .B, none => some 11
  | .B, some .sharp => none
  | .B, some .flat => some 10

/-- An octave clamped at 6 (R254, R255). -/
def clampOct (n : Nat) : Fin 7 := ⟨min n 6, by omega⟩

/-- A volume clamped at 15 (R265). -/
def clampVol (n : Nat) : Fin 16 := ⟨min n 15, by omega⟩

/-- The octave the next letter note sounds in (R27). -/
def PlayState.octave (p : PlayState) : Fin 7 := p.eff.getD p.oct

/-! ### Events -/

/-- Admission of an event on a voice (R200): a tone on voices 0 to 2, noise on voice 3, fields in range. -/
def Event.admissible (e : Event) (v : Voice) : Bool :=
  (match e.kind, v with
    | .tone, .noise => false
    | .tone, _ => true
    | .noise _, .noise => true
    | .noise _, _ => false)
  && decide (0 ≤ e.freq.coef) && decide (0 ≤ e.dur) && decide (0 < e.fill) && decide (e.fill ≤ 1)
  && decide (e.vol ≤ 15)

end Sys2Proof.Machine
end

