-- ==== Sys2Proof/Machine/Router.lean ====
section
/-!
DEFINITION. The region router (20_memory.md): region selection, the single-byte read and write, the synthetic low-memory
fields, and the bodies of the block transfers (40_address_ops.md R161, R164, R165). Reads ask the collaborators through
`coll`, and beside each read stand the queries it makes, in order; writes are lists of outputs, which leave the block
through EVENTS.
-/

namespace Sys2Proof.Machine

/-! ### Regions -/

/-- The five backing regions (R70). -/
inductive Region where
  | rom | ramFont | video | data | low
deriving DecidableEq, Repr

/-- Region selection, highest base first (R71). -/
def region (cfg : Config) (ea : BitVec 20) : Region :=
  if 0xF0000 ≤ ea.toNat then .rom
  else if 0xC0000 ≤ ea.toNat then .ramFont
  else if 0xA0000 ≤ ea.toNat then .video
  else if cfg.dataSeg.toNat * 16 ≤ ea.toNat then .data
  else .low

/-- The base EA of a region (R70). -/
def regionBase (cfg : Config) : Region → Nat
  | .rom => 0xF0000
  | .ramFont => 0xC0000
  | .video => 0xA0000
  | .data => cfg.dataSeg.toNat * 16
  | .low => 0

/-- `rel(ea)` (R72). -/
def rel (cfg : Config) (ea : BitVec 20) : Nat := ea.toNat - regionBase cfg (region cfg ea)

/-- Whether an address is in the video region. -/
def isVideo (cfg : Config) (ea : BitVec 20) : Bool := region cfg ea == .video

/-- The peek override at an address (R74). -/
def overrideAt (cfg : Config) (ea : BitVec 20) : Option Byte := cfg.overrides.lookup ea.toNat

/-! ### Low memory -/

/-- The field an address lies in, with the byte of the field it is (R84). -/
def lowField (cfg : Config) (ea : Nat) : Option (LowField × Nat) :=
  match LowField.all.find? (fun f => decide (cfg.lowmem.of f ≤ ea) && decide (ea < cfg.lowmem.of f + f.width)) with
  | some f => some (f, ea - cfg.lowmem.of f)
  | none => none

/-- Byte `k`, least significant first (R64), of a value in a field of `w` bytes; a value that does not fit breaks the
contract and is not truncated (R102). -/
def fieldByte (w : Nat) (x : Int) (k : Nat) : Answer :=
  if 0 ≤ x ∧ x < 256 ^ w then .byte (BitVec.ofNat 8 (x.toNat / 256 ^ k)) else .outOfContract

/-- One bit of a packed byte from its arguments (log 3). -/
def PackBit.eval (args : List Nat) : PackBit → Bool
  | .fixed b => b
  | .arg i k neg => xor ((args.getD i 0).testBit k) neg

/-- A packed byte, bit 0 first (R88, R98, R99). -/
def packByte (layout : List PackBit) (args : List Nat) : Byte :=
  BitVec.ofNat 8 (layout.foldr (fun b n => (PackBit.eval args b).toNat + 2 * n) 0)

/-- `value(SCREEN_MODE)` (R92). -/
def screenMode (cfg : Config) (m : VideoMeta) : Byte := (cfg.modeNumber.lookup m.modeName).getD 0xFF

/-- A byte of the keyboard ring (R91): slot k div 2, low byte then high byte. Both bytes of the slot's answer keep the
contract or the answer does not (log 27). -/
def ringByte (kb : Keyboard) (k : Nat) : Answer :=
  let slot := kb.slots.getD (k / 2) (0, 0)
  match fieldByte 1 slot.1 0, fieldByte 1 slot.2 0 with
  | .byte lo, .byte hi => if k % 2 = 0 then .byte lo else .byte hi
  | _, _ => .outOfContract

/-- Byte `k` of `value(f)`, computed when the read happens (R84, R86 to R99). -/
def lowByte (cfg : Config) (c : Collab) (f : LowField) (k : Nat) : Answer :=
  let m := c.videoMeta
  match f with
  | .ramFontPtr => fieldByte 2 cfg.ramFontOff.toNat k
  | .ramFontSegw => fieldByte 2 0xC000 k
  | .monitorType => fieldByte 1 m.monitorType k
  | .devices => .byte (packByte cfg.packDevices [c.devices.serial, c.devices.game.toNat, c.devices.printers])
  | .kbMods => fieldByte 1 c.keyboard.mods k
  | .kbHead => fieldByte 2 c.keyboard.head k
  | .kbTail => fieldByte 2 c.keyboard.tail k
  | .kbRing => ringByte c.keyboard k
  | .screenMode => .byte (screenMode cfg m)
  | .screenWidth => fieldByte 2 m.width k
  | .pageSize => fieldByte 2 m.pageSize k
  | .cursorCol => fieldByte 1 m.cursorCol k
  | .cursorRow => fieldByte 1 m.cursorRow k
  | .cursorEnd => fieldByte 1 m.cursorEnd k
  | .cursorStart => fieldByte 1 m.cursorStart k
  | .visiblePage => fieldByte 1 m.visiblePage k
  | .modeInfo =>
    .byte (packByte cfg.packMode [m.wide.toNat, m.isGraphics.toNat, m.colorswitch.toNat, m.blink.toNat])
  | .cgaPalette => if m.cga4 then .byte (packByte cfg.packPalette [m.paletteId, m.background]) else .unmapped

/-- The queries byte `k` of `value(f)` takes, in the order its rule names them (R86 to R99, log 28). -/
def lowByteAsks (c : Collab) (f : LowField) (k : Nat) : List Ask :=
  match f with
  | .ramFontPtr | .ramFontSegw => []
  | .monitorType => [.videoQuery .monitorType]
  | .devices => [.devSerialCount, .devGamePort, .devPrinterCount]
  | .kbMods => [.kbdModifiers]
  | .kbHead => [.kbdHead]
  | .kbTail => [.kbdTail]
  | .kbRing => [.kbdSlot (k / 2)]
  | .screenMode => [.videoQuery .modeName]
  | .screenWidth => [.videoQuery .width]
  | .pageSize => [.videoQuery .pageSize]
  | .cursorCol => [.videoQuery .cursorCol]
  | .cursorRow => [.videoQuery .cursorRow]
  | .cursorEnd => [.videoQuery .cursorEnd]
  | .cursorStart => [.videoQuery .cursorStart]
  | .visiblePage => [.videoQuery .visiblePage]
  | .modeInfo =>
    [.videoQuery .wide, .videoQuery .isGraphics, .videoQuery .colorswitch, .videoQuery .blinkEnabled]
  | .cgaPalette =>
    .videoQuery .isCga4 :: (if c.videoMeta.cga4 then [.videoQuery .paletteId, .videoQuery .background] else [])

/-- `LowRead` (R84): an address outside every field is unmapped (R101). A read-only field keeps its value after a POKE:
R334's -1 for a read-only address is taken for the addresses outside every field (DEDUCED, log 31). -/
def lowRead (cfg : Config) (c : Collab) (ea : Nat) : Answer :=
  match lowField cfg ea with
  | some (f, k) => lowByte cfg c f k
  | none => .unmapped

/-- The queries of `LowRead`. -/
def lowReadAsks (cfg : Config) (c : Collab) (ea : Nat) : List Ask :=
  match lowField cfg ea with
  | some (f, k) => lowByteAsks c f k
  | none => []

/-- `LowWrite` (R100): only the modifier byte, the ring pointers and the ring slots take writes. -/
def lowWrite (cfg : Config) (ea : Nat) (v : Byte) : List Emit :=
  match lowField cfg ea with
  | some (.kbMods, _) => [.kbdSetModifiers v]
  | some (.kbHead, k) => [.kbdSetHeadByte k v]
  | some (.kbTail, k) => [.kbdSetTailByte k v]
  | some (.kbRing, k) => [.kbdSetSlotByte (k / 2) (k % 2) v]
  | _ => []

/-! ### The single-byte path -/

/-- The glyph byte (char, row) at an offset of a window of `count` glyphs that begins at `off` with character `first`:
8 row bytes per character, row 0 first (R77, R79). -/
def glyphAt (first count off r : Nat) : Option (Nat × Nat) :=
  if off ≤ r ∧ r - off < count * 8 then some (first + (r - off) / 8, (r - off) % 8) else none

/-- The glyph byte at an offset of the ROM region: characters 0 to 127 (R77). -/
def romGlyph (cfg : Config) (r : Nat) : Option (Nat × Nat) := glyphAt 0 128 cfg.romFontOff.toNat r

/-- The glyph byte at an offset of the RAM-font region: characters 128 to 254 (R79). -/
def ramGlyph (cfg : Config) (r : Nat) : Option (Nat × Nat) := glyphAt 128 127 cfg.ramFontOff.toNat r

/-- `RomFontRead` and `RamFontRead` (R77, R79): outside the window a byte is unmapped. -/
def fontRead (c : Collab) : Option (Nat × Nat) → Answer
  | some (char, row) => c.font.answer (glyphKey char row)
  | none => .unmapped

/-- The query of a font read. -/
def fontAsks : Option (Nat × Nat) → List Ask
  | some (char, row) => [.fontGet char row]
  | none => []

/-- `RamFontWrite` (R80): one byte of one glyph, then its rebuild; nothing outside the window. -/
def ramFontWrite (cfg : Config) (r : Nat) (v : Byte) : List Emit :=
  match ramGlyph cfg r with
  | some (char, row) => [.fontSet char row v, .rebuildGlyph char]
  | none => []

/-- The region's own answer, without the override table (R75). -/
def regionRead (cfg : Config) (c : Collab) (ea : BitVec 20) : Answer :=
  match region cfg ea with
  | .rom => fontRead c (romGlyph cfg (rel cfg ea))
  | .ramFont => fontRead c (ramGlyph cfg (rel cfg ea))
  | .video => c.video.answer (rel cfg ea)
  | .data => c.data.answer (rel cfg ea)
  | .low => lowRead cfg c ea.toNat

/-- `MemRead(ea, 1)` (R75): the override first, then the region. -/
def memRead (cfg : Config) (c : Collab) (ea : BitVec 20) : Answer :=
  match overrideAt cfg ea with
  | some b => .byte b
  | none => regionRead cfg c ea

/-- The queries of `MemRead(ea, 1)`: none where an override answers. -/
def memAsks (cfg : Config) (c : Collab) (ea : BitVec 20) : List Ask :=
  match overrideAt cfg ea with
  | some _ => []
  | none =>
    match region cfg ea with
    | .rom => fontAsks (romGlyph cfg (rel cfg ea))
    | .ramFont => fontAsks (ramGlyph cfg (rel cfg ea))
    | .video => [.videoGet (rel cfg ea)]
    | .data => [.dataGet (rel cfg ea)]
    | .low => lowReadAsks cfg c ea.toNat

/-- `MemWrite(ea, 1, v)` as the outputs it makes (R76); overrides are not consulted, ROM drops the write (R78). -/
def memWrite (cfg : Config) (ea : BitVec 20) (v : Byte) : List Emit :=
  match region cfg ea with
  | .rom => []
  | .ramFont => ramFontWrite cfg (rel cfg ea) v
  | .video => [.videoSet (rel cfg ea) v]
  | .data => [.dataSet (rel cfg ea) v]
  | .low => lowWrite cfg ea.toNat v

/-! ### Block transfers -/

/-- `Vid` (R161): the indices of an n-byte span that fall in the video region, ascending. -/
def videoIndices (cfg : Config) (seg : BitVec 16) (off : Int) (n : Nat) : List Nat :=
  (List.range n).filter (fun i => isVideo cfg (effAddr seg off i))

/-- The answer of `Video.get_range(rel, n)` (R82): the object's own list where it gives one, else its cells. -/
def videoRange (c : Collab) (rel n : Nat) : List Int :=
  match c.bulk with
  | some l => l
  | none => (List.range n).map (fun j =>
      match (c.video.answer (rel + j)).clamped with
      | some b => (b.toNat : Int)
      | none => -1)

/-- The contract of a bulk answer (R102): exactly n integers in [0, 255]. -/
def rangeBytes (n : Nat) (l : List Int) : Option (List Byte) :=
  if l.length = n ∧ l.all (fun x => decide (0 ≤ x) && decide (x < 256)) = true then
    some (l.map (fun x => BitVec.ofInt 8 x))
  else none

/-- `f i, f (i + 1), ...`, n values; none as soon as one is none. -/
def collect (f : Nat → Option Byte) : Nat → Nat → Option (List Byte)
  | _, 0 => some []
  | i, n + 1 =>
    match f i, collect f (i + 1) n with
    | some b, some bs => some (b :: bs)
    | _, _ => none

/-- The queries `ask i`, `ask (i + 1)`, ... of the same n values, up to the first value that is none: the command ends
there (R102). -/
def collectAsks (f : Nat → Option Byte) (ask : Nat → List Ask) : Nat → Nat → List Ask
  | _, 0 => []
  | i, n + 1 => ask i ++ (if (f i).isSome then collectAsks f ask (i + 1) n else [])

/-- The answer of a READ_BLOCK's one bulk call, over the video indices `vid` of its span: none where it breaks the
contract (R102). -/
def bulkRead (cfg : Config) (c : Collab) (seg : BitVec 16) (off : Int) (vid : List Nat) : Option (List Byte) :=
  rangeBytes vid.length (videoRange c (rel cfg (effAddr seg off (vid.headD 0))) vid.length)

/-- One byte of READ_BLOCK (R164): index `i`, where `vb` is the bulk answer and `i0` the first video index. -/
def readBlockByte (cfg : Config) (c : Collab) (seg : BitVec 16) (off : Int) (i0 : Nat) (vb : Option (List Byte))
    (i : Nat) : Option Byte :=
  let ea := effAddr seg off i
  if isVideo cfg ea then
    vb.map (fun l => ((if cfg.ovrVideoBulk then overrideAt cfg ea else none).getD (l.getD (i - i0) 0)))
  else (memRead cfg c ea).clamped

/-- The queries of READ_BLOCK at index `i` (R164): the bulk call at the first video byte, none at the other video bytes,
and the single-byte read's elsewhere. -/
def readBlockAsk (cfg : Config) (c : Collab) (seg : BitVec 16) (off : Int) (vid : List Nat) (i : Nat) : List Ask :=
  let ea := effAddr seg off i
  if isVideo cfg ea then
    if vid.head? = some i then [.videoGetRange (rel cfg ea) vid.length] else []
  else memAsks cfg c ea

/-- READ_BLOCK's body (R164), in ascending address order: the bytes, or none on a collaborator fault (R102). -/
def readBlock (cfg : Config) (c : Collab) (seg : BitVec 16) (off : Int) (n : Nat) : Option (List Byte) :=
  let vid := videoIndices cfg seg off n
  collect (readBlockByte cfg c seg off (vid.headD 0) (bulkRead cfg c seg off vid)) 0 n

/-- The queries of READ_BLOCK's body, in the same order (R342). -/
def readBlockAsks (cfg : Config) (c : Collab) (seg : BitVec 16) (off : Int) (n : Nat) : List Ask :=
  let vid := videoIndices cfg seg off n
  collectAsks (readBlockByte cfg c seg off (vid.headD 0) (bulkRead cfg c seg off vid))
    (readBlockAsk cfg c seg off vid) 0 n

/-- The outputs of byte i of WRITE_BLOCK (R165): the bulk call stands at the first video byte. -/
def writeBlockAt (cfg : Config) (seg : BitVec 16) (off : Int) (data : List Byte) (vid : List Nat) (i : Nat) :
    List Emit :=
  let ea := effAddr seg off i
  if isVideo cfg ea then
    if vid.head? = some i then [.videoSetRange (rel cfg ea) ((data.drop i).take vid.length)] else []
  else memWrite cfg ea (data.getD i 0)

/-- WRITE_BLOCK's body (R165) as its outputs in order, for the whole byte string. -/
def writeBlock (cfg : Config) (seg : BitVec 16) (off : Int) (data : List Byte) : List Emit :=
  (List.range data.length).flatMap
    (fun i => writeBlockAt cfg seg off data (videoIndices cfg seg off data.length) i)

/-! ### File framing -/

/-- `Trim` (R167): the end-of-file marker if it is there, then on Tandy seven bytes. -/
def trim (cfg : Config) (p : List Byte) : List Byte :=
  let p1 := if p.getLast? = some cfg.eofMark then p.dropLast else p
  if cfg.tandy then p1.take (p1.length - 7) else p1

/-- The low and the high byte of a 16-bit value, in that order (R64). -/
def le16 (x : BitVec 16) : List Byte := [x.setWidth 8, (x >>> 8).setWidth 8]

/-- The Tandy trailer (R169). -/
def trailer (cfg : Config) (seg off n : BitVec 16) : List Byte := cfg.tandyMagic :: (le16 seg ++ le16 off ++ le16 n)

end Sys2Proof.Machine
end

