-- ==== Sys2Proof/Machine/AddressOps.lean ====
section
/-!
DEFINITION. The address-space commands (40_address_ops.md): PEEK, POKE, READ_BLOCK, WRITE_BLOCK, SET_SEGMENT, BLOAD,
BSAVE.
-/

namespace Sys2Proof.Machine

/-- A host command is taken: refused where another is outstanding (R313) or its word or data items are not valid (R126),
else its body runs (R306 point 1). Also used by the tone-queue commands and PLAY. -/
def command (valid : Bool) (body : State → State) (s : State) : Host.Outcome State Fault Refusal :=
  .next (if s.out.isNone && valid then body s else s.refuse)

/-- The command's data channel is empty: it needs no item, and an item without meaning is refused (R123, R300, log 8). -/
def State.noItems (s : State) : Bool := s.chan.isEmpty

/-- `ProtCheck` (R160), then the rest. Both flags are asked each time (R24). -/
def protCheck (rest : State → State) (s : State) : State :=
  let t := s.asked [.dataProtected, .dataRunning]
  if t.coll.isProtected && !t.coll.running then t.raise (.ifc .isProtected) else rest t

/-- PEEK after the protection check (R162): a byte that breaks its contract refuses the command (R102). -/
def peekBody (off : BitVec 17) (s : State) : State :=
  let ea := effAddr s.seg off.toInt 0
  let t := s.asked (memAsks s.cfg s.coll ea)
  match (memRead s.cfg s.coll ea).clamped with
  | some b => t.respond (.byte b)
  | none => t.refuse

/-- PEEK (R162). -/
def execPeek (off : BitVec 17) (s : State) : Host.Outcome State Fault Refusal :=
  command (offsetValid off && s.noItems) (protCheck (peekBody off)) s

/-- POKE after the protection check (R163): the value's range, then the write. -/
def pokeBody (off val : BitVec 17) (s : State) : State :=
  if 0 ≤ val.toInt ∧ val.toInt ≤ 255 then
    (s.emit (memWrite s.cfg (effAddr s.seg off.toInt 0) (BitVec.ofInt 8 val.toInt))).respond .nothing
  else s.raise (.range val.toInt)

/-- POKE (R163). -/
def execPoke (off val : BitVec 17) (s : State) : Host.Outcome State Fault Refusal :=
  command (offsetValid off && s.noItems) (protCheck (pokeBody off val)) s

/-- READ_BLOCK once taken (R164). -/
def readBlockBody (off n : BitVec 17) (s : State) : State :=
  let t := s.asked (readBlockAsks s.cfg s.coll s.seg off.toInt n.toNat)
  match readBlock s.cfg s.coll s.seg off.toInt n.toNat with
  | some bs => t.respond (.bytes bs)
  | none => t.refuse

/-- READ_BLOCK (R164). -/
def execReadBlock (off n : BitVec 17) (s : State) : Host.Outcome State Fault Refusal :=
  command (offsetValid off && lengthValid n && s.noItems) (readBlockBody off n) s

/-- WRITE_BLOCK (R165), with its byte string of exactly n bytes on the data channel (R123, R126). -/
def execWriteBlock (off n : BitVec 17) (s : State) : Host.Outcome State Fault Refusal :=
  match s.chan with
  | [.bytes data] =>
    command (offsetValid off && lengthValid n && data.length == n.toNat)
      (fun s => (s.emit (writeBlock s.cfg s.seg off.toInt data)).respond .nothing) s
  | _ => .next s.refuse

/-- SET_SEGMENT (R166). -/
def execSetSegment (isNone : Bool) (value : BitVec 17) (s : State) : Host.Outcome State Fault Refusal :=
  command ((if isNone then value == 0 else offsetValid value) && s.noItems)
    (fun s => (s.setSeg (if isNone then s.cfg.dataSeg else norm16 value.toInt)).respond .nothing) s

/-- BLOAD after the protection check (R168): where the offset comes from, the trimming, the length refusal, the write. -/
def bloadBody (isNone : Bool) (off : BitVec 17) (fileOff : BitVec 16) (payload : List Byte) (s : State) : State :=
  let o : Int := if isNone then fileOff.toNat else off.toInt
  let d := trim s.cfg payload
  if 65535 < d.length then s.refuse else (s.emit (writeBlock s.cfg s.seg o d)).respond .nothing

/-- BLOAD (R168), with its file record on the data channel (R123). -/
def execBload (isNone : Bool) (off : BitVec 17) (s : State) : Host.Outcome State Fault Refusal :=
  match s.chan with
  | [.file fileOff payload] =>
    command (if isNone then off == 0 else offsetValid off) (protCheck (bloadBody isNone off fileOff payload)) s
  | _ => .next s.refuse

/-- The bytes a BSAVE of payload `p` gives the file layer (R170): on Tandy the trailer follows. -/
def bsaveBytes (cfg : Config) (seg : BitVec 16) (off : Int) (n : Nat) (p : List Byte) : List Byte :=
  if cfg.tandy then p ++ trailer cfg seg (norm16 off) (BitVec.ofNat 16 n) else p

/-- BSAVE after the protection check (R170). -/
def bsaveBody (off n : BitVec 17) (s : State) : State :=
  let t := s.asked (readBlockAsks s.cfg s.coll s.seg off.toInt n.toNat)
  match readBlock s.cfg s.coll s.seg off.toInt n.toNat with
  | some p => t.respond (.fileOut s.seg (norm16 off.toInt) n.toNat (bsaveBytes s.cfg s.seg off.toInt n.toNat p))
  | none => t.refuse

/-- BSAVE (R170). -/
def execBsave (off n : BitVec 17) (s : State) : Host.Outcome State Fault Refusal :=
  command (offsetValid off && lengthValid n && s.noItems) (protCheck (bsaveBody off n)) s

end Sys2Proof.Machine
end

