-- ==== Sys2Proof/Machine/Flags.lean ====
section
/-!
DEFINITION. What the block reports and tests about its queues. The block has no condition codes (R42); FG is the only flag
an instruction sets as a side effect, by `State.setFg`.
-/

namespace Sys2Proof.Machine

/-- `raw(v)` (R35): the events enqueued and not yet taken. -/
def State.raw (s : State) (v : Voice) : Nat := (s.queue.get v).length

/-- `adj(v) = max(0, raw(v) - 1)` (R35), the one-fewer quirk; Nat subtraction stops at 0. -/
def State.adj (s : State) (v : Voice) : Nat := s.raw v - 1

/-- `|Q[v]| < QDEPTH` (R201); always so when QDEPTH is unbounded. -/
def State.room (s : State) (v : Voice) : Bool :=
  match s.cfg.qdepth with
  | none => true
  | some n => decide (s.raw v < n)

/-- `raw(v) = 0 and not BUSY[v]` (R206). -/
def State.idle (s : State) (v : Voice) : Bool := decide (s.raw v = 0) && !s.busy.get v

/-- What IS_PLAYING returns (R208). -/
def State.playing (s : State) (v : Voice) : Bool := decide (0 < s.adj v) || s.busy.get v

/-- The voices a mask selects: bit v selects voice v (R122). -/
def maskVoices (mask : BitVec 4) : List Voice := Voice.all.filter (fun v => mask.getLsbD v.idx)

/-- The predicate of WAIT_DEPTH (R205). -/
def State.shallow (s : State) (mask : BitVec 4) (depth : Nat) : Bool :=
  (maskVoices mask).all (fun v => decide (s.adj v ≤ depth))

/-- The predicate of WAIT_IDLE (R206). -/
def State.allIdle (s : State) (mask : BitVec 4) : Bool := (maskVoices mask).all (fun v => s.idle v)

/-- The predicate of PLAY's foreground wait (R268): the three tone voices, not the noise queue. -/
def State.tonesIdle (s : State) : Bool := ToneVoice.all.all (fun v => s.idle v.queue)

/-- The predicate of PLAY_AND_WAIT after its append (R204). -/
def State.backPressureOver (s : State) (v : Voice) : Bool := decide (s.adj v ≤ Config.playWaitDepth)

end Sys2Proof.Machine
end

