-- ==== Sys2Proof/Machine/ToneQueue.lean ====
section
/-!
DEFINITION. The tone-queue commands and the renderer's steps (41_tone_queue.md). A command that holds leaves its
continuation in OUT; `...From` functions run a command from one of its hold points, and are used again on resumption.
-/

namespace Sys2Proof.Machine

/-! ### The enqueue primitive -/

/-- The two linked entries of the noise table become half of `f` (R202). -/
def linkNoise (linked : List Nat) (f : Freq) (t : List Freq) : List Freq :=
  linked.foldl (fun t i => t.set i (halfFreq f)) t

/-- `NoiseLink(v, e)` (R202): voice 2 with a nonzero frequency. -/
def State.noiseLink (s : State) (v : Voice) (e : Event) : State :=
  if v = .v2 ∧ freqNonzero e.freq = true then s.setNoise (linkNoise s.cfg.noiseLinked e.freq s.noiseFreq) else s

/-- The append of `Enq(v, e)` (R201), one atomic step; the caller has found room. -/
def State.append (s : State) (v : Voice) (e : Event) : State :=
  (s.setQueue v (s.queue.get v ++ [e])).noiseLink v e

/-! ### Commands -/

/-- ENQUEUE from its append on (R203): holds while the queue is full. -/
def enqueueFrom (v : Voice) (e : Event) (s : State) : State :=
  if s.room v then (s.append v e).respond .nothing else s.hold (.enqueue v e)

/-- PLAY_AND_WAIT after its append (R204). -/
def backPressureFrom (v : Voice) (s : State) : State :=
  if s.backPressureOver v then s.respond .nothing else s.hold (.backPressure v)

/-- PLAY_AND_WAIT from its append on (R204). -/
def playAndWaitFrom (v : Voice) (e : Event) (s : State) : State :=
  if s.room v then backPressureFrom v (s.append v e) else s.hold (.playAndWait v e)

/-- WAIT_DEPTH (R205). -/
def waitDepthFrom (mask : BitVec 4) (depth : Nat) (s : State) : State :=
  if s.shallow mask depth then s.respond .nothing else s.hold (.waitDepth mask depth)

/-- WAIT_IDLE (R206). -/
def waitIdleFrom (mask : BitVec 4) (s : State) : State :=
  if s.allIdle mask then s.respond .nothing else s.hold (.waitIdle mask)

/-- All four queues are emptied and the renderer is told to stop (R207, R210). -/
def State.flush (s : State) : State :=
  ({ s with queue := Quad.const [] }.setStop true).emit [.rendererStop]

/-- The sound state of a sound reset beside the flush (R210): PlayState, FG and the noise table. -/
def State.soundDefaults (s : State) : State :=
  { s with ps := Tri.const PlayState.default, fg := true, noiseFreq := s.cfg.noiseInit }

/-- ENQUEUE (R203), with its event on the data channel (R123), admissible on the voice (R200). -/
def execEnqueue (v : Voice) (s : State) : Host.Outcome State Fault Refusal :=
  match s.chan with
  | [.event e] => command (e.admissible v) (enqueueFrom v e) s
  | _ => .next s.refuse

/-- PLAY_AND_WAIT (R204). -/
def execPlayAndWait (v : Voice) (s : State) : Host.Outcome State Fault Refusal :=
  match s.chan with
  | [.event e] => command (e.admissible v) (playAndWaitFrom v e) s
  | _ => .next s.refuse

/-- WAIT_DEPTH (R205). -/
def execWaitDepth (mask : BitVec 4) (depth : BitVec 17) (s : State) : Host.Outcome State Fault Refusal :=
  command (lengthValid depth && s.noItems) (waitDepthFrom mask depth.toNat) s

/-- WAIT_IDLE (R206). -/
def execWaitIdle (mask : BitVec 4) (s : State) : Host.Outcome State Fault Refusal :=
  command s.noItems (waitIdleFrom mask) s

/-- STOP_ALL (R207). -/
def execStopAll (s : State) : Host.Outcome State Fault Refusal :=
  command s.noItems (fun s => s.flush.respond .nothing) s

/-- IS_PLAYING (R208). -/
def execIsPlaying (v : Voice) (s : State) : Host.Outcome State Fault Refusal :=
  command s.noItems (fun s => s.respond (.bool (s.playing v))) s

/-- QLEN (R209). -/
def execQlen (v : Voice) (s : State) : Host.Outcome State Fault Refusal :=
  command s.noItems (fun s => s.respond (.nat (s.adj v))) s

/-- SOUND_RESET (R210, R331). -/
def execSoundReset (s : State) : Host.Outcome State Fault Refusal :=
  command s.noItems (fun s => s.flush.soundDefaults.respond .nothing) s

/-! ### The renderer -/

/-- TAKE(v) is enabled (R211). -/
def State.takeEnabled (s : State) (v : Voice) : Bool :=
  !s.stopReq && !s.busy.get v && !(s.queue.get v).isEmpty

/-- TAKE(v) (R211). -/
def State.take (s : State) (v : Voice) : State :=
  match s.queue.get v with
  | e :: q => (s.setQueue v q).setInFlight v true (some e)
  | [] => s

/-- DONE(v) is enabled (R212): a looping item ends only once another is queued behind it. -/
def State.doneEnabled (s : State) (v : Voice) : Bool :=
  s.busy.get v && (!((s.cur.get v).map Event.loop).getD false || !(s.queue.get v).isEmpty)

/-- STOP_ACK (R213): nothing is in flight any more and TAKE is enabled again. -/
def State.stopAck (s : State) : State :=
  { s with busy := Quad.const false, cur := Quad.const none, stopReq := false }

/-- One renderer step. A step that is not enabled cannot happen: it leaves the state as it is (log 4). -/
def rendererStep (r : RendererStep) (s : State) : State :=
  match r with
  | .take v => if s.takeEnabled v then s.take v else s
  | .done v => if s.doneEnabled v then s.setInFlight v false none else s
  | .stopAck => if s.stopReq then s.stopAck else s

end Sys2Proof.Machine
end

