-- ==== Sys2Proof/Machine/Mml.lean ====
section
/-!
DEFINITION. The MML units (42_mml.md sections 2 and 3). A unit acts on the voice whose turn it is; the step has already
moved that voice's cursor past the unit's bytes. A unit that raises IFC ends the PLAY (R269).
-/

namespace Sys2Proof.Machine

/-- Run a unit on the voice being scanned, with its PlayState; there is none outside a PLAY's scan (R39, log 15). -/
def onUnit (s : State) (unit : Scan → PlayState → State) : Host.Outcome State Fault Refusal :=
  match s.out, s.scan with
  | some .playScan, some sc => .next (unit sc (s.ps.get sc.turn))
  | _, _ => .refused .unitOutsidePlay

/-- `raise IFC(cause)` inside a PLAY (R269, R307). -/
def State.raiseIfc (s : State) (cause : IfcCause) : State := s.raise (.ifc cause)

/-- `NeedNum` (R244): the number of an argument unit, or IFC. -/
def needNum (n : Option Nat) (s : State) (rest : Nat → State) : State :=
  match n with
  | none => s.raiseIfc .missingNumber
  | some n => rest n

/-- Pending octave cleared (R27). -/
def PlayState.clearEff (p : PlayState) : PlayState := { p with eff := none }

/-- `ACC[v] <- ACC[v] + dur` (R248). -/
def State.addAcc (s : State) (v : ToneVoice) (dur : Rat) : State :=
  match s.scan with
  | some sc => s.setScan { sc with acc := sc.acc.set v (sc.acc.get v + dur) }
  | none => s

/-- The append of a unit's event, and the accumulation after it (R248). -/
def State.appendUnit (s : State) (v : ToneVoice) (e : Event) : State := (s.append v.queue e).addAcc v e.dur

/-- The event a unit emits (R248): its fill is the articulation ratio of the voice. -/
def unitEvent (p : PlayState) (f : Freq) (dur : Rat) (vol : Nat) : Event :=
  { kind := .tone, freq := f, dur := dur, fill := p.speed.ratio, loop := false, vol := vol }

/-- `Emit` (R248): enqueue the event of a unit, or hold the PLAY at capacity with it. -/
def emitUnit (v : ToneVoice) (e : Event) (s : State) : State :=
  if s.room v.queue then s.appendUnit v e else s.hold (.playEmit v e)

/-- The length a note or rest takes (R257, R258): the explicit one, which may not be 0, or the default. -/
def noteLength (len : Option Nat) (p : PlayState) : Option Pos :=
  match len with
  | none => some p.lenN
  | some 0 => none
  | some (n + 1) => some ⟨n + 1, Nat.succ_pos n⟩

/-- A named note (R257): the accidental, the octave, the length, then the event. -/
def noteUnit (l : Letter) (acc : Option Acc) (len : Option Nat) (dot : Bool) (s : State) :
    Host.Outcome State Fault Refusal :=
  onUnit s fun sc p =>
    match semi l acc with
    | none => s.raiseIfc .badAccidental
    | some st =>
      match noteLength len p with
      | none => s.raiseIfc .zeroLength
      | some ln =>
        emitUnit sc.turn
          (unitEvent p (noteFreq s.cfg.noteAnchor (12 * p.octave.val + st.val)) (duration ln p.tempoN dot) p.vol.val)
          (s.setPs sc.turn p.clearEff)

/-- `;` (R249): nothing beyond its byte. -/
def execMmlNop (s : State) : Host.Outcome State Fault Refusal := onUnit s fun _ _ => s

/-- `B[v] <- b[0:p] ++ r ++ b[p:]`, the cursor unchanged (R250). -/
def Scan.splice (sc : Scan) (r : List Byte) : Scan :=
  let b := sc.buf.get sc.turn
  let p := sc.pos.get sc.turn
  { sc with buf := sc.buf.set sc.turn (b.take p ++ r ++ b.drop p) }

/-- `X` (R250): the reference is resolved now, by the string resolver. -/
def execMmlX (ref : List Byte) (s : State) : Host.Outcome State Fault Refusal :=
  onUnit s fun sc _ =>
    if ref = [] then s.raiseIfc .emptyReference
    else
      let t := s.asked [.strResolve ref]
      match s.coll.strings.lookup ref with
      | none => t.raiseIfc .badReference
      | some r => t.setScan (sc.splice r)

/-- `N` (R251): an absolute note, 0 a rest of volume 0. -/
def execMmlN (n : Option Nat) (dot : Bool) (s : State) : Host.Outcome State Fault Refusal :=
  onUnit s fun sc p => needNum n s fun n =>
    if 84 < n then s.raiseIfc .noteRange
    else
      let dur := duration p.lenN p.tempoN dot
      emitUnit sc.turn
        (if n = 0 then unitEvent p Freq.zero dur 0 else unitEvent p (noteFreq s.cfg.noteAnchor (n - 1)) dur p.vol.val)
        (s.setPs sc.turn p.clearEff)

/-- `L` (R252). -/
def execMmlL (n : Option Nat) (s : State) : Host.Outcome State Fault Refusal :=
  onUnit s fun sc p => needNum n s fun n =>
    if h : 0 < n then s.setPs sc.turn { p with lenN := ⟨n, h⟩ } else s.raiseIfc .zeroLength

/-- `T` (R253). -/
def execMmlT (n : Option Nat) (s : State) : Host.Outcome State Fault Refusal :=
  onUnit s fun sc p => needNum n s fun n =>
    if h : 0 < n then s.setPs sc.turn { p with tempoN := ⟨n, h⟩ } else s.raiseIfc .zeroTempo

/-- `O` (R254). -/
def execMmlO (n : Option Nat) (s : State) : Host.Outcome State Fault Refusal :=
  onUnit s fun sc p => needNum n s fun n => s.setPs sc.turn { p with oct := clampOct n, eff := none }

/-- `>` (R255). -/
def execMmlUp (s : State) : Host.Outcome State Fault Refusal :=
  onUnit s fun sc p => s.setPs sc.turn { p with eff := some (clampOct (p.octave.val + 1)) }

/-- `<` (R256); Nat subtraction stops at 0. -/
def execMmlDown (s : State) : Host.Outcome State Fault Refusal :=
  onUnit s fun sc p => s.setPs sc.turn { p with eff := some (clampOct (p.octave.val - 1)) }

/-- `A` (R257). -/
def execMmlA (acc : Option Acc) (len : Option Nat) (dot : Bool) (s : State) : Host.Outcome State Fault Refusal :=
  noteUnit .A acc len dot s

/-- `B` (R257). -/
def execMmlB (acc : Option Acc) (len : Option Nat) (dot : Bool) (s : State) : Host.Outcome State Fault Refusal :=
  noteUnit .B acc len dot s

/-- `C` (R257). -/
def execMmlC (acc : Option Acc) (len : Option Nat) (dot : Bool) (s : State) : Host.Outcome State Fault Refusal :=
  noteUnit .C acc len dot s

/-- `D` (R257). -/
def execMmlD (acc : Option Acc) (len : Option Nat) (dot : Bool) (s : State) : Host.Outcome State Fault Refusal :=
  noteUnit .D acc len dot s

/-- `E` (R257). -/
def execMmlE (acc : Option Acc) (len : Option Nat) (dot : Bool) (s : State) : Host.Outcome State Fault Refusal :=
  noteUnit .E acc len dot s

/-- `F` (R257). -/
def execMmlF (acc : Option Acc) (len : Option Nat) (dot : Bool) (s : State) : Host.Outcome State Fault Refusal :=
  noteUnit .F acc len dot s

/-- `G` (R257). -/
def execMmlG (acc : Option Acc) (len : Option Nat) (dot : Bool) (s : State) : Host.Outcome State Fault Refusal :=
  noteUnit .G acc len dot s

/-- `P` (R258): a rest carries the current volume. -/
def execMmlP (len : Option Nat) (dot : Bool) (s : State) : Host.Outcome State Fault Refusal :=
  onUnit s fun sc p =>
    match noteLength len p with
    | none => s.raiseIfc .zeroLength
    | some ln =>
      emitUnit sc.turn (unitEvent p Freq.zero (duration ln p.tempoN dot) p.vol.val) (s.setPs sc.turn p.clearEff)

/-- `MN` (R259). -/
def execMmlMN (s : State) : Host.Outcome State Fault Refusal :=
  onUnit s fun sc p => s.setPs sc.turn { p with speed := .normal }

/-- `ML` (R260). -/
def execMmlML (s : State) : Host.Outcome State Fault Refusal :=
  onUnit s fun sc p => s.setPs sc.turn { p with speed := .legato }

/-- `MS` (R261). -/
def execMmlMS (s : State) : Host.Outcome State Fault Refusal :=
  onUnit s fun sc p => s.setPs sc.turn { p with speed := .staccato }

/-- `MF` (R262). -/
def execMmlMF (s : State) : Host.Outcome State Fault Refusal := onUnit s fun _ _ => s.setFg true

/-- `MB` (R263). -/
def execMmlMB (s : State) : Host.Outcome State Fault Refusal := onUnit s fun _ _ => s.setFg false

/-- `M` with any other suffix, or none (R264). -/
def execMmlMOther (s : State) : Host.Outcome State Fault Refusal := onUnit s fun _ _ => s.raiseIfc .badMSuffix

/-- `V` (R265): the option first, then the number. -/
def execMmlV (n : Option Nat) (s : State) : Host.Outcome State Fault Refusal :=
  onUnit s fun sc p =>
    if s.cfg.perVoiceVolume then needNum n s fun n => s.setPs sc.turn { p with vol := clampVol n }
    else s.raiseIfc .noVoiceVolume

/-- Any other first byte (R266). -/
def execMmlOther (s : State) : Host.Outcome State Fault Refusal := onUnit s fun _ _ => s.raiseIfc .badCommand

end Sys2Proof.Machine
end

