-- ==== Sys2Proof/Machine/Play.lean ====
section
/-!
DEFINITION. PLAY around its units (42_mml.md R240 to R242, R267, R268): initialisation, the end of the scan, padding,
the foreground wait, and the resumption of any held command (R215).
-/

namespace Sys2Proof.Machine

/-! ### The start of a PLAY -/

/-- The strings of PLAY's data-channel items (R123); none where an item is no string. -/
def itemStrings : List DataItem → Option (List (List Byte))
  | [] => some []
  | .bytes b :: rest => (itemStrings rest).map (fun l => b :: l)
  | _ :: _ => none

/-- `Init(K, s)` (R241): string v drives voice v; voices from K on take no part. -/
def initScan (strings : List (List Byte)) : Scan :=
  { k := strings.length
    buf := { v0 := strings.getD 0 [], v1 := strings.getD 1 [], v2 := strings.getD 2 [] }
    pos := Tri.const 0
    active := { v0 := decide (0 < strings.length), v1 := decide (1 < strings.length), v2 := decide (2 < strings.length) }
    acc := Tri.const 0
    turn := .v0 }

/-- PLAY (R240): its `Init`. The scan, the padding and the foreground wait follow in the next steps, during which no other
agent moves unless the PLAY holds (log 7). -/
def execPlay (k : BitVec 2) (s : State) : Host.Outcome State Fault Refusal :=
  match itemStrings s.chan with
  | some strings =>
    command (k != 0 && strings.length == k.toNat) (fun s => (s.setScan (initScan strings)).hold .playScan) s
  | none => .next s.refuse

/-! ### Turns -/

/-- The voice whose turn follows in the round robin (R242). -/
def nextTurn : ToneVoice → ToneVoice
  | .v0 => .v1
  | .v1 => .v2
  | .v2 => .v0

/-- `ACTIVE != {}` (R242). -/
def Scan.anyActive (sc : Scan) : Bool := sc.active.v0 || sc.active.v1 || sc.active.v2

/-- The text voice v has still to scan (R39). -/
def Scan.remaining (sc : Scan) (v : ToneVoice) : List Byte := (sc.buf.get v).drop (sc.pos.get v)

/-- The turn passes on after a unit: where the PLAY still scans or holds. -/
def State.endTurn (s : State) : State :=
  match s.scan with
  | some sc => s.setScan { sc with turn := nextTurn sc.turn }
  | none => s

/-! ### The end of a PLAY -/

/-- The voices that take part in this PLAY. -/
def Scan.voices (sc : Scan) : List ToneVoice := ToneVoice.all.filter (fun v => decide (v.idx < sc.k))

/-- `M = max ACC[v]` over the participating voices (R267). -/
def Scan.maxAcc (sc : Scan) : Rat :=
  match sc.voices with
  | [] => 0
  | v :: vs => vs.foldl (fun m w => max m (sc.acc.get w)) (sc.acc.get v)

/-- Voice v takes part and its total is below the maximum (R267). -/
def Scan.needsPad (sc : Scan) (v : ToneVoice) : Bool :=
  decide (v.idx < sc.k) && decide (sc.acc.get v < sc.maxAcc)

/-- The padding event (R267). -/
def padEvent (dur : Rat) : Event :=
  { kind := .tone, freq := Freq.zero, dur := dur, fill := 1, loop := false, vol := 0 }

/-- The foreground wait (R268), or the response when it is over. -/
def foregroundFrom (s : State) : State := if s.tonesIdle then s.respond .nothing else s.hold .playForeground

/-- After the last voice's padding (R240): the foreground wait if FG is 1, else the response. -/
def afterPadding (s : State) : State := if s.fg then foregroundFrom s else s.respond .nothing

/-- Padding goes on with the voice after v, or is over (R267). -/
def afterPad (v : ToneVoice) (s : State) : State :=
  match v with
  | .v0 => s.hold (.playPad .v1)
  | .v1 => s.hold (.playPad .v2)
  | .v2 => afterPadding s

/-- Padding of voice v (R267): the pad makes its total the maximum; at capacity it holds. -/
def padFrom (v : ToneVoice) (s : State) : State :=
  match s.scan with
  | some sc =>
    if sc.needsPad v then
      if s.room v.queue then
        afterPad v ((s.append v.queue (padEvent (sc.maxAcc - sc.acc.get v))).setScan
          { sc with acc := sc.acc.set v sc.maxAcc })
      else s.hold (.playPad v)
    else afterPad v s
  | none => afterPad v s

/-- A unit's event held at capacity (R248): append it now and go on scanning, or hold on. -/
def playEmitFrom (v : ToneVoice) (e : Event) (s : State) : State :=
  if s.room v.queue then (s.appendUnit v e).hold .playScan else s.hold (.playEmit v e)

/-! ### Resumption -/

/-- The predicate a continuation waits for (R215); PLAY's scan waits for nothing. -/
def State.ready (s : State) : Cont → Bool
  | .enqueue v _ => s.room v
  | .playAndWait v _ => s.room v
  | .backPressure v => s.backPressureOver v
  | .waitDepth mask depth => s.shallow mask depth
  | .waitIdle mask => s.allIdle mask
  | .playScan => true
  | .playEmit v _ => s.room v.queue
  | .playPad v => !((s.scan.map (fun sc => sc.needsPad v)).getD false) || s.room v.queue
  | .playForeground => s.tonesIdle

/-- The outstanding command goes on from its continuation (R215). PLAY's scan is driven by the step itself; here it only
ends, into the padding. -/
def resume (c : Cont) (s : State) : State :=
  match c with
  | .enqueue v e => enqueueFrom v e s
  | .playAndWait v e => playAndWaitFrom v e s
  | .backPressure v => backPressureFrom v s
  | .waitDepth mask depth => waitDepthFrom mask depth s
  | .waitIdle mask => waitIdleFrom mask s
  | .playScan => s.hold (.playPad .v0)
  | .playEmit v e => playEmitFrom v e s
  | .playPad v => padFrom v s
  | .playForeground => foregroundFrom s

end Sys2Proof.Machine
end

