-- ==== Sys2Proof/Machine/Fetch.lean ====
section
/-!
DEFINITION. What the step reads next: the inputs from outside (R8, R215) and the next MML unit of the voice whose turn it
is (R40, R242); and the data-channel items that make a table word a whole command.
-/

namespace Sys2Proof.Machine

/-! ### Inputs -/

/-- A collaborator's answers change (R343, I14). -/
def applyChange (c : CollabChange) (s : State) : State :=
  let k := s.coll
  { s with coll :=
      match c with
      | .fontByte key b => { k with font := k.font.write key b }
      | .fontBad key => { k with font := k.font.spoil key }
      | .videoByte rel b => { k with video := k.video.write rel b }
      | .videoBad rel => { k with video := k.video.spoil rel }
      | .dataByte rel b => { k with data := k.data.write rel b }
      | .dataBad rel => { k with data := k.data.spoil rel }
      | .bulk a => { k with bulk := a }
      | .protection p r => { k with isProtected := p, running := r }
      | .videoMeta m => { k with videoMeta := m }
      | .keyboard kb => { k with keyboard := kb }
      | .devices d => { k with devices := d }
      | .strings t => { k with strings := t } }

/-- An input while a command is held (R215): a command is refused and the held one is not disturbed (R313), the renderer
moves, and collaborators do not change (R343, log 21). -/
def heldInput (inp : Input) (s : State) : State :=
  match inp with
  | .command _ _ => s.refuse
  | .renderer r => rendererStep r s
  | .collab _ => s

/-- A held command takes the next input, if there is one; else nothing moves (log 17). -/
def poll (s : State) : State :=
  match s.inbox with
  | [] => s
  | inp :: rest => heldInput inp { s with inbox := rest }

/-! ### The next unit of a PLAY -/

/-- What the round robin does at a turn (R242). -/
inductive ScanAction where
  /-- No voice is active: the scan is over. -/
  | finished
  /-- The turn passes on: the voice is not active, or it was found exhausted and leaves the active set. -/
  | pass (sc : Scan)
  /-- This unit runs; the cursor has moved past it. -/
  | unit (i : Instr) (sc : Scan)
deriving DecidableEq, Repr

/-- The voice whose turn it is: exhausted, or its next unit (R40, R242). -/
def scanAction (sc : Scan) : ScanAction :=
  let v := sc.turn
  if sc.anyActive then
    if sc.active.get v then
      match decodeUnit (sc.remaining v) with
      | none => .pass { sc with active := sc.active.set v false, turn := nextTurn v }
      | some (i, rest) => .unit i { sc with pos := sc.pos.set v ((sc.buf.get v).length - rest.length) }
    else .pass { sc with turn := nextTurn v }
  else .finished

/-! ### Table words -/

/-- A silent event that voice `v` admits (R200). -/
def silentEvent (v : Voice) : Event :=
  { kind := if v = .noise then .noise false else .tone, freq := Freq.zero, dur := 0, fill := 1, loop := false, vol := 0 }

/-- Data-channel items that suit an instruction (R123): a command is its word AND its items (R120), so a bare table
word is presented with the plainest ones (DESIGN CHOICE, log 5). -/
def plainItems : Instr → List DataItem
  | .writeBlock _ n => [.bytes (List.replicate n.toNat 0)]
  | .bload _ _ => [.file 0 []]
  | .enqueue v => [.event (silentEvent v)]
  | .playAndWait v => [.event (silentEvent v)]
  | .play k => List.replicate k.toNat (.bytes [])
  | _ => []

/-- The command input for a word. -/
def plainCommand (w : Word) : Input :=
  match decodeWord w with
  | .ok i => .command w (plainItems i)
  | .error _ => .command w []

/-- `s` with this code where the step reads its next instruction: a word first in the inbox of a block with no
outstanding command, a unit as the one string of a PLAY that begins to scan (log 5). -/
def placeCode (s : State) : Code → State
  | .word w => { s with out := none, scan := none, inbox := plainCommand w :: s.inbox }
  | .unit bytes => { s with out := some .playScan, scan := some (initScan [bytes]) }

end Sys2Proof.Machine
end

