-- ==== Sys2Proof/Machine/Reserved.lean ====
section
/-!
DEFINITION. The reserved opcodes (R127): each spells no command and is refused (R304), whatever the rest of its word.
-/

namespace Sys2Proof.Machine

/-- The answer to a word that spells no command (R127, R304). -/
def reservedWordRefused (s : State) : Host.Outcome State Fault Refusal := .next s.refuse

/-- Opcode 0x00, reserved (R127). -/
def execReserved00 (s : State) : Host.Outcome State Fault Refusal := reservedWordRefused s

/-- Opcode 0x11, reserved (R127). -/
def execReserved11 (s : State) : Host.Outcome State Fault Refusal := reservedWordRefused s

/-- Opcode 0x12, reserved (R127). -/
def execReserved12 (s : State) : Host.Outcome State Fault Refusal := reservedWordRefused s

/-- Opcode 0x13, reserved (R127). -/
def execReserved13 (s : State) : Host.Outcome State Fault Refusal := reservedWordRefused s

/-- Opcode 0x14, reserved (R127). -/
def execReserved14 (s : State) : Host.Outcome State Fault Refusal := reservedWordRefused s

/-- Opcode 0x15, reserved (R127). -/
def execReserved15 (s : State) : Host.Outcome State Fault Refusal := reservedWordRefused s

/-- Opcode 0x16, reserved (R127). -/
def execReserved16 (s : State) : Host.Outcome State Fault Refusal := reservedWordRefused s

/-- Opcode 0x17, reserved (R127). -/
def execReserved17 (s : State) : Host.Outcome State Fault Refusal := reservedWordRefused s

/-- Opcode 0x18, reserved (R127). -/
def execReserved18 (s : State) : Host.Outcome State Fault Refusal := reservedWordRefused s

/-- Opcode 0x19, reserved (R127). -/
def execReserved19 (s : State) : Host.Outcome State Fault Refusal := reservedWordRefused s

/-- Opcode 0x1A, reserved (R127). -/
def execReserved1A (s : State) : Host.Outcome State Fault Refusal := reservedWordRefused s

/-- Opcode 0x1B, reserved (R127). -/
def execReserved1B (s : State) : Host.Outcome State Fault Refusal := reservedWordRefused s

/-- Opcode 0x1C, reserved (R127). -/
def execReserved1C (s : State) : Host.Outcome State Fault Refusal := reservedWordRefused s

/-- Opcode 0x1D, reserved (R127). -/
def execReserved1D (s : State) : Host.Outcome State Fault Refusal := reservedWordRefused s

/-- Opcode 0x1E, reserved (R127). -/
def execReserved1E (s : State) : Host.Outcome State Fault Refusal := reservedWordRefused s

/-- Opcode 0x1F, reserved (R127). -/
def execReserved1F (s : State) : Host.Outcome State Fault Refusal := reservedWordRefused s

end Sys2Proof.Machine
end

