-- ==== Sys2Proof/Machine/Dispatch.lean ====
section
/-!
DEFINITION. One arm for each instruction: its meaning.
-/

namespace Sys2Proof.Machine

def exec (i : Instr) (s : State) : Host.Outcome State Fault Refusal :=
  match i with
  | .peek off => Sys2Proof.Machine.execPeek off s
  | .poke off val => Sys2Proof.Machine.execPoke off val s
  | .readBlock off n => Sys2Proof.Machine.execReadBlock off n s
  | .writeBlock off n => Sys2Proof.Machine.execWriteBlock off n s
  | .setSegment isNone value => Sys2Proof.Machine.execSetSegment isNone value s
  | .bload isNone off => Sys2Proof.Machine.execBload isNone off s
  | .bsave off n => Sys2Proof.Machine.execBsave off n s
  | .enqueue v => Sys2Proof.Machine.execEnqueue v s
  | .playAndWait v => Sys2Proof.Machine.execPlayAndWait v s
  | .waitDepth mask depth => Sys2Proof.Machine.execWaitDepth mask depth s
  | .waitIdle mask => Sys2Proof.Machine.execWaitIdle mask s
  | .stopAll => Sys2Proof.Machine.execStopAll s
  | .isPlaying v => Sys2Proof.Machine.execIsPlaying v s
  | .qlen v => Sys2Proof.Machine.execQlen v s
  | .play k => Sys2Proof.Machine.execPlay k s
  | .soundReset => Sys2Proof.Machine.execSoundReset s
  | .mmlNop => Sys2Proof.Machine.execMmlNop s
  | .mmlX ref _ => Sys2Proof.Machine.execMmlX ref s
  | .mmlN n dot => Sys2Proof.Machine.execMmlN n dot s
  | .mmlL n => Sys2Proof.Machine.execMmlL n s
  | .mmlT n => Sys2Proof.Machine.execMmlT n s
  | .mmlO n => Sys2Proof.Machine.execMmlO n s
  | .mmlUp => Sys2Proof.Machine.execMmlUp s
  | .mmlDown => Sys2Proof.Machine.execMmlDown s
  | .mmlA acc len dot => Sys2Proof.Machine.execMmlA acc len dot s
  | .mmlB acc len dot => Sys2Proof.Machine.execMmlB acc len dot s
  | .mmlC acc len dot => Sys2Proof.Machine.execMmlC acc len dot s
  | .mmlD acc len dot => Sys2Proof.Machine.execMmlD acc len dot s
  | .mmlE acc len dot => Sys2Proof.Machine.execMmlE acc len dot s
  | .mmlF acc len dot => Sys2Proof.Machine.execMmlF acc len dot s
  | .mmlG acc len dot => Sys2Proof.Machine.execMmlG acc len dot s
  | .mmlP len dot => Sys2Proof.Machine.execMmlP len dot s
  | .mmlMN => Sys2Proof.Machine.execMmlMN s
  | .mmlML => Sys2Proof.Machine.execMmlML s
  | .mmlMS => Sys2Proof.Machine.execMmlMS s
  | .mmlMF => Sys2Proof.Machine.execMmlMF s
  | .mmlMB => Sys2Proof.Machine.execMmlMB s
  | .mmlMOther _ => Sys2Proof.Machine.execMmlMOther s
  | .mmlV n => Sys2Proof.Machine.execMmlV n s
  | .mmlOther _ => Sys2Proof.Machine.execMmlOther s
  | .reserved00 _ => Sys2Proof.Machine.execReserved00 s
  | .reserved11 _ => Sys2Proof.Machine.execReserved11 s
  | .reserved12 _ => Sys2Proof.Machine.execReserved12 s
  | .reserved13 _ => Sys2Proof.Machine.execReserved13 s
  | .reserved14 _ => Sys2Proof.Machine.execReserved14 s
  | .reserved15 _ => Sys2Proof.Machine.execReserved15 s
  | .reserved16 _ => Sys2Proof.Machine.execReserved16 s
  | .reserved17 _ => Sys2Proof.Machine.execReserved17 s
  | .reserved18 _ => Sys2Proof.Machine.execReserved18 s
  | .reserved19 _ => Sys2Proof.Machine.execReserved19 s
  | .reserved1A _ => Sys2Proof.Machine.execReserved1A s
  | .reserved1B _ => Sys2Proof.Machine.execReserved1B s
  | .reserved1C _ => Sys2Proof.Machine.execReserved1C s
  | .reserved1D _ => Sys2Proof.Machine.execReserved1D s
  | .reserved1E _ => Sys2Proof.Machine.execReserved1E s
  | .reserved1F _ => Sys2Proof.Machine.execReserved1F s

end Sys2Proof.Machine
end

