-- ==== Sys2Proof/Machine/Step.lean ====
section
/-!
DEFINITION. One step of the machine (R7, R215): the outstanding command goes on, or the next input is taken. `exec` is
called here and nowhere else.
-/

namespace Sys2Proof.Machine

/-- A host command word is decoded and run, or refused (R126, R127, R304). -/
def runWord (w : Word) (s : State) : Host.Outcome State Fault Refusal :=
  match decodeWord w with
  | .ok i => exec i s
  | .error _ => .next s.refuse

/-- No command is outstanding: take the next input; with none, wait (R330). -/
def stepIdle (s : State) : Host.Outcome State Fault Refusal :=
  match s.inbox with
  | [] => .next s
  | .command w items :: rest => runWord w { s with inbox := rest, chan := items }
  | .renderer r :: rest => .next (rendererStep r { s with inbox := rest })
  | .collab c :: rest => .next (applyChange c { s with inbox := rest })

/-- The turn passes on after a unit that gives a next state. -/
def afterUnit : Host.Outcome State Fault Refusal → Host.Outcome State Fault Refusal
  | .next s => .next s.endTurn
  | .fault r => .fault r
  | .refused r => .refused r

/-- A PLAY scans: one turn of the round robin (R242), with no input taken. -/
def stepScan (s : State) : Host.Outcome State Fault Refusal :=
  match s.scan with
  | none => .refused .unitOutsidePlay
  | some sc =>
    match scanAction sc with
    | .finished => .next (resume .playScan s)
    | .pass sc' => .next (s.setScan sc')
    | .unit i sc' => afterUnit (exec i (s.setScan sc'))

/-- One step. A command that is ready goes on before any other agent moves (R215). -/
def step (s : State) : Host.Outcome State Fault Refusal :=
  match s.out with
  | none => stepIdle s
  | some .playScan => stepScan s
  | some c => .next (if s.ready c then resume c s else poll s)

/-- `s` with a table word where the next step reads its instruction (log 5). -/
def State.withFetchWord (s : State) (nbits w : Nat) : State := placeCode s (tableCode nbits w)

end Sys2Proof.Machine
end

