-- ==== Sys2Proof/Safety.lean ====
section
/-!
DEFINITION. The terms claims are made in: how a command ends, the invariant of the block's state, the opcode table as
masks and patterns, and what a write-back leaves as it is.
-/

namespace Sys2Proof.Machine

/-! ### How a command ends -/

/-- The command completes: one OK response with this data, nothing outstanding (R124). -/
def State.completed (s : State) (d : RespData) : State :=
  { s with out := none, scan := none, resp := s.resp ++ [{ status := .ok, data := d }] }

/-- The command ends in an error: its status, no data, nothing outstanding, nothing else (R307). -/
def State.failed (s : State) (st : Status) : State :=
  { s with out := none, scan := none, resp := s.resp ++ [{ status := st, data := .nothing }] }

/-- The command is refused: the REFUSED response and the sticky flag, nothing else (R304). -/
def State.turnedAway (s : State) : State :=
  { s with refused := true, resp := s.resp ++ [{ status := .refused, data := .nothing }] }

/-- The collaborator queries `l` made next, in order, and nothing else (R11, R342). -/
def State.consulted (s : State) (l : List Ask) : State := { s with asks := s.asks ++ l }

/-- The queries of the protection check (R160, R24; their order is log 28). -/
def protAsks : List Ask := [.dataProtected, .dataRunning]

/-- The outputs `l` made next, in order, each taken by its collaborator, and nothing else (R11, R67). -/
def State.delivered (s : State) (l : List Emit) : State :=
  { s with events := s.events ++ l, coll := l.foldl Collab.receive s.coll }

/-- The protection check passes (R160). -/
def State.accessible (s : State) : Prop := ¬(s.coll.isProtected = true ∧ s.coll.running = false)

/-- The protection check raises IFC (R160). -/
def State.locked (s : State) : Prop := s.coll.isProtected = true ∧ s.coll.running = false

/-- A PLAY is scanning with this scanner (R242). -/
def State.scanning (s : State) (sc : Scan) : Prop := s.out = some .playScan ∧ s.scan = some sc

/-- The command outstanding with continuation `c` is held: it is not PLAY's scan and its predicate does not hold
(R215). -/
def State.heldAt (s : State) (c : Cont) : Prop := s.out = some c ∧ c ≠ .playScan ∧ s.ready c = false

/-- No command is outstanding and the data channel is empty: a command that needs no item can be taken (R123, R313). -/
def State.free (s : State) : Prop := s.out = none ∧ s.chan = []

/-- No command is outstanding and the data channel holds exactly these items (R123, R313). -/
def State.given (s : State) (items : List DataItem) : Prop := s.out = none ∧ s.chan = items

/-- Event `e` joins queue `v`, with the noise linkage of R202. -/
def State.withEvent (s : State) (v : Voice) (e : Event) : State :=
  { s with
    queue := s.queue.set v (s.queue.get v ++ [e])
    noiseFreq := if v = .v2 ∧ e.freq.coef ≠ 0 then linkNoise s.cfg.noiseLinked e.freq s.noiseFreq else s.noiseFreq }

/-! ### The rows of the opcode table -/

/-- The opcode of a host command or a reserved word (R125, R127); an MML unit has none. -/
def hostOpcode : Instr → Option Nat
  | .peek _ => some 0x01
  | .poke _ _ => some 0x02
  | .readBlock _ _ => some 0x03
  | .writeBlock _ _ => some 0x04
  | .setSegment _ _ => some 0x05
  | .bload _ _ => some 0x06
  | .bsave _ _ => some 0x07
  | .enqueue _ => some 0x08
  | .playAndWait _ => some 0x09
  | .waitDepth _ _ => some 0x0A
  | .waitIdle _ => some 0x0B
  | .stopAll => some 0x0C
  | .isPlaying _ => some 0x0D
  | .qlen _ => some 0x0E
  | .play _ => some 0x0F
  | .soundReset => some 0x10
  | .reserved00 _ => some 0x00
  | .reserved11 _ => some 0x11
  | .reserved12 _ => some 0x12
  | .reserved13 _ => some 0x13
  | .reserved14 _ => some 0x14
  | .reserved15 _ => some 0x15
  | .reserved16 _ => some 0x16
  | .reserved17 _ => some 0x17
  | .reserved18 _ => some 0x18
  | .reserved19 _ => some 0x19
  | .reserved1A _ => some 0x1A
  | .reserved1B _ => some 0x1B
  | .reserved1C _ => some 0x1C
  | .reserved1D _ => some 0x1D
  | .reserved1E _ => some 0x1E
  | .reserved1F _ => some 0x1F
  | .mmlNop | .mmlX _ _ | .mmlN _ _ | .mmlL _ | .mmlT _ | .mmlO _ | .mmlUp | .mmlDown => none
  | .mmlA _ _ _ | .mmlB _ _ _ | .mmlC _ _ _ | .mmlD _ _ _ | .mmlE _ _ _ | .mmlF _ _ _ | .mmlG _ _ _ => none
  | .mmlP _ _ | .mmlMN | .mmlML | .mmlMS | .mmlMF | .mmlMB | .mmlMOther _ | .mmlV _ | .mmlOther _ => none

/-- The mask of the table row with a given opcode, as spec/opcode_table.json prints it; a reserved row fixes OP only. -/
def rowMask : Nat → Word
  | 0x01 => 0xFFFFFFFFFC0001FF
  | 0x02 | 0x03 | 0x04 | 0x07 => 0xFFFFF800000001FF
  | 0x05 | 0x06 => 0xFFFFFFFFFC0001DF
  | 0x08 | 0x09 | 0x0D | 0x0E | 0x0F => 0xFFFFFFFFFFFFFF9F
  | 0x0A => 0xFFFFFFFFFC00001F
  | 0x0B => 0xFFFFFFFFFFFFFE1F
  | 0x0C | 0x10 => 0xFFFFFFFFFFFFFFFF
  | _ => 0x1F

/-- The word matches the table row with this opcode, whose match value is the opcode itself. -/
def rowMatches (op : Nat) (w : Word) : Prop := w &&& rowMask op = BitVec.ofNat 64 op

/-- The note instruction of a letter (R257). -/
def letterInstr (l : Letter) (acc : Option Acc) (len : Option Nat) (dot : Bool) : Instr :=
  match l with
  | .A => .mmlA acc len dot
  | .B => .mmlB acc len dot
  | .C => .mmlC acc len dot
  | .D => .mmlD acc len dot
  | .E => .mmlE acc len dot
  | .F => .mmlF acc len dot
  | .G => .mmlG acc len dot

/-! ### Invalid command words -/

/-- The fields of a command word that its opcode marks 0 are 0 (R125). -/
def markedZero (w : Word) : Prop :=
  match (fieldOp w).toNat with
  | 0x01 => fieldF w = 0 ∧ fieldB w = 0
  | 0x02 | 0x03 | 0x04 | 0x07 => fieldF w = 0
  | 0x05 | 0x06 => (fieldF w).toNat < 2 ∧ fieldB w = 0
  | 0x08 | 0x09 | 0x0D | 0x0E | 0x0F => (fieldF w).toNat < 4 ∧ fieldA w = 0 ∧ fieldB w = 0
  | 0x0A => fieldB w = 0
  | 0x0B => fieldA w = 0 ∧ fieldB w = 0
  | 0x0C | 0x10 => fieldF w = 0 ∧ fieldA w = 0 ∧ fieldB w = 0
  | _ => True

/-- An integer in [-32768, 65535], the range of an offset (R61). -/
def offsetRange (x : Int) : Prop := -32768 ≤ x ∧ x ≤ 65535

/-- An integer in [0, 65535], the range of a length or a depth (R126). -/
def lengthRange (x : Int) : Prop := 0 ≤ x ∧ x ≤ 65535

/-- Event `e` is admissible on voice `v` (R200): a tone on voices 0 to 2, noise on voice 3, every field in its range. -/
def eventAllowed (e : Event) (v : Voice) : Prop :=
  ((e.kind = .tone ∧ v ≠ .noise) ∨ ((∃ w, e.kind = .noise w) ∧ v = .noise)) ∧
  0 ≤ e.freq.coef ∧ 0 ≤ e.dur ∧ 0 < e.fill ∧ e.fill ≤ 1 ∧ e.vol ≤ 15

/-- The operands of a command word and its data items lie in the ranges R126 asks for. -/
def operandsInRange (w : Word) (items : List DataItem) : Prop :=
  let a := (fieldA w).toInt
  let b := (fieldB w).toInt
  match (fieldOp w).toNat with
  | 0x01 | 0x02 => offsetRange a
  | 0x03 | 0x07 => offsetRange a ∧ lengthRange b
  | 0x04 => offsetRange a ∧ lengthRange b ∧ ∀ d, items = [.bytes d] → (d.length : Int) = b
  | 0x05 | 0x06 => if (fieldF w).getLsbD 0 then a = 0 else offsetRange a
  | 0x08 | 0x09 => ∀ e, items = [.event e] → eventAllowed e (voiceOf ((fieldF w).extractLsb' 0 2))
  | 0x0A => lengthRange a
  | 0x0F => (fieldF w).extractLsb' 0 2 ≠ 0
  | _ => True

/-- The data-channel items are those that the instruction needs (R123): one byte string of the length operand, one file
record, one event, K strings, or none. -/
def itemsSuit (i : Instr) (items : List DataItem) : Prop :=
  match i with
  | .writeBlock _ n => ∃ d, items = [.bytes d] ∧ d.length = n.toNat
  | .bload _ _ => ∃ off payload, items = [.file off payload]
  | .enqueue _ | .playAndWait _ => ∃ e, items = [.event e]
  | .play k => ∃ strings : List (List Byte), items = strings.map .bytes ∧ strings.length = k.toNat
  | _ => items = []

/-! ### Addresses an instruction stores to -/

/-- The addresses an instruction stores to (R62, R63): one for POKE, the span of the block for WRITE_BLOCK and BLOAD (R168:
the offset of the file where NONE is 1), none for any other. -/
def storedAt (i : Instr) (s : State) : List (BitVec 20) :=
  match i with
  | .poke off _ => [effAddr s.seg off.toInt 0]
  | .writeBlock off n => (List.range n.toNat).map (effAddr s.seg off.toInt)
  | .bload isNone off =>
    match s.chan with
    | [.file fileOff payload] =>
      (List.range (trim s.cfg payload).length).map (effAddr s.seg (if isNone then fileOff.toNat else off.toInt))
    | _ => []
  | _ => []

/-- The address is a byte of the RAM-font glyph window: 127 glyphs of 8 rows, in the region 0xC0000 to 0xEFFFF (R79). -/
def inGlyphWindow (cfg : Config) (ea : BitVec 20) : Prop :=
  0xC0000 + cfg.ramFontOff.toNat ≤ ea.toNat ∧ ea.toNat < 0xC0000 + cfg.ramFontOff.toNat + 127 * 8 ∧ ea.toNat < 0xF0000

/-! ### The invariant -/

/-- The continuation belongs to a PLAY. -/
def Cont.isPlay : Cont → Bool
  | .playScan | .playEmit _ _ | .playPad _ | .playForeground => true
  | .enqueue _ _ | .playAndWait _ _ | .backPressure _ | .waitDepth _ _ | .waitIdle _ => false

/-- An event a continuation still has to append is admissible on its voice (R200). -/
def Cont.admits : Cont → Bool
  | .enqueue v e => e.admissible v
  | .playAndWait v e => e.admissible v
  | .playEmit v e => e.admissible v.queue
  | .backPressure _ | .waitDepth _ _ | .waitIdle _ | .playScan | .playPad _ | .playForeground => true

/-- A PLAY's scanner: 1 to 3 strings, cursors inside their buffers (R40), totals not negative, only participating voices
active (R241). -/
structure Scan.Ok (sc : Scan) : Prop where
  strings : 1 ≤ sc.k ∧ sc.k ≤ 3
  cursor : ∀ v, sc.pos.get v ≤ (sc.buf.get v).length
  total : ∀ v, 0 ≤ sc.acc.get v
  participating : ∀ v, sc.active.get v = true → v.idx < sc.k

/-- What every reachable state satisfies: the configuration meets R333, queues hold admissible events (R200) and at most
QDEPTH of them (R201), an item is in flight exactly where BUSY says so (R36), the noise table keeps its size (R38), the
scanner exists exactly during a PLAY (R39), and the collaborators' memories are canonical. -/
structure State.Inv (s : State) : Prop where
  config : s.cfg.wf = true
  depth : ∀ v n, s.cfg.qdepth = some n → (s.queue.get v).length ≤ n
  queued : ∀ v, ∀ e ∈ s.queue.get v, e.admissible v = true
  current : ∀ v e, s.cur.get v = some e → e.admissible v = true
  inFlight : ∀ v, s.busy.get v = (s.cur.get v).isSome
  noiseSize : s.noiseFreq.length = s.cfg.noiseSize
  noiseSign : ∀ f ∈ s.noiseFreq, 0 ≤ f.coef
  scanner : s.scan.isSome = (s.out.map Cont.isPlay).getD false
  scanOk : ∀ sc, s.scan = some sc → sc.Ok
  pending : ∀ c, s.out = some c → c.admits = true
  fontWf : s.coll.font.cells.wf
  videoWf : s.coll.video.cells.wf
  dataWf : s.coll.data.cells.wf

/-! ### Write-back -/

/-- The output leaves the collaborator as it is: it stores what the collaborator answers already (R171). -/
def leavesAsIs (cfg : Config) (c : Collab) : Emit → Prop
  | .fontSet char row v => (c.font.answer (glyphKey char row)).clamped = some v
  | .rebuildGlyph _ => True
  | .rendererStop => False
  | .videoSet rel v => (c.video.answer rel).clamped = some v
  | .videoSetRange rel bytes => videoRange c rel bytes.length = bytes.map (fun b => (b.toNat : Int))
  | .dataSet rel v => (c.data.answer rel).clamped = some v
  | .kbdSetModifiers v => (lowByte cfg c .kbMods 0).clamped = some v
  | .kbdSetHeadByte k v => (lowByte cfg c .kbHead k).clamped = some v
  | .kbdSetTailByte k v => (lowByte cfg c .kbTail k).clamped = some v
  | .kbdSetSlotByte slot half v => (lowByte cfg c .kbRing (2 * slot + half)).clamped = some v

end Sys2Proof.Machine
end

