-- ==== Sys2Proof/Certificates/Slice0/Obligations.lean ====
section
/-!
DEFINITION. The statements for the provers. Each docstring names the rules of spec/ it formalises; a clause that rests on
a choice of the model says so and names the log entry. A result is stated as an equation for the whole next state, so
every field it does not name is unchanged.
-/

open Sys2Proof Sys2Proof.Machine

/-! ### The two languages -/

/-- R120, R126: with nothing outstanding, the step takes the next command: it runs the instruction its word decodes to,
its items on the data channel; a word that decodes to none is refused. -/
def Obligations.StepRunsDecodedWord : Prop :=
  ∀ (s : State) (w : Word) (items : List DataItem) (rest : List Input),
    s.out = none → s.inbox = .command w items :: rest →
      (∀ i, decodeWord w = .ok i → step s = exec i { s with inbox := rest, chan := items }) ∧
      (∀ e, decodeWord w = .error e → step s = .next { s with inbox := rest, chan := items }.turnedAway)

/-- R40, R242: during a PLAY's scan the step runs the unit at the cursor of the voice whose turn it is, the cursor moved
past the unit's bytes, and the turn then passes to the next voice, from 0 to 1 to 2 and back to 0, if the PLAY goes on.
That one unit and the pass of the turn are one step of the model is log 7 (DEDUCED). -/
def Obligations.StepRunsDecodedUnit : Prop :=
  (nextTurn .v0 = .v1 ∧ nextTurn .v1 = .v2 ∧ nextTurn .v2 = .v0) ∧
  ∀ (s t : State) (sc : Scan) (i : Instr) (rest : List Byte),
    s.scanning sc → sc.active.get sc.turn = true →
    decodeUnit ((sc.buf.get sc.turn).drop (sc.pos.get sc.turn)) = some (i, rest) →
    let sc1 := { sc with pos := sc.pos.set sc.turn ((sc.buf.get sc.turn).length - rest.length) }
    exec i { s with scan := some sc1 } = .next t →
      (∀ sc2, t.scan = some sc2 → step s = .next { t with scan := some { sc2 with turn := nextTurn sc2.turn } }) ∧
      (t.scan = none → step s = .next t)

/-- R242: turns go round in ascending order, from voice 0 to 1 to 2 and back to 0; a voice that is not active passes the
turn on; an active voice whose cursor stands at the end of its buffer leaves the active set; when none is active the scan
is over and the padding begins with voice 0. That each of these is a step of its own is log 7 (DEDUCED). -/
def Obligations.RoundRobinTurns : Prop :=
  (nextTurn .v0 = .v1 ∧ nextTurn .v1 = .v2 ∧ nextTurn .v2 = .v0) ∧
  ∀ (s : State) (sc : Scan), s.scanning sc →
    let passed := { sc with turn := nextTurn sc.turn }
    ((∀ v, sc.active.get v = false) → step s = .next { s with out := some (.playPad .v0) }) ∧
    ((∃ v, sc.active.get v = true) → sc.active.get sc.turn = false → step s = .next { s with scan := some passed }) ∧
    (sc.active.get sc.turn = true → sc.pos.get sc.turn = (sc.buf.get sc.turn).length →
      step s = .next { s with scan := some { passed with active := sc.active.set sc.turn false } })

/-- R121, R125, R127, opcode_table.json: a word decodes to an instruction exactly when it matches the mask and pattern of
that instruction's row. -/
def Obligations.DecodeFollowsOpcodeTable : Prop :=
  (∀ (w : Word) (i : Instr), decodeWord w = .ok i → ∃ op, hostOpcode i = some op ∧ rowMatches op w) ∧
  (∀ (w : Word) (op : Nat), op < 32 → rowMatches op w → ∃ i, decodeWord w = .ok i ∧ hostOpcode i = some op)

/-- Decoding the code of any encodable instruction, host word or MML unit, gives it back with every operand. -/
def Obligations.DecodeEncode : Prop :=
  ∀ i : Instr, i.encodable = true → decode (encode i) = .ok i

/-- No bit of a command word is dropped: encoding what a word decodes to gives the word back. -/
def Obligations.EncodeDecodeWord : Prop :=
  ∀ (w : Word) (i : Instr), decodeWord w = .ok i → encode i = .word w

/-- R129, R134: a unit's end is found from its own bytes: where `;` follows, the unit is read whole and `;` begins the
next. A splice must bring its own `;` (R133), and `M` would take the `;` as its suffix (R134). -/
def Obligations.UnitEndsBeforeSemicolon : Prop :=
  ∀ (i : Instr) (bs r : List Byte), encode i = .unit bs → i.encodable = true →
    (∀ ref, i ≠ .mmlX ref false) → i ≠ .mmlMOther none →
      decodeUnit (bs ++ 0x3B :: r) = some (i, 0x3B :: r)

/-- R128, R134, R135, R270: only the empty text has no unit; every unit consumes at least one byte and leaves a suffix of
the text; the case of a command letter and of the suffix of M does not matter; a byte that begins no command is a unit by
itself, as written. -/
def Obligations.UnitScanning : Prop :=
  (∀ bs : List Byte,
    (decodeUnit bs = none ↔ bs = []) ∧
    (∀ i rest, decodeUnit bs = some (i, rest) → ∃ taken, taken ≠ [] ∧ bs = taken ++ rest)) ∧
  (∀ (c : Byte) (r : List Byte),
    (isCommandByte c = true → decodeUnit (c :: r) = decodeUnit (fold c :: r)) ∧
    (isCommandByte c = false → decodeUnit (c :: r) = some (.mmlOther c, r)) ∧
    (0x80 ≤ c.toNat → isCommandByte c = false)) ∧
  (∀ (b : Byte) (r : List Byte),
    (b = 0x4E ∨ b = 0x6E → decodeUnit (0x4D :: b :: r) = some (.mmlMN, r)) ∧
    (b = 0x4C ∨ b = 0x6C → decodeUnit (0x4D :: b :: r) = some (.mmlML, r)) ∧
    (b = 0x53 ∨ b = 0x73 → decodeUnit (0x4D :: b :: r) = some (.mmlMS, r)) ∧
    (b = 0x46 ∨ b = 0x66 → decodeUnit (0x4D :: b :: r) = some (.mmlMF, r)) ∧
    (b = 0x42 ∨ b = 0x62 → decodeUnit (0x4D :: b :: r) = some (.mmlMB, r))) ∧
  (∀ c : Byte,
    (0x61 ≤ c.toNat → c.toNat ≤ 0x7A → (fold c).toNat + 0x20 = c.toNat) ∧
    (c.toNat < 0x61 ∨ 0x7A < c.toNat → fold c = c))

/-- Some words and units written out from the encoding tables (R121, R125, R129) decode to what they stand for. -/
def Obligations.DecodeSampleWords : Prop :=
  decodeWord 0x00000004000A0002 = .ok (.poke 0x0500 256) ∧
  decodeWord 0x0000000003FFFE05 = .ok (.setSegment false (-1)) ∧
  decodeWord 0x000000000000002F = .ok (.play 1) ∧
  decodeWord 0x0000000000000068 = .ok (.enqueue .noise) ∧
  decodeWord 0x0000000000000024 = .error .fNonzero ∧
  decodeUnit [0x63, 0x2B, 0x31, 0x36, 0x2E, 0x3E] = some (.mmlC (some .sharp) (some 16) true, [0x3E]) ∧
  decodeUnit [0x58, 0x41, 0x24, 0x3B, 0x45] = some (.mmlX [0x41, 0x24] true, [0x45])

/-! ### Reset, invariant and progress -/

/-- R330: what session construction leaves in the block's state, for any configuration. The reset state is that of the
example configuration (the model's choice, log 1). -/
def Obligations.SessionValues : Prop :=
  State.reset = State.session Config.sample ∧
  ∀ c : Config,
    (State.session c).cfg = c ∧ (State.session c).seg = c.dataSeg ∧ (State.session c).fg = true ∧
    (State.session c).stopReq = false ∧ (State.session c).noiseFreq = c.noiseInit ∧ (State.session c).out = none ∧
    (State.session c).scan = none ∧ (State.session c).refused = false ∧ (State.session c).events = [] ∧
    (∀ v, ((State.session c).ps.get v).oct.val = 4 ∧ ((State.session c).ps.get v).eff = none ∧
      ((State.session c).ps.get v).lenN.val = 4 ∧ ((State.session c).ps.get v).tempoN.val = 120 ∧
      ((State.session c).ps.get v).speed = .normal ∧ ((State.session c).ps.get v).vol.val = 15) ∧
    (∀ v, (State.session c).queue.get v = [] ∧ (State.session c).busy.get v = false ∧
      (State.session c).cur.get v = none)

/-- The state after session construction satisfies the invariant, for the reset configuration and for every configuration
that meets R333. -/
def Obligations.ResetInv : Prop :=
  State.reset.Inv ∧ ∀ c : Config, c.wf = true → (State.session c).Inv

/-- Every step keeps the invariant (`State.Inv` in Safety.lean names its rules): QDEPTH bounds the queues, queues and
in-flight items are admissible, BUSY agrees with CUR, the scanner exists exactly during a PLAY and its cursors stay in
their buffers, memories stay canonical. -/
def Obligations.StepKeepsInv : Prop :=
  ∀ s t : State, s.Inv → step s = .next t → t.Inv

/-- No state that satisfies the invariant makes the machine stop: errors and refusals are responses after which the block
goes on (R300, R304, R307). -/
def Obligations.StepNeverStops : Prop :=
  ∀ s : State, s.Inv → ∃ t, step s = .next t

/-! ### Who writes what -/

/-- R23, R41: the configuration registers are never written; REFUSED is sticky; EVENTS and the responses only grow, and so
does the model's record of the queries made (log 28). -/
def Obligations.ConfigAndRecordsKept : Prop :=
  ∀ s t : State, step s = .next t →
    t.cfg = s.cfg ∧ (s.refused = true → t.refused = true) ∧ s.events <+: t.events ∧ s.resp <+: t.resp ∧
    s.asks <+: t.asks

/-- R22: only SET_SEGMENT writes SEG. -/
def Obligations.SegWrittenOnlyBySetSegment : Prop :=
  (∀ (i : Instr) (s t : State), exec i s = .next t → t.seg ≠ s.seg → ∃ isNone value, i = .setSegment isNone value) ∧
  (∀ s t : State, step s = .next t → t.seg ≠ s.seg →
    s.out = none ∧ ∃ w items rest isNone value,
      s.inbox = .command w items :: rest ∧ decodeWord w = .ok (.setSegment isNone value))

/-- R36: no instruction writes BUSY or CUR; a step writes them only where it is a renderer step, and then it
is that and nothing else. -/
def Obligations.InFlightWrittenOnlyByRenderer : Prop :=
  (∀ (i : Instr) (s t : State), exec i s = .next t → t.busy = s.busy ∧ t.cur = s.cur) ∧
  (∀ s t : State, step s = .next t → t.busy ≠ s.busy ∨ t.cur ≠ s.cur →
    ∃ r rest, s.inbox = .renderer r :: rest ∧ t = rendererStep r { s with inbox := rest })

/-- R25 to R32, R210: beside SOUND_RESET, OCT is written only by O, LEN_N only by L, TEMPO_N only by T, SPEED only by MN,
ML and MS, VOL only by V where the option holds; EFF is set only by > and < and cleared only by O, N, P and notes; FG is
written only by MF (1) and MB (0). SOUND_RESET writes FG 1. -/
def Obligations.SoundStateWriters : Prop :=
  ∀ (i : Instr) (s t : State) (v : ToneVoice), exec i s = .next t →
    (i = .soundReset → t.fg ≠ s.fg → t.fg = true) ∧
    (i ≠ .soundReset →
      (t.fg ≠ s.fg → (i = .mmlMF ∧ t.fg = true) ∨ (i = .mmlMB ∧ t.fg = false)) ∧
      ((t.ps.get v).oct ≠ (s.ps.get v).oct → ∃ n, i = .mmlO n) ∧
      ((t.ps.get v).lenN ≠ (s.ps.get v).lenN → ∃ n, i = .mmlL n) ∧
      ((t.ps.get v).tempoN ≠ (s.ps.get v).tempoN → ∃ n, i = .mmlT n) ∧
      ((t.ps.get v).speed ≠ (s.ps.get v).speed → i = .mmlMN ∨ i = .mmlML ∨ i = .mmlMS) ∧
      ((t.ps.get v).vol ≠ (s.ps.get v).vol → s.cfg.perVoiceVolume = true ∧ ∃ n, i = .mmlV n) ∧
      ((t.ps.get v).eff ≠ (s.ps.get v).eff →
        i = .mmlUp ∨ i = .mmlDown ∨
        ((t.ps.get v).eff = none ∧
          ((∃ n, i = .mmlO n) ∨ (∃ n d, i = .mmlN n d) ∨ (∃ n d, i = .mmlP n d) ∨
            ∃ l a n d, i = letterInstr l a n d))))

/-- R67, R74, R343: an instruction changes what an address reads as only where it stores to a glyph byte of the RAM-font
window that no override covers; every other address reads as before. Else only an input that changes a collaborator does,
and only between commands. That a write to the video, data or keyboard collaborator changes what it answers only through
such an input is the model's choice (logs 9 and 10; R334); that a read-only low-memory field reads as before after a POKE
is log 31 (DEDUCED). -/
def Obligations.BytesChangeOnlyWhereStored : Prop :=
  (∀ (i : Instr) (s t : State) (ea : BitVec 20), exec i s = .next t →
    ea ∉ storedAt i s ∨ ¬inGlyphWindow s.cfg ea ∨ overrideAt s.cfg ea ≠ none →
      memRead t.cfg t.coll ea = memRead s.cfg s.coll ea) ∧
  (∀ (s t : State) (ea : BitVec 20), step s = .next t →
    memRead t.cfg t.coll ea ≠ memRead s.cfg s.coll ea →
      s.out = none ∧ ((∃ c rest, s.inbox = .collab c :: rest) ∨
        ∃ w items rest i, s.inbox = .command w items :: rest ∧ decodeWord w = .ok i ∧
          ea ∈ storedAt i { s with inbox := rest, chan := items } ∧ inGlyphWindow s.cfg ea))

/-- R33, R104, R106, R207: in one step a queue stays, gains one event at its tail, loses its head, or is emptied. -/
def Obligations.QueueChangesAtEnds : Prop :=
  ∀ (s t : State) (v : Voice), step s = .next t →
    t.queue.get v = s.queue.get v ∨ (∃ e, t.queue.get v = s.queue.get v ++ [e]) ∨
    t.queue.get v = (s.queue.get v).tail ∨ t.queue.get v = []

/-! ### Refusals and errors -/

/-- R126, R121: a command word is refused when Z is not 0, a field its opcode marks 0 is not 0, or an operand or data
item is not valid. -/
def Obligations.InvalidWordRefused : Prop :=
  ∀ (s : State) (w : Word) (items : List DataItem) (rest : List Input),
    s.out = none → s.inbox = .command w items :: rest →
    fieldZ w ≠ 0 ∨ ¬markedZero w ∨ ¬operandsInRange w items →
      step s = .next { s with inbox := rest, chan := items }.turnedAway

/-- R127: OP = 0x00 and OP in 0x11 to 0x1F spell no command: such a word, whatever its other bits, is refused. All 16
reserved constructors are named. -/
def Obligations.ReservedOpcodesRefused : Prop :=
  (∀ (w : Word), (fieldOp w).toNat = 0 ∨ 0x11 ≤ (fieldOp w).toNat →
    ∃ i, decodeWord w = .ok i ∧ ∀ s, exec i s = .next s.turnedAway) ∧
  (∀ (r : BitVec 59) (s : State),
    exec (.reserved00 r) s = .next s.turnedAway ∧ exec (.reserved11 r) s = .next s.turnedAway ∧
    exec (.reserved12 r) s = .next s.turnedAway ∧ exec (.reserved13 r) s = .next s.turnedAway ∧
    exec (.reserved14 r) s = .next s.turnedAway ∧ exec (.reserved15 r) s = .next s.turnedAway ∧
    exec (.reserved16 r) s = .next s.turnedAway ∧ exec (.reserved17 r) s = .next s.turnedAway ∧
    exec (.reserved18 r) s = .next s.turnedAway ∧ exec (.reserved19 r) s = .next s.turnedAway ∧
    exec (.reserved1A r) s = .next s.turnedAway ∧ exec (.reserved1B r) s = .next s.turnedAway ∧
    exec (.reserved1C r) s = .next s.turnedAway ∧ exec (.reserved1D r) s = .next s.turnedAway ∧
    exec (.reserved1E r) s = .next s.turnedAway ∧ exec (.reserved1F r) s = .next s.turnedAway)

/-- R304, R313: a host command presented while another is outstanding is refused, and the outstanding command is not
disturbed. -/
def Obligations.SecondCommandRefused : Prop :=
  (∀ (i : Instr) (s : State) (op : Nat), hostOpcode i = some op → s.out ≠ none → exec i s = .next s.turnedAway) ∧
  (∀ (s : State) (c : Cont) (w : Word) (items : List DataItem) (rest : List Input),
    s.heldAt c → s.inbox = .command w items :: rest → step s = .next { s with inbox := rest }.turnedAway)

/-- R123, R300, R304: a host command whose data-channel items are not exactly those it needs is refused; that a surplus
item has no meaning is the model's choice (log 8). An MML unit handed to `exec` where no PLAY is scanning has no meaning,
which no step does (R39, log 15). -/
def Obligations.OutOfPlaceInstructions : Prop :=
  (∀ (i : Instr) (s : State) (op : Nat), hostOpcode i = some op → ¬itemsSuit i s.chan → exec i s = .next s.turnedAway) ∧
  (∀ (i : Instr) (s : State), hostOpcode i = none → (∀ sc, ¬s.scanning sc) → exec i s = .refused .unitOutsidePlay)

/-- R304, R307, R308, R269: an instruction answered REFUSED changes nothing but the response and the sticky flag; one
answered IFC or RANGE changes nothing but the response and what is outstanding: the command is over, the queues, the
PlayStates and FG stay as they are. The queries made before the failure stay in the model's record of them (log 28). -/
def Obligations.FailureLeavesNoTrace : Prop :=
  ∀ (i : Instr) (s t : State) (st : Status), exec i s = .next t →
    t.resp = s.resp ++ [{ status := st, data := .nothing }] →
      ∃ q, (st = .refused → t = (s.consulted q).turnedAway) ∧
        (st = .ifc ∨ st = .range → t = (s.consulted q).failed st)

/-! ### Addresses and regions -/

/-- R61, R62, R63: byte i of an access at an offset lies at (SEG*16 + norm16(off) + i) mod 2^20. -/
def Obligations.EffectiveAddress : Prop :=
  ∀ (seg : BitVec 16) (off : Int) (i : Nat), offsetRange off →
    ((effAddr seg off i).toNat : Int) =
      ((seg.toNat : Int) * 16 + (if off < 0 then off + 65536 else off) + i) % 2 ^ 20

/-- R70, R71, R72, R73: in a configuration that meets R333 an address is in exactly the region whose interval holds it, and
the collaborator's offset counts from that region's base: 0xF0000, 0xC0000, 0xA0000, DATA_SEG*16 or 0. -/
def Obligations.RegionByAddress : Prop :=
  ∀ (c : Config) (ea : BitVec 20), c.wf = true →
    (region c ea = .rom ↔ 0xF0000 ≤ ea.toNat) ∧
    (region c ea = .ramFont ↔ 0xC0000 ≤ ea.toNat ∧ ea.toNat < 0xF0000) ∧
    (region c ea = .video ↔ 0xA0000 ≤ ea.toNat ∧ ea.toNat < 0xC0000) ∧
    (region c ea = .data ↔ c.dataSeg.toNat * 16 ≤ ea.toNat ∧ ea.toNat < 0xA0000) ∧
    (region c ea = .low ↔ ea.toNat < c.dataSeg.toNat * 16) ∧
    (region c ea = .rom → rel c ea + 0xF0000 = ea.toNat) ∧
    (region c ea = .ramFont → rel c ea + 0xC0000 = ea.toNat) ∧
    (region c ea = .video → rel c ea + 0xA0000 = ea.toNat) ∧
    (region c ea = .data → rel c ea + c.dataSeg.toNat * 16 = ea.toNat) ∧
    (region c ea = .low → rel c ea = ea.toNat)

/-- R161: for n <= 65535 the video bytes of a span are none or one run of consecutive indices. -/
def Obligations.VideoRunContiguous : Prop :=
  ∀ (c : Config) (seg : BitVec 16) (off : Int) (n : Nat), offsetRange off → n ≤ 65535 →
    ∃ i0 i1, i0 ≤ i1 ∧ i1 ≤ n ∧ videoIndices c seg off n = List.range' i0 (i1 - i0)

/-- R74, R75, R77, R79, R81, R83, R84: the single-byte read: an entry of the override table wins over every region; else
the region's collaborator is asked and answers, glyph bytes by character and row inside their windows, and outside them a
byte is unmapped and nothing is asked. -/
def Obligations.SingleByteRead : Prop :=
  ∀ (c : Config) (k : Collab) (ea : BitVec 20),
    let reads := fun (x : Answer) (q : List Ask) => memRead c k ea = x ∧ memAsks c k ea = q
    (c.wf = true → ∀ b, overrideAt c ea = some b ↔ (ea.toNat, b) ∈ c.overrides) ∧
    (∀ b, overrideAt c ea = some b → reads (.byte b) []) ∧
    (overrideAt c ea = none →
      (∀ char row, char ≤ 127 → row < 8 → rel c ea = c.romFontOff.toNat + char * 8 + row → region c ea = .rom →
        reads (k.font.answer (glyphKey char row)) [.fontGet char row]) ∧
      (rel c ea < c.romFontOff.toNat ∨ c.romFontOff.toNat + 128 * 8 ≤ rel c ea → region c ea = .rom →
        reads .unmapped []) ∧
      (∀ char row, 128 ≤ char → char ≤ 254 → row < 8 → rel c ea = c.ramFontOff.toNat + (char - 128) * 8 + row →
        region c ea = .ramFont → reads (k.font.answer (glyphKey char row)) [.fontGet char row]) ∧
      (rel c ea < c.ramFontOff.toNat ∨ c.ramFontOff.toNat + 127 * 8 ≤ rel c ea → region c ea = .ramFont →
        reads .unmapped []) ∧
      (region c ea = .video → reads (k.video.answer (rel c ea)) [.videoGet (rel c ea)]) ∧
      (region c ea = .data → reads (k.data.answer (rel c ea)) [.dataGet (rel c ea)]) ∧
      (region c ea = .low → reads (lowRead c k ea.toNat) (lowReadAsks c k ea.toNat)))

/-- R67, R76, R78, R80, R81, R83, R100: the single-byte write as its outputs: ROM and everything outside the glyph window
drop the byte; a glyph byte is set and its rebuild notified, in that order; video and data get one set. After a write to a
glyph byte the font store holds it: the address reads as the byte unless an override covers it, and every other address,
with every overridden one, reads as before. -/
def Obligations.SingleByteWrite : Prop :=
  ∀ (c : Config) (k : Collab) (ea : BitVec 20) (b : Byte),
    let after := (memWrite c ea b).foldl Collab.receive k
    (inGlyphWindow c ea → overrideAt c ea = none → memRead c after ea = .byte b) ∧
    (inGlyphWindow c ea → ∀ a, a ≠ ea ∨ overrideAt c a ≠ none → memRead c after a = memRead c k a) ∧
    (region c ea = .rom → memWrite c ea b = []) ∧
    (∀ char row, 128 ≤ char → char ≤ 254 → row < 8 → rel c ea = c.ramFontOff.toNat + (char - 128) * 8 + row →
      region c ea = .ramFont → memWrite c ea b = [.fontSet char row b, .rebuildGlyph char]) ∧
    (rel c ea < c.ramFontOff.toNat ∨ c.ramFontOff.toNat + 127 * 8 ≤ rel c ea → region c ea = .ramFont →
      memWrite c ea b = []) ∧
    (region c ea = .video → memWrite c ea b = [.videoSet (rel c ea) b]) ∧
    (region c ea = .data → memWrite c ea b = [.dataSet (rel c ea) b]) ∧
    (region c ea = .low → memWrite c ea b = lowWrite c ea.toNat b)

/-- R84, R85, R101, R100: with fields that do not overlap, an address inside a field is byte k of it; outside every field
it is unmapped and asks nothing; and only the modifier byte, the ring pointers and the ring take writes. That a read-only
field reads its value where R334 says -1 is log 31 (DEDUCED). -/
def Obligations.LowMemoryFields : Prop :=
  ∀ (c : Config) (k : Collab) (b : Byte), c.wf = true →
    (∀ (f : LowField) (j : Nat), j < f.width →
      lowRead c k (c.lowmem.of f + j) = lowByte c k f j ∧
      lowReadAsks c k (c.lowmem.of f + j) = lowByteAsks k f j ∧
      (f = .kbMods → lowWrite c (c.lowmem.of f + j) b = [.kbdSetModifiers b]) ∧
      (f = .kbHead → lowWrite c (c.lowmem.of f + j) b = [.kbdSetHeadByte j b]) ∧
      (f = .kbTail → lowWrite c (c.lowmem.of f + j) b = [.kbdSetTailByte j b]) ∧
      (f = .kbRing → lowWrite c (c.lowmem.of f + j) b = [.kbdSetSlotByte (j / 2) (j % 2) b]) ∧
      (f ≠ .kbMods → f ≠ .kbHead → f ≠ .kbTail → f ≠ .kbRing → lowWrite c (c.lowmem.of f + j) b = [])) ∧
    (∀ a, (∀ f : LowField, a < c.lowmem.of f ∨ c.lowmem.of f + f.width ≤ a) →
      lowRead c k a = .unmapped ∧ lowReadAsks c k a = [] ∧ lowWrite c a b = [])

/-- R64, R86, R90, R93, R94, R102: a two-byte field reads little-endian, and a value that does not fit its field breaks
the contract and is not truncated. R87, R89, R95, R96, R97: a one-byte field reads its collaborator's byte. R91: ring slot
s reads as its low byte, then its high byte; that one bad byte spoils both is log 27 (DEDUCED). R88, R98, R99: a packed
byte has each bit from its layout, a fixed bit or a bit of an argument, inverted or not (the form of the layouts is the
model's choice, log 3), and the palette byte is mapped only in CGA 4-colour mode. R92: an unknown mode reads 0xFF. -/
def Obligations.LowMemoryValues : Prop :=
  ∀ (c : Config) (k : Collab),
    let m := k.videoMeta
    let bit := fun (args : List Nat) (p : PackBit) =>
      match p with
      | .fixed b => b
      | .arg i j neg => (args.getD i 0).testBit j != neg
    let packed := fun (f : LowField) (layout : List PackBit) (args : List Nat) =>
      ∃ b : Byte, lowByte c k f 0 = .byte b ∧ ∀ j < 8, ∀ p, layout[j]? = some p → b.getLsbD j = bit args p
    (∀ (f : LowField) (x : Int),
      (f = .monitorType ∧ x = m.monitorType) ∨ (f = .kbMods ∧ x = k.keyboard.mods) ∨
        (f = .cursorCol ∧ x = m.cursorCol) ∨ (f = .cursorRow ∧ x = m.cursorRow) ∨ (f = .cursorStart ∧ x = m.cursorStart) ∨
        (f = .cursorEnd ∧ x = m.cursorEnd) ∨ (f = .visiblePage ∧ x = m.visiblePage) →
      (0 ≤ x → x < 256 → ∃ b : Byte, lowByte c k f 0 = .byte b ∧ (b.toNat : Int) = x) ∧
      (x < 0 ∨ 256 ≤ x → lowByte c k f 0 = .outOfContract)) ∧
    (∀ (slot : Nat) (lo hi : Int), k.keyboard.slots[slot]? = some (lo, hi) →
      (0 ≤ lo → lo < 256 → 0 ≤ hi → hi < 256 → ∃ b b' : Byte,
        lowByte c k .kbRing (2 * slot) = .byte b ∧ lowByte c k .kbRing (2 * slot + 1) = .byte b' ∧
        (b.toNat : Int) = lo ∧ (b'.toNat : Int) = hi) ∧
      (lo < 0 ∨ 256 ≤ lo ∨ hi < 0 ∨ 256 ≤ hi →
        lowByte c k .kbRing (2 * slot) = .outOfContract ∧ lowByte c k .kbRing (2 * slot + 1) = .outOfContract)) ∧
    packed .devices c.packDevices [k.devices.serial, k.devices.game.toNat, k.devices.printers] ∧
    packed .modeInfo c.packMode [m.wide.toNat, m.isGraphics.toNat, m.colorswitch.toNat, m.blink.toNat] ∧
    (k.videoMeta.cga4 = true → packed .cgaPalette c.packPalette [m.paletteId, m.background]) ∧
    (∀ (f : LowField) (x : Int),
      (f = .ramFontPtr ∧ x = c.ramFontOff.toNat) ∨ (f = .ramFontSegw ∧ x = 0xC000) ∨
        (f = .kbHead ∧ x = k.keyboard.head) ∨ (f = .kbTail ∧ x = k.keyboard.tail) ∨
        (f = .screenWidth ∧ x = k.videoMeta.width) ∨ (f = .pageSize ∧ x = k.videoMeta.pageSize) →
      (0 ≤ x → x < 65536 → ∃ lo hi : Byte,
        lowByte c k f 0 = .byte lo ∧ lowByte c k f 1 = .byte hi ∧ x = lo.toNat + 256 * hi.toNat) ∧
      (x < 0 ∨ 65536 ≤ x → ∀ j, lowByte c k f j = .outOfContract)) ∧
    (k.videoMeta.cga4 = false → lowByte c k .cgaPalette 0 = .unmapped) ∧
    ((∀ p ∈ c.modeNumber, p.1 ≠ k.videoMeta.modeName) → lowByte c k .screenMode 0 = .byte 0xFF) ∧
    (∀ n b, c.modeNumber.lookup n = some b → k.videoMeta.modeName = n → lowByte c k .screenMode 0 = .byte b)

/-! ### Address commands -/

/-- R162, R160: PEEK answers the byte at the effective address, an unmapped one as 0; it raises IFC where the program is
protected and not running, and refuses an answer that breaks the contract (R102). It asks for the two flags (R24), then
what the read asks; the order of the two flags is log 28. -/
def Obligations.PeekOutcome : Prop :=
  ∀ (s : State) (off : BitVec 17), s.free → offsetRange off.toInt →
    let ea := effAddr s.seg off.toInt 0
    let t := s.consulted ([.dataProtected, .dataRunning] ++ memAsks s.cfg s.coll ea)
    (s.locked → exec (.peek off) s = .next ((s.consulted [.dataProtected, .dataRunning]).failed .ifc)) ∧
    (s.accessible →
      (∀ x, (memRead s.cfg s.coll ea).sentinel = some x →
        exec (.peek off) s = .next (t.completed (.byte (BitVec.ofInt 8 (max 0 x))))) ∧
      ((memRead s.cfg s.coll ea).sentinel = none → exec (.peek off) s = .next t.turnedAway))

/-- R163, R302: POKE checks protection first, then the value's range in every region, then writes one byte through the
router. The order of the two flags asked is log 28; that only a glyph byte changes a collaborator's answers is log 10. -/
def Obligations.PokeOutcome : Prop :=
  ∀ (s : State) (off val : BitVec 17), s.free → offsetRange off.toInt →
    let t := s.consulted [.dataProtected, .dataRunning]
    (s.locked → exec (.poke off val) s = .next (t.failed .ifc)) ∧
    (s.accessible → val.toInt < 0 ∨ 255 < val.toInt → exec (.poke off val) s = .next (t.failed .range)) ∧
    (s.accessible → 0 ≤ val.toInt → val.toInt ≤ 255 →
      ∃ b : Byte, (b.toNat : Int) = val.toInt ∧
        exec (.poke off val) s = .next
          ((t.delivered (memWrite s.cfg (effAddr s.seg off.toInt 0) b)).completed .nothing))

/-- R164, R82, R102, R342: READ_BLOCK answers n bytes and changes nothing else: a video byte is its byte of the one bulk
answer, or the override where that option holds; any other byte is the single-byte read, unmapped as 0. It asks in
ascending address order, the one bulk call at the first video byte. The first bad answer refuses the command and, by the
model's record (log 28), ends the asking. No protection check. -/
def Obligations.ReadBlockReturnsEachByte : Prop :=
  ∀ (s : State) (off n : BitVec 17), s.free → offsetRange off.toInt → lengthRange n.toInt →
    let ea := effAddr s.seg off.toInt
    let vid := videoIndices s.cfg s.seg off.toInt n.toNat
    let i0 := vid.headD 0
    let vb := videoRange s.coll (rel s.cfg (ea i0)) vid.length
    let askAt := fun i =>
      if isVideo s.cfg (ea i) = false then memAsks s.cfg s.coll (ea i)
      else if i = i0 then [Ask.videoGetRange (rel s.cfg (ea i0)) vid.length] else []
    let goodBulk := vb.length = vid.length ∧ ∀ x ∈ vb, 0 ≤ x ∧ x < 256
    let bad := fun i =>
      (isVideo s.cfg (ea i) = false ∧ memRead s.cfg s.coll (ea i) = .outOfContract) ∨
      (isVideo s.cfg (ea i) = true ∧ ¬goodBulk)
    ((∀ i < n.toNat, ¬bad i) →
      ∃ bs : List Byte, bs.length = n.toNat ∧
        exec (.readBlock off n) s =
          .next ((s.consulted ((List.range n.toNat).flatMap askAt)).completed (.bytes bs)) ∧
        ∀ i < n.toNat,
          (isVideo s.cfg (ea i) = false → ∀ x, (memRead s.cfg s.coll (ea i)).sentinel = some x →
            ((bs.getD i 0).toNat : Int) = max 0 x) ∧
          (isVideo s.cfg (ea i) = true →
            (∀ b, s.cfg.ovrVideoBulk = true → overrideAt s.cfg (ea i) = some b → bs.getD i 0 = b) ∧
            (s.cfg.ovrVideoBulk = false ∨ overrideAt s.cfg (ea i) = none →
              ((bs.getD i 0).toNat : Int) = vb.getD (i - i0) 0))) ∧
    (∀ j < n.toNat, bad j → (∀ i < j, ¬bad i) →
      exec (.readBlock off n) s = .next (s.consulted ((List.range (j + 1)).flatMap askAt)).turnedAway)

/-- R165, R82, R342, R67: WRITE_BLOCK completes; its outputs are the single-byte writes in ascending order, with the whole
video run as one bulk call at the place of its first byte. Each glyph byte of the RAM-font window that no override covers
then reads as its byte of the data; that no other write changes a collaborator's answers is log 10. No protection check. -/
def Obligations.WriteBlockOutcome : Prop :=
  ∀ (s : State) (off n : BitVec 17) (data : List Byte), s.given [.bytes data] → offsetRange off.toInt →
    lengthRange n.toInt → data.length = n.toNat →
    let ea := effAddr s.seg off.toInt
    let one := fun i => memWrite s.cfg (ea i) (data.getD i 0)
    ∃ out, exec (.writeBlock off n) s = .next ((s.delivered out).completed .nothing) ∧
      (∀ i < n.toNat, inGlyphWindow s.cfg (ea i) → overrideAt s.cfg (ea i) = none →
        memRead s.cfg (s.delivered out).coll (ea i) = .byte (data.getD i 0)) ∧
      ((∀ i < n.toNat, isVideo s.cfg (ea i) = false) → out = (List.range n.toNat).flatMap one) ∧
      (∀ i0 i1, i0 < i1 → i1 ≤ n.toNat → (∀ i < n.toNat, isVideo s.cfg (ea i) = true ↔ i0 ≤ i ∧ i < i1) →
        out = (List.range i0).flatMap one ++ [.videoSetRange (rel s.cfg (ea i0)) ((data.drop i0).take (i1 - i0))] ++
          (List.range' i1 (n.toNat - i1)).flatMap one)

/-- R166: SET_SEGMENT stores DATA_SEG, or the value with 65536 added where it is negative, and nothing else. -/
def Obligations.SetSegmentOutcome : Prop :=
  ∀ s : State, s.free →
    exec (.setSegment true 0) s = .next ({ s with seg := s.cfg.dataSeg }.completed .nothing) ∧
    ∀ value : BitVec 17, offsetRange value.toInt →
      ∃ x : BitVec 16, (x.toNat : Int) = (if value.toInt < 0 then value.toInt + 65536 else value.toInt) ∧
        exec (.setSegment false value) s = .next ({ s with seg := x }.completed .nothing)

/-- R167: trimming drops one end-of-file marker if the payload ends with it, then on Tandy seven bytes, or all if there
are fewer. -/
def Obligations.TrimOutcome : Prop :=
  ∀ (c : Config) (p : List Byte),
    (∀ q, p = q ++ [c.eofMark] → c.tandy = false → trim c p = q) ∧
    ((∀ q, p ≠ q ++ [c.eofMark]) → c.tandy = false → trim c p = p) ∧
    (∀ q tail, p = q ++ tail ++ [c.eofMark] → tail.length = 7 → c.tandy = true → trim c p = q) ∧
    (∀ q tail, p = q ++ tail → (∀ r, p ≠ r ++ [c.eofMark]) → tail.length = 7 → c.tandy = true → trim c p = q) ∧
    (p.length ≤ 7 → c.tandy = true → trim c p = [])

/-- R168, R160: BLOAD writes the trimmed payload at the given offset, or the file's with NONE = 1, in the current SEG;
protected it raises IFC; trimmed bytes beyond 65535 are refused. The order of the two flags asked is log 28; that only a
glyph byte changes a collaborator's answers is log 10. -/
def Obligations.BloadOutcome : Prop :=
  ∀ (s : State) (isNone : Bool) (off : BitVec 17) (fileOff : BitVec 16) (payload : List Byte),
    s.given [.file fileOff payload] → (if isNone then off = 0 else offsetRange off.toInt) →
    let o : Int := if isNone then fileOff.toNat else off.toInt
    let t := s.consulted [.dataProtected, .dataRunning]
    (s.locked → exec (.bload isNone off) s = .next (t.failed .ifc)) ∧
    (s.accessible → 65535 < (trim s.cfg payload).length → exec (.bload isNone off) s = .next t.turnedAway) ∧
    (s.accessible → (trim s.cfg payload).length ≤ 65535 →
      exec (.bload isNone off) s =
        .next ((t.delivered (writeBlock s.cfg s.seg o (trim s.cfg payload))).completed .nothing))

/-- R170, R169, R160: BSAVE answers the block's bytes with SEG, the normalised offset and the length, on Tandy with the
seven-byte trailer in little-endian order. The order of the two flags asked is log 28. -/
def Obligations.BsaveOutcome : Prop :=
  ∀ (s : State) (off n : BitVec 17), s.free → offsetRange off.toInt → lengthRange n.toInt →
    let asked := s.consulted [.dataProtected, .dataRunning]
    let t := asked.consulted (readBlockAsks s.cfg s.coll s.seg off.toInt n.toNat)
    (s.locked → exec (.bsave off n) s = .next (asked.failed .ifc)) ∧
    (s.accessible → readBlock s.cfg s.coll s.seg off.toInt n.toNat = none →
      exec (.bsave off n) s = .next t.turnedAway) ∧
    (s.accessible → ∀ p, readBlock s.cfg s.coll s.seg off.toInt n.toNat = some p →
      ∃ (o : BitVec 16) (b1 b2 b3 b4 b5 b6 : Byte),
        (o.toNat : Int) = (if off.toInt < 0 then off.toInt + 65536 else off.toInt) ∧
        s.seg.toNat = b1.toNat + 256 * b2.toNat ∧ o.toNat = b3.toNat + 256 * b4.toNat ∧
        n.toNat = b5.toNat + 256 * b6.toNat ∧
        exec (.bsave off n) s = .next (t.completed (.fileOut s.seg o n.toNat
          (if s.cfg.tandy then p ++ [s.cfg.tandyMagic, b1, b2, b3, b4, b5, b6] else p))))

/-- R171: writing a block back right after reading it, with no override in the span, gives outputs that each store what
the collaborator answers already. -/
def Obligations.WriteBackChangesNothing : Prop :=
  ∀ (s : State) (off : Int) (n : Nat) (bs : List Byte), s.cfg.wf = true → offsetRange off → n ≤ 65535 →
    (∀ i < n, overrideAt s.cfg (effAddr s.seg off i) = none) →
    readBlock s.cfg s.coll s.seg off n = some bs →
      ∀ e ∈ writeBlock s.cfg s.seg off bs, leavesAsIs s.cfg s.coll e

/-! ### Tone queues -/

/-- R35, R208, R209: QLEN answers max(0, raw - 1); IS_PLAYING answers whether that is positive or an item is in flight.
Neither changes anything else. -/
def Obligations.QueueReports : Prop :=
  ∀ (s : State) (v : Voice), s.free →
    (∃ q : Nat, (q : Int) = max 0 (((s.queue.get v).length : Int) - 1) ∧
      exec (.qlen v) s = .next (s.completed (.nat q))) ∧
    (∃ b : Bool, (b = true ↔ 2 ≤ (s.queue.get v).length ∨ s.busy.get v = true) ∧
      exec (.isPlaying v) s = .next (s.completed (.bool b)))

/-- R200, R201, R203: ENQUEUE of an admissible event appends it and completes, or holds with it while the queue is full;
an event that the voice does not admit, or whose fields are out of range, is refused. -/
def Obligations.EnqueueOutcome : Prop :=
  ∀ (s : State) (v : Voice) (e : Event), s.given [.event e] →
    (¬eventAllowed e v → exec (.enqueue v) s = .next s.turnedAway) ∧
    (eventAllowed e v → (∀ n, s.cfg.qdepth = some n → (s.queue.get v).length < n) →
      exec (.enqueue v) s = .next ((s.withEvent v e).completed .nothing)) ∧
    (eventAllowed e v → ∀ n, s.cfg.qdepth = some n → n ≤ (s.queue.get v).length →
      exec (.enqueue v) s = .next { s with out := some (.enqueue v e) })

/-- R204: PLAY_AND_WAIT appends, then completes if at most 16 events are queued and holds if more are; at capacity it
holds before the append. -/
def Obligations.PlayAndWaitOutcome : Prop :=
  ∀ (s : State) (v : Voice) (e : Event), s.given [.event e] → eventAllowed e v →
    ((∀ n, s.cfg.qdepth = some n → (s.queue.get v).length < n) →
      ((s.queue.get v).length ≤ 15 → exec (.playAndWait v) s = .next ((s.withEvent v e).completed .nothing)) ∧
      (16 ≤ (s.queue.get v).length →
        exec (.playAndWait v) s = .next { s.withEvent v e with out := some (.backPressure v) })) ∧
    (∀ n, s.cfg.qdepth = some n → n ≤ (s.queue.get v).length →
      exec (.playAndWait v) s = .next { s with out := some (.playAndWait v e) })

/-- R205, R206: WAIT_DEPTH completes where every selected voice has an adjusted length of at most the depth, WAIT_IDLE
where every selected voice has nothing queued and nothing in flight; else each holds. -/
def Obligations.WaitOutcomes : Prop :=
  ∀ (s : State) (mask : BitVec 4), s.free →
    (∀ depth : BitVec 17, lengthRange depth.toInt →
      ((∀ v : Voice, mask.getLsbD v.idx = true → (s.queue.get v).length ≤ depth.toNat + 1) →
        exec (.waitDepth mask depth) s = .next (s.completed .nothing)) ∧
      (∀ v : Voice, mask.getLsbD v.idx = true → depth.toNat + 1 < (s.queue.get v).length →
        exec (.waitDepth mask depth) s = .next { s with out := some (.waitDepth mask depth.toNat) })) ∧
    ((∀ v : Voice, mask.getLsbD v.idx = true → s.queue.get v = [] ∧ s.busy.get v = false) →
      exec (.waitIdle mask) s = .next (s.completed .nothing)) ∧
    (∀ v : Voice, mask.getLsbD v.idx = true → s.queue.get v ≠ [] ∨ s.busy.get v = true →
      exec (.waitIdle mask) s = .next { s with out := some (.waitIdle mask) })

/-- R207, R210, R331: STOP_ALL empties the four queues, sets STOP_REQ and tells the renderer, and nothing else: the noise
table, BUSY and CUR stay. SOUND_RESET does the same and sets the PlayStates, FG and the noise table to their reset values;
SEG, BUSY and CUR stay. -/
def Obligations.StopAndSoundReset : Prop :=
  ∀ s : State, s.free →
    let none4 : Quad (List Event) := { v0 := [], v1 := [], v2 := [], noise := [] }
    let stopped := { s with queue := none4, stopReq := true, events := s.events ++ [Emit.rendererStop] }
    let fresh : PlayState :=
      { oct := 4, eff := none, lenN := ⟨4, by decide⟩, tempoN := ⟨120, by decide⟩, speed := .normal, vol := 15 }
    exec .stopAll s = .next (stopped.completed .nothing) ∧
    exec .soundReset s = .next ({ stopped with
      ps := { v0 := fresh, v1 := fresh, v2 := fresh }, fg := true, noiseFreq := s.cfg.noiseInit }.completed .nothing)

/-- R202: a voice-2 event with nonzero frequency sets the linked noise entries to half of it and leaves the others; any
other event leaves the table. -/
def Obligations.NoiseLinkage : Prop :=
  ∀ (s : State) (v : Voice) (e : Event) (i : Nat), s.cfg.wf = true → s.noiseFreq.length = s.cfg.noiseSize →
    let t := (s.append v e).noiseFreq
    (v = .v2 → e.freq.coef ≠ 0 → i ∈ s.cfg.noiseLinked →
      t[i]? = some { e.freq with coef := e.freq.coef / 2 }) ∧
    (v = .v2 → e.freq.coef ≠ 0 → i ∉ s.cfg.noiseLinked → t[i]? = s.noiseFreq[i]?) ∧
    (v ≠ .v2 ∨ e.freq.coef = 0 → t = s.noiseFreq)

/-- R211, R212, R213, R332: what TAKE, DONE and STOP_ACK do when enabled. A step that is not enabled does not happen (the
model drops it, log 4); in particular no TAKE while STOP_REQ holds. -/
def Obligations.RendererSteps : Prop :=
  ∀ (s : State) (v : Voice),
    (∀ e q, s.stopReq = false → s.busy.get v = false → s.queue.get v = e :: q →
      rendererStep (.take v) s = { s with
        queue := s.queue.set v q, busy := s.busy.set v true, cur := s.cur.set v (some e) }) ∧
    (s.stopReq = true ∨ s.busy.get v = true ∨ s.queue.get v = [] → rendererStep (.take v) s = s) ∧
    (∀ e, s.busy.get v = true → s.cur.get v = some e → e.loop = false ∨ s.queue.get v ≠ [] →
      rendererStep (.done v) s = { s with busy := s.busy.set v false, cur := s.cur.set v none }) ∧
    (∀ e, s.cur.get v = some e → e.loop = true → s.queue.get v = [] → rendererStep (.done v) s = s) ∧
    (s.busy.get v = false → rendererStep (.done v) s = s) ∧
    (s.stopReq = true → rendererStep .stopAck s = { s with
      busy := { v0 := false, v1 := false, v2 := false, noise := false },
      cur := { v0 := none, v1 := none, v2 := none, noise := none }, stopReq := false }) ∧
    (s.stopReq = false → rendererStep .stopAck s = s)

/-- R215, R314: a held command changes nothing while it waits: only the renderer moves, a collaborator does not (log 21).
R216, R343: with nothing outstanding the renderer moves too, and here a collaborator's answers change: a byte of one of its
stores, whether a byte keeps the contract, or one of its other answers, and nothing else (the form of these inputs is
log 9). With no input nothing happens at all, held or not (log 17; R330). -/
def Obligations.HeldCommandWaits : Prop :=
  (∀ (s : State), s.out = none ∨ (∃ c, s.heldAt c) →
    (s.inbox = [] → step s = .next s) ∧
    (∀ r rest, s.inbox = .renderer r :: rest → step s = .next (rendererStep r { s with inbox := rest }))) ∧
  (∀ (s : State) (c : Cont) k rest, s.heldAt c → s.inbox = .collab k :: rest →
    step s = .next { s with inbox := rest }) ∧
  (∀ (s : State) k rest, s.out = none → s.inbox = .collab k :: rest →
    let becomes := fun (c : Collab) => step s = .next { s with inbox := rest, coll := c }
    let answers := fun (st st' : Store) (a : Nat) (x : Answer) =>
      st'.answer a = x ∧ ∀ a', a' ≠ a → st'.answer a' = st.answer a'
    (∀ a b, k = .fontByte a (some b) →
      ∃ st, answers s.coll.font st a (.byte b) ∧ becomes { s.coll with font := st }) ∧
    (∀ a, k = .fontByte a none → s.coll.font.cells.wf →
      ∃ st, answers s.coll.font st a .unmapped ∧ becomes { s.coll with font := st }) ∧
    (∀ a, k = .fontBad a → ∃ st, answers s.coll.font st a .outOfContract ∧ becomes { s.coll with font := st }) ∧
    (∀ a b, k = .videoByte a (some b) →
      ∃ st, answers s.coll.video st a (.byte b) ∧ becomes { s.coll with video := st }) ∧
    (∀ a, k = .videoByte a none → s.coll.video.cells.wf →
      ∃ st, answers s.coll.video st a .unmapped ∧ becomes { s.coll with video := st }) ∧
    (∀ a, k = .videoBad a → ∃ st, answers s.coll.video st a .outOfContract ∧ becomes { s.coll with video := st }) ∧
    (∀ a b, k = .dataByte a (some b) →
      ∃ st, answers s.coll.data st a (.byte b) ∧ becomes { s.coll with data := st }) ∧
    (∀ a, k = .dataByte a none → s.coll.data.cells.wf →
      ∃ st, answers s.coll.data st a .unmapped ∧ becomes { s.coll with data := st }) ∧
    (∀ a, k = .dataBad a → ∃ st, answers s.coll.data st a .outOfContract ∧ becomes { s.coll with data := st }) ∧
    (∀ x, k = .bulk x → becomes { s.coll with bulk := x }) ∧
    (∀ p r, k = .protection p r → becomes { s.coll with isProtected := p, running := r }) ∧
    (∀ m, k = .videoMeta m → becomes { s.coll with videoMeta := m }) ∧
    (∀ kb, k = .keyboard kb → becomes { s.coll with keyboard := kb }) ∧
    (∀ d, k = .devices d → becomes { s.coll with devices := d }) ∧
    (∀ t, k = .strings t → becomes { s.coll with strings := t }))

/-- R215: in the first state where its predicate holds a held command goes on, before any other agent moves: ENQUEUE and
PLAY_AND_WAIT append and complete or wait for depth, the waits complete, a PLAY held inside a unit appends that unit's
event, adds its duration to the voice's total and is back in its scan; that this is a step of its own, with the rest of
the PLAY in further steps, is log 7 (DEDUCED). -/
def Obligations.HeldCommandResumes : Prop :=
  ∀ s : State,
    (∀ v e, s.out = some (.enqueue v e) → s.room v = true → step s = .next ((s.withEvent v e).completed .nothing)) ∧
    (∀ v e, s.out = some (.playAndWait v e) → s.room v = true → (s.queue.get v).length ≤ 15 →
      step s = .next ((s.withEvent v e).completed .nothing)) ∧
    (∀ v e, s.out = some (.playAndWait v e) → s.room v = true → 16 ≤ (s.queue.get v).length →
      step s = .next { s.withEvent v e with out := some (.backPressure v) }) ∧
    (∀ v, s.out = some (.backPressure v) → (s.queue.get v).length ≤ 16 → step s = .next (s.completed .nothing)) ∧
    (∀ mask d, s.out = some (.waitDepth mask d) →
      (∀ v : Voice, mask.getLsbD v.idx = true → (s.queue.get v).length ≤ d + 1) →
        step s = .next (s.completed .nothing)) ∧
    (∀ mask, s.out = some (.waitIdle mask) →
      (∀ v : Voice, mask.getLsbD v.idx = true → s.queue.get v = [] ∧ s.busy.get v = false) →
        step s = .next (s.completed .nothing)) ∧
    (∀ v e sc, s.out = some (.playEmit v e) → s.scan = some sc → s.room v.queue = true →
      step s = .next { s.withEvent v.queue e with
        out := some .playScan
        scan := some { sc with acc := sc.acc.set v (sc.acc.get v + e.dur) } })

/-- R339: a WAIT_IDLE that selects a voice with a looping item in flight, an empty queue and no stop pending never ends,
nor does the foreground wait of a PLAY on such a tone voice: every step leaves it so. -/
def Obligations.LoopingItemDeadlocksWait : Prop :=
  ∀ (v : Voice) (c : Cont),
    (∃ mask : BitVec 4, mask.getLsbD v.idx = true ∧ c = .waitIdle mask) ∨ (v ≠ .noise ∧ c = .playForeground) →
    let stuck := fun (s : State) =>
      s.out = some c ∧ s.queue.get v = [] ∧ s.busy.get v = true ∧ s.stopReq = false ∧
      ∃ e, s.cur.get v = some e ∧ e.loop = true
    ∀ s t : State, stuck s → step s = .next t → stuck t

/-! ### PLAY -/

/-- R240, R241: PLAY with K strings copies them to voices 0 to K-1, with cursors and totals 0, these voices active, and
begins its scan; the PlayStates carry over. That a step ends here, with the PLAY outstanding in its scan, is log 7
(DEDUCED). -/
def Obligations.PlayBegins : Prop :=
  ∀ (s : State) (k : BitVec 2) (strings : List (List Byte)), s.given (strings.map .bytes) → k ≠ 0 →
    strings.length = k.toNat →
      exec (.play k) s = .next { s with
        out := some .playScan
        scan := some
          { k := k.toNat
            buf := { v0 := strings.getD 0 [], v1 := strings.getD 1 [], v2 := strings.getD 2 [] }
            pos := { v0 := 0, v1 := 0, v2 := 0 }
            active := { v0 := true, v1 := decide (2 ≤ k.toNat), v2 := decide (3 ≤ k.toNat) }
            acc := { v0 := 0, v1 := 0, v2 := 0 }
            turn := .v0 } }

/-- R267: after the scan each participating voice whose total lies below the maximum gets one silent event of the
difference, in ascending order; at capacity the padding holds. That each voice's padding is a step of its own is log 7
(DEDUCED). -/
def Obligations.PaddingEqualises : Prop :=
  ∀ (s : State) (sc : Scan) (v : ToneVoice) (m : Rat), s.out = some (.playPad v) → s.scan = some sc →
    (∀ w : ToneVoice, w.idx < sc.k → sc.acc.get w ≤ m) → (∃ w : ToneVoice, w.idx < sc.k ∧ sc.acc.get w = m) →
    let silence : Freq := { coef := 0, base := .semitone 0 }
    let e : Event :=
      { kind := .tone, freq := silence, dur := m - sc.acc.get v, fill := 1, loop := false, vol := 0 }
    let sc' := { sc with acc := sc.acc.set v m }
    (v.idx < sc.k → sc.acc.get v < m → s.room v.queue = true →
      step s = .next (afterPad v { s.withEvent v.queue e with scan := some sc' })) ∧
    (v.idx < sc.k → sc.acc.get v < m → s.room v.queue = false → s.heldAt (.playPad v)) ∧
    (sc.k ≤ v.idx ∨ sc.acc.get v = m → step s = .next (afterPad v s))

/-- R267: padding goes from voice 0 to 1 to 2, in steps of their own (log 7, DEDUCED). R240, R268: then PLAY completes in
background mode or where the three tone voices are idle, and else holds until they are. The noise queue is not waited
for. -/
def Obligations.PlayEnds : Prop :=
  ∀ s : State,
    let idle := ∀ v : ToneVoice, s.queue.get v.queue = [] ∧ s.busy.get v.queue = false
    afterPad .v0 s = { s with out := some (.playPad .v1) } ∧
    afterPad .v1 s = { s with out := some (.playPad .v2) } ∧
    (s.fg = false ∨ idle → afterPad .v2 s = s.completed .nothing) ∧
    (s.fg = true → ¬idle → afterPad .v2 s = { s with out := some .playForeground }) ∧
    (s.out = some .playForeground → idle → step s = .next (s.completed .nothing)) ∧
    (s.out = some .playForeground → ¬idle → s.heldAt .playForeground)

/-! ### MML units -/

/-- R257, R247, R245, R248: a named note, for all seven letters: IFC for a name not in the table or an explicit length 0;
else EFF is cleared and one tone is enqueued on the voice with the note's frequency, duration, articulation and volume,
and its duration is added to the voice's total; at capacity the PLAY holds with the event. -/
def Obligations.NoteOutcome : Prop :=
  ∀ (s : State) (sc : Scan) (l : Letter) (acc : Option Acc) (len : Option Nat) (dot : Bool), s.scanning sc →
    let p := s.ps.get sc.turn
    let t := { s with ps := s.ps.set sc.turn { p with eff := none } }
    (semi l acc = none ∨ len = some 0 → exec (letterInstr l acc len dot) s = .next (s.failed .ifc)) ∧
    (∀ (st : Fin 12) (ln : Nat), semi l acc = some st → 0 < ln → len = some ln ∨ (len = none ∧ ln = p.lenN.val) →
      let dur : Rat := (1 / (ln : Rat)) * (240 / (p.tempoN.val : Rat)) * (if dot then 3 / 2 else 1)
      let f := noteFreq s.cfg.noteAnchor (12 * (p.eff.getD p.oct).val + st.val)
      let e : Event :=
        { kind := .tone, freq := f, dur := dur, fill := p.speed.ratio, loop := false, vol := p.vol.val }
      let sc' := { sc with acc := sc.acc.set sc.turn (sc.acc.get sc.turn + dur) }
      (s.room sc.turn.queue = true →
        exec (letterInstr l acc len dot) s = .next { t.withEvent sc.turn.queue e with scan := some sc' }) ∧
      (s.room sc.turn.queue = false →
        exec (letterInstr l acc len dot) s = .next { t with out := some (.playEmit sc.turn e) }))

/-- R251, R258: N plays an absolute note of the default length: IFC without a number or above 84; 0 is a rest of volume 0.
P is a rest with the explicit or the default length and the current volume: IFC for length 0. At capacity the PLAY holds
with the event. -/
def Obligations.AbsoluteNoteAndRest : Prop :=
  ∀ (s : State) (sc : Scan) (dot : Bool), s.scanning sc →
    let p := s.ps.get sc.turn
    let t := { s with ps := s.ps.set sc.turn { p with eff := none } }
    let dur := fun ln : Nat => (1 / (ln : Rat)) * (240 / (p.tempoN.val : Rat)) * (if dot then 3 / 2 else 1)
    let emitted := fun (i : Instr) (f : Freq) (ln vol : Nat) =>
      let e : Event := { kind := .tone, freq := f, dur := dur ln, fill := p.speed.ratio, loop := false, vol := vol }
      let sc' := { sc with acc := sc.acc.set sc.turn (sc.acc.get sc.turn + dur ln) }
      (s.room sc.turn.queue = true → exec i s = .next { t.withEvent sc.turn.queue e with scan := some sc' }) ∧
      (s.room sc.turn.queue = false → exec i s = .next { t with out := some (.playEmit sc.turn e) })
    exec (.mmlN none dot) s = .next (s.failed .ifc) ∧
    (∀ n, 84 < n → exec (.mmlN (some n) dot) s = .next (s.failed .ifc)) ∧
    emitted (.mmlN (some 0) dot) Freq.zero p.lenN.val 0 ∧
    (∀ n, 1 ≤ n → n ≤ 84 → emitted (.mmlN (some n) dot) (noteFreq s.cfg.noteAnchor (n - 1)) p.lenN.val p.vol.val) ∧
    exec (.mmlP (some 0) dot) s = .next (s.failed .ifc) ∧
    (∀ ln, 0 < ln → emitted (.mmlP (some ln) dot) Freq.zero ln p.vol.val) ∧
    emitted (.mmlP none dot) Freq.zero p.lenN.val p.vol.val

/-- R244, R252, R253, R254, R265: L, T, O and V set their field of the scanned voice's PlayState, O and V clamped, and
raise IFC without a number, L and T also for 0, V also without the per-voice volume option. -/
def Obligations.ArgumentUnits : Prop :=
  ∀ (s : State) (sc : Scan), s.scanning sc →
    let p := s.ps.get sc.turn
    (∀ (n : Nat) (h : 0 < n),
      exec (.mmlL (some n)) s = .next { s with ps := s.ps.set sc.turn { p with lenN := ⟨n, h⟩ } } ∧
      exec (.mmlT (some n)) s = .next { s with ps := s.ps.set sc.turn { p with tempoN := ⟨n, h⟩ } }) ∧
    (∀ n : Nat, ∃ o : Fin 7, o.val = min n 6 ∧
      exec (.mmlO (some n)) s = .next { s with ps := s.ps.set sc.turn { p with oct := o, eff := none } }) ∧
    (s.cfg.perVoiceVolume = true → ∀ n : Nat, ∃ x : Fin 16, x.val = min n 15 ∧
      exec (.mmlV (some n)) s = .next { s with ps := s.ps.set sc.turn { p with vol := x } }) ∧
    (s.cfg.perVoiceVolume = false → ∀ n, exec (.mmlV n) s = .next (s.failed .ifc)) ∧
    (∀ i, i = .mmlL none ∨ i = .mmlT none ∨ i = .mmlO none ∨ i = .mmlV none ∨ i = .mmlL (some 0) ∨
      i = .mmlT (some 0) → exec i s = .next (s.failed .ifc))

/-- R249, R255, R256, R259 to R263: `;` does nothing; > and < set the pending octave one above or below the octave the next
note would sound in, clamped to [0, 6], and OCT stays; MN, ML and MS set the scanned voice's articulation, whose ratios
are 7/8, 1 and 3/4; MF and MB set the block's FG. -/
def Obligations.ModifierUnits : Prop :=
  ∀ (s : State) (sc : Scan), s.scanning sc →
    let p := s.ps.get sc.turn
    let withPs := fun q : PlayState => { s with ps := s.ps.set sc.turn q }
    exec .mmlNop s = .next s ∧
    (∃ o : Fin 7, o.val = min ((p.eff.getD p.oct).val + 1) 6 ∧
      exec .mmlUp s = .next (withPs { p with eff := some o })) ∧
    (∃ o : Fin 7, (o.val : Int) = max (((p.eff.getD p.oct).val : Int) - 1) 0 ∧
      exec .mmlDown s = .next (withPs { p with eff := some o })) ∧
    (∃ r, r.ratio = 7 / 8 ∧ exec .mmlMN s = .next (withPs { p with speed := r })) ∧
    (∃ r, r.ratio = 1 ∧ exec .mmlML s = .next (withPs { p with speed := r })) ∧
    (∃ r, r.ratio = 3 / 4 ∧ exec .mmlMS s = .next (withPs { p with speed := r })) ∧
    exec .mmlMF s = .next { s with fg := true } ∧ exec .mmlMB s = .next { s with fg := false }

/-- R250, R40, R133: X with an empty reference raises IFC and asks nothing; else the resolver is asked, now; an unresolvable
reference raises IFC, and a resolved text is spliced in at the cursor, so the voice scans it before the rest of its
buffer. -/
def Obligations.SpliceOutcome : Prop :=
  ∀ (s : State) (sc : Scan) (ref : List Byte) (term : Bool), s.scanning sc →
    sc.pos.get sc.turn ≤ (sc.buf.get sc.turn).length →
    let b := sc.buf.get sc.turn
    let p := sc.pos.get sc.turn
    let t := s.consulted [.strResolve ref]
    (ref = [] → exec (.mmlX ref term) s = .next (s.failed .ifc)) ∧
    (ref ≠ [] → s.coll.strings.lookup ref = none → exec (.mmlX ref term) s = .next (t.failed .ifc)) ∧
    (∀ r, ref ≠ [] → s.coll.strings.lookup ref = some r →
      let sc' := { sc with buf := sc.buf.set sc.turn (b.take p ++ r ++ b.drop p) }
      (sc'.buf.get sc.turn).drop (sc'.pos.get sc.turn) = r ++ b.drop p ∧
      exec (.mmlX ref term) s = .next { t with scan := some sc' })

/-- R264, R266, R269, R307: M with any other suffix and any other first byte raise IFC: the PLAY ends, with the events and
PlayStates written before kept. -/
def Obligations.BadUnitsRaise : Prop :=
  ∀ (s : State) (sc : Scan), s.scanning sc →
    (∀ suffix, exec (.mmlMOther suffix) s = .next (s.failed .ifc)) ∧
    (∀ b, exec (.mmlOther b) s = .next (s.failed .ifc))

/-- R246, R247: entry t of the note table is 440 * 2^((t - NOTE_ANCHOR)/12) Hz, as a real number; and the 17 note names
have the table's semitones, the other four none. -/
def Obligations.NoteTableExact : Prop :=
  (∀ (anchor : Int) (t : Nat), ∃ k : Fin 12, (noteFreq anchor t).base = .semitone k ∧
    (((noteFreq anchor t).coef : Rat) : Real) * (2 : Real) ^ ((k.val : Real) / 12) =
      440 * (2 : Real) ^ (((t : Real) - (anchor : Real)) / 12)) ∧
  (∀ l acc, semi l acc = none ↔
    (l, acc) ∈ [(Letter.C, some Acc.flat), (.E, some .sharp), (.F, some .flat), (.B, some .sharp)]) ∧
  [semi .C none, semi .D none, semi .E none, semi .F none, semi .G none, semi .A none, semi .B none] =
    [some 0, some 2, some 4, some 5, some 7, some 9, some 11] ∧
  (∀ l st st', semi l none = some st → semi l (some .sharp) = some st' → st'.val = st.val + 1) ∧
  (∀ l st st', semi l none = some st → semi l (some .flat) = some st' → st'.val + 1 = st.val)
end

