-- ==== Sys2Proof/Laws/Decode.lean ====
section
/-!
SUPPORT. The fields of an encoded command word, and reading back the parts of an encoded MML unit.
-/

namespace Sys2Proof

@[simp] theorem fieldOp_hostWord (op : BitVec 5) (f : BitVec 4) (a b : BitVec 17) :
    fieldOp (hostWord op f a b) = op := by
  apply BitVec.eq_of_getLsbD_eq
  intro i hi
  simp [fieldOp, hostWord, hi, show i < 64 by omega, show i < 9 by omega, show i < 26 by omega]

@[simp] theorem fieldF_hostWord (op : BitVec 5) (f : BitVec 4) (a b : BitVec 17) :
    fieldF (hostWord op f a b) = f := by
  apply BitVec.eq_of_getLsbD_eq
  intro i hi
  simp [fieldF, hostWord, hi, show 5 + i < 64 by omega, show 5 + i < 9 by omega, show 5 + i < 26 by omega]

@[simp] theorem fieldA_hostWord (op : BitVec 5) (f : BitVec 4) (a b : BitVec 17) :
    fieldA (hostWord op f a b) = a := by
  apply BitVec.eq_of_getLsbD_eq
  intro i hi
  simp [fieldA, hostWord, hi, show 9 + i < 64 by omega, show 9 + i < 26 by omega,
    BitVec.getLsbD_of_ge op (9 + i) (by omega), BitVec.getLsbD_of_ge f (9 + i - 5) (by omega)]

@[simp] theorem fieldB_hostWord (op : BitVec 5) (f : BitVec 4) (a b : BitVec 17) :
    fieldB (hostWord op f a b) = b := by
  apply BitVec.eq_of_getLsbD_eq
  intro i hi
  simp [fieldB, hostWord, hi, show 26 + i < 64 by omega, BitVec.getLsbD_of_ge op (26 + i) (by omega),
    BitVec.getLsbD_of_ge f (26 + i - 5) (by omega), BitVec.getLsbD_of_ge a (26 + i - 9) (by omega)]

@[simp] theorem fieldZ_hostWord (op : BitVec 5) (f : BitVec 4) (a b : BitVec 17) :
    fieldZ (hostWord op f a b) = 0 := by
  apply BitVec.eq_of_getLsbD_eq
  intro i hi
  simp [fieldZ, hostWord, hi, show 43 + i < 64 by omega, BitVec.getLsbD_of_ge op (43 + i) (by omega),
    BitVec.getLsbD_of_ge f (43 + i - 5) (by omega), BitVec.getLsbD_of_ge a (43 + i - 9) (by omega),
    BitVec.getLsbD_of_ge b (43 + i - 26) (by omega)]

@[simp] theorem fieldOp_reservedWord (op : BitVec 5) (rest : BitVec 59) :
    fieldOp (reservedWord op rest) = op := by
  apply BitVec.eq_of_getLsbD_eq
  intro i hi
  simp [fieldOp, reservedWord, hi, show i < 64 by omega]

@[simp] theorem voiceOf_voiceBits (v : Voice) : voiceOf (voiceBits v) = v := by cases v <;> rfl

theorem checked_ok {z f a b i j} (h : checked z f a b i = .ok j) : z = 0 ∧ f = 0 ∧ a = 0 ∧ b = 0 ∧ i = j := by
  unfold checked at h
  split at h
  · cases h
  · split at h
    · cases h
    · split at h
      · cases h
      · split at h
        · cases h
        · simp_all

theorem checked_err {z f a b i} (h : z ≠ 0 ∨ f ≠ 0 ∨ a ≠ 0 ∨ b ≠ 0) : ∃ e, checked z f a b i = .error e := by
  unfold checked
  split
  · exact ⟨_, rfl⟩
  · split
    · exact ⟨_, rfl⟩
    · split
      · exact ⟨_, rfl⟩
      · split
        · exact ⟨_, rfl⟩
        · simp_all

theorem checked_or (z f a b i) : (∃ e, checked z f a b i = .error e) ∨ checked z f a b i = .ok i := by
  by_cases h : z ≠ 0 ∨ f ≠ 0 ∨ a ≠ 0 ∨ b ≠ 0
  · exact .inl (checked_err h)
  · simp only [not_or, ne_eq, not_not] at h
    exact .inr (by simp [checked, h])

theorem toNat_lt_two_iff (f : BitVec 4) : f.toNat < 2 ↔ f &&& 0xE = 0 := by revert f; decide

theorem toNat_lt_four_iff (f : BitVec 4) : f.toNat < 4 ↔ f &&& 0xC = 0 := by revert f; decide

theorem flagF_of_and (f : BitVec 4) : f &&& 0xE = 0 → f = noneBits (f.getLsbD 0) := by revert f; decide

theorem lowF_of_and (f : BitVec 4) : f &&& 0xC = 0 → f = lowF (f.extractLsb' 0 2) := by revert f; decide

theorem voiceBits_voiceOf (b : BitVec 2) : voiceBits (voiceOf b) = b := by revert b; decide

theorem noneBits_and (n : Bool) : noneBits n &&& 0xE = 0 := by revert n; decide

theorem noneBits_getLsbD (n : Bool) : (noneBits n).getLsbD 0 = n := by revert n; decide

theorem lowF_and (x : BitVec 2) : lowF x &&& 0xC = 0 := by revert x; decide

theorem lowF_extract (x : BitVec 2) : (lowF x).extractLsb' 0 2 = x := by revert x; decide

theorem reservedWord_rest (op : BitVec 5) (rest : BitVec 59) : (reservedWord op rest).extractLsb' 5 59 = rest := by
  apply BitVec.eq_of_getLsbD_eq
  intro i hi
  simp [reservedWord, hi, show 5 + i < 64 by omega]

/-- A word with Z = 0 is the word of its fields. -/
theorem hostWord_fields (w : Word) (h : fieldZ w = 0) : hostWord (fieldOp w) (fieldF w) (fieldA w) (fieldB w) =
    w := by
  apply BitVec.eq_of_getLsbD_eq
  intro i hi
  simp only [hostWord, fieldOp, fieldF, fieldA, fieldB, BitVec.getLsbD_or, BitVec.getLsbD_shiftLeft,
      BitVec.getLsbD_setWidth, BitVec.getLsbD_extractLsb']
  by_cases h1 : i < 5
  · simp [h1, hi, show i < 9 by omega, show i < 26 by omega]
  by_cases h2 : i < 9
  · simp [h1, h2, hi, show i < 26 by omega, show i - 5 < 4 by omega, show i - 5 < 64 by omega, show 5 + (i-5) =
        i by omega]
  by_cases h3 : i < 26
  · simp [h1, h2, h3, hi, show ¬ i - 5 < 4 by omega, show i - 9 < 17 by omega, show i - 9 < 64 by omega,
        show 9 + (i-9) = i by omega]
  by_cases h4 : i < 43
  · simp [h1, h2, h3, h4, hi, show ¬ i - 5 < 4 by omega, show ¬ i - 9 < 17 by omega, show i - 26 < 17 by omega,
        show i - 26 < 64 by omega, show 26 + (i-26) = i by omega]
  · have := congrArg (fun z => z.getLsbD (i - 43)) h
    simp [fieldZ, BitVec.getLsbD_extractLsb', show i - 43 < 21 by omega, show 43 + (i - 43) = i by omega] at this
    simp [h1, h2, h3, h4, hi, show ¬ i - 5 < 4 by omega, show ¬ i - 9 < 17 by omega,
        show ¬ i - 26 < 17 by omega]; rw [← BitVec.getLsbD_eq_getElem]; exact this

/-- A word is the reserved word of its opcode and rest. -/
theorem reservedWord_fields (w : Word) : reservedWord (fieldOp w) (w.extractLsb' 5 59) = w := by
  apply BitVec.eq_of_getLsbD_eq
  intro i hi
  simp only [reservedWord, fieldOp, BitVec.getLsbD_or, BitVec.getLsbD_shiftLeft, BitVec.getLsbD_setWidth,
      BitVec.getLsbD_extractLsb']
  by_cases h1 : i < 5
  · simp [h1, hi]
  · simp [h1, hi, show i - 5 < 59 by omega, show i - 5 < 64 by omega, show 5 + (i-5) = i by omega]

/-- Words with equal fields are equal. -/
theorem word_ext (w v : Word) : w = v ↔ fieldOp w = fieldOp v ∧ fieldF w = fieldF v ∧ fieldA w = fieldA v ∧
    fieldB w = fieldB v ∧ fieldZ w = fieldZ v := by
  refine ⟨fun h => by simp [h], fun ⟨h1, h2, h3, h4, h5⟩ => ?_⟩
  apply BitVec.eq_of_getLsbD_eq
  intro i hi
  have e1 := congrArg (fun z => z.getLsbD i) h1
  have e2 := congrArg (fun z => z.getLsbD (i - 5)) h2
  have e3 := congrArg (fun z => z.getLsbD (i - 9)) h3
  have e4 := congrArg (fun z => z.getLsbD (i - 26)) h4
  have e5 := congrArg (fun z => z.getLsbD (i - 43)) h5
  simp only [fieldOp, fieldF, fieldA, fieldB, fieldZ, BitVec.getLsbD_extractLsb'] at e1 e2 e3 e4 e5
  by_cases c1 : i < 5
  · simpa [c1] using e1
  by_cases c2 : i < 9
  · simpa [show i - 5 < 4 by omega, show 5 + (i-5) = i by omega] using e2
  by_cases c3 : i < 26
  · simpa [show i - 9 < 17 by omega, show 9 + (i-9) = i by omega] using e3
  by_cases c4 : i < 43
  · simpa [show i - 26 < 17 by omega, show 26 + (i-26) = i by omega] using e4
  · simpa [show i - 43 < 21 by omega, show 43 + (i-43) = i by omega] using e5

theorem toNat_digit (d : Nat) (hd : d < 10) : (BitVec.ofNat 8 (0x30 + d)).toNat = 0x30 + d := by
  simp; omega

/-- The decimal digits of a number are digits, at least one, with its value. -/
theorem decimalAux_spec (fuel n : Nat) (acc : List Byte) (h : n < fuel) :
    ∃ d ds, decimalAux fuel n acc = d :: ds ++ acc ∧ (d :: ds).all isDigit = true ∧ digitsValue (d :: ds) = n := by
  induction fuel generalizing n acc with
  | zero => omega
  | succ fuel ih =>
    have hb := toNat_digit (n % 10) (by omega)
    have hdig : isDigit (BitVec.ofNat 8 (0x30 + n % 10)) = true := by
      simp only [isDigit, hb]; simp; omega
    by_cases hn : n < 10
    · refine ⟨BitVec.ofNat 8 (0x30 + n % 10), [], ?_, ?_, ?_⟩
      · simp [decimalAux, hn]
      · simp only [List.all_cons, List.all_nil, hdig, Bool.and_self]
      · simp only [digitsValue, List.foldl_cons, List.foldl_nil, hb]; omega
    · obtain ⟨d, ds, h1, h2, h3⟩ := ih (n / 10) (BitVec.ofNat 8 (0x30 + n % 10) :: acc) (by omega)
      refine ⟨d, ds ++ [BitVec.ofNat 8 (0x30 + n % 10)], ?_, ?_, ?_⟩
      · simp only [decimalAux, hn, if_false, h1]; simp
      · rw [← List.cons_append, List.all_append, h2]; simp only [List.all_cons, List.all_nil, hdig, Bool.and_self]
      · rw [← List.cons_append]
        simp only [digitsValue, List.foldl_append, List.foldl_cons, List.foldl_nil, hb] at h3 ⊢
        rw [h3]; omega

/-- The text does not begin with a digit. -/
def noDigit (r : List Byte) : Prop := ∀ b, r.head? = some b → isDigit b = false

theorem readNum_none {r : List Byte} (h : noDigit r) : readNum r = (none, r) := by
  cases r with
  | nil => rfl
  | cons b r => simp [readNum, h b rfl]

theorem readNum_decimal (n : Nat) {r : List Byte} (h : noDigit r) : readNum (decimal n ++ r) = (some n, r) := by
  obtain ⟨d, ds, h1, h2, h3⟩ := decimalAux_spec (n + 1) n [] (by omega)
  have hd : decimal n = d :: ds := by rw [decimal, h1]; simp
  have h2' : ∀ b ∈ d :: ds, isDigit b = true := List.all_eq_true.1 h2
  have ht : (d :: ds ++ r).takeWhile isDigit = d :: ds := by
    rw [List.takeWhile_append_of_pos h2']
    cases r with
    | nil => simp
    | cons b r => simp [h b rfl]
  have hdr : (d :: ds ++ r).dropWhile isDigit = r := by
    rw [List.dropWhile_append_of_pos h2']
    cases r with
    | nil => simp
    | cons b r => simp [h b rfl]
  unfold readNum
  rw [hd, ht, hdr]
  simp [h3]

/-- Reading back a number operand. -/
theorem readNum_bytes (n : Option Nat) {r : List Byte} (h : noDigit r) : readNum (numBytes n ++ r) = (n, r) := by
  cases n with
  | none => exact readNum_none h
  | some n => exact readNum_decimal n h

/-- The text does not begin with a dot. -/
def noDot (r : List Byte) : Prop := r.head? ≠ some 0x2E

theorem readDot_bytes (dot : Bool) {r : List Byte} (h : dot = false → noDot r) : readDot (dotBytes dot ++ r) =
    (dot, r) := by
  cases dot with
  | true => rfl
  | false =>
    have := h rfl
    cases r with
    | nil => rfl
    | cons b r => simp [noDot] at this; simp [dotBytes, readDot, this]

theorem noDigit_dot (dot : Bool) {r : List Byte} (h : noDigit r) : noDigit (dotBytes dot ++ r) := by
  cases dot with
  | true => intro b hb; simp [dotBytes] at hb; subst hb; decide
  | false => exact h

/-- Reading back a rest. -/
theorem readPause_bytes (mk : Option Nat → Bool → Instr) (n : Option Nat) (dot : Bool) {r : List Byte} (h :
    noDigit r) (h2 : noDot r) :
    readPause mk (numBytes n ++ dotBytes dot ++ r) = (mk n dot, r) := by
  simp only [readPause]
  rw [List.append_assoc, readNum_bytes n (noDigit_dot dot h), readDot_bytes dot (fun _ => h2)]

/-- Reading back an absolute note. -/
theorem readNumDot_bytes (mk : Option Nat → Bool → Instr) (n : Option Nat) (dot : Bool) {r : List Byte} (h :
    noDigit r) (h2 : noDot r) (hn : n = none → dot = false) :
    readNumDot mk (numBytes n ++ dotBytes dot ++ r) = (mk n dot, r) := by
  simp only [readNumDot]
  rw [List.append_assoc, readNum_bytes n (noDigit_dot dot h)]
  cases n with
  | none => rw [hn rfl]; rfl
  | some n => simp only [readDot_bytes dot (fun _ => h2)]

/-- Reading back an argument unit. -/
theorem readArg_bytes (mk : Option Nat → Instr) (n : Option Nat) {r : List Byte} (h : noDigit r) :
    readArg mk (numBytes n ++ r) = (mk n, r) := by
  simp only [readArg, readNum_bytes n h]

/-- The text does not begin with an accidental. -/
def noAcc (r : List Byte) : Prop := r.head? ≠ some 0x23 ∧ r.head? ≠ some 0x2B ∧ r.head? ≠ some 0x2D

theorem readAcc_bytes (acc : Option Acc) {r : List Byte} (h : noAcc r) : readAcc (accBytes acc ++ r) = (acc, r) :=
    by
  rcases acc with _ | _ | _
  · obtain ⟨h1, h2, h3⟩ := h
    cases r with
    | nil => rfl
    | cons b r => simp at h1 h2 h3; simp [accBytes, readAcc, h1, h2, h3]
  · rfl
  · rfl

theorem noAcc_num (n : Option Nat) (dot : Bool) {r : List Byte} (h : noAcc r) :
    noAcc (numBytes n ++ dotBytes dot ++ r) := by
  cases n with
  | none =>
    cases dot with
    | true => simp [noAcc, numBytes, dotBytes]
    | false => exact h
  | some n =>
    obtain ⟨d, ds, h1, h2, _⟩ := decimalAux_spec (n + 1) n [] (by omega)
    have hd : numBytes (some n) = d :: ds := by simp only [numBytes, decimal]; rw [h1]; simp
    have : isDigit d = true := (List.all_eq_true.1 h2) d (by simp)
    rw [hd]
    refine ⟨?_, ?_, ?_⟩ <;> simp <;> rintro rfl <;> exact absurd this (by decide)

/-- Reading back a note. -/
theorem readNote_bytes (mk : Option Acc → Option Nat → Bool → Instr) (acc : Option Acc) (n : Option Nat) (dot :
    Bool) {r : List Byte} (h : noDigit r) (h2 : noDot r) (h3 : noAcc r) :
    readNote mk (accBytes acc ++ numBytes n ++ dotBytes dot ++ r) = (mk acc n dot, r) := by
  simp only [readNote]
  have ha : noAcc (numBytes n ++ (dotBytes dot ++ r)) := by rw [← List.append_assoc]; exact noAcc_num n dot h3
  rw [List.append_assoc, List.append_assoc, readAcc_bytes acc ha, ← List.append_assoc]
  exact readPause_bytes _ n dot h h2

theorem noDigit_nil : noDigit [] := by intro b h; simp at h

end Sys2Proof
end

