-- ==== Sys2Proof/Laws/State.lean ====
section
/-!
SUPPORT. One lemma for each field of State under each named update, true by rfl and in the simp set, so that no proof
unfolds a record update; and the laws of the banks.
-/

namespace Sys2Proof.Machine

/-! ### Banks -/

@[simp] theorem Tri.get_set_self {α : Type} (t : Tri α) (v : ToneVoice) (x : α) : (t.set v x).get v = x := by
  cases v <;> rfl

theorem Tri.get_set_ne {α : Type} (t : Tri α) {v w : ToneVoice} (x : α) (h : w ≠ v) :
    (t.set v x).get w = t.get w := by
  cases v <;> cases w <;> first | rfl | exact absurd rfl h

@[simp] theorem Tri.get_const {α : Type} (x : α) (v : ToneVoice) : (Tri.const x).get v = x := by cases v <;> rfl

@[simp] theorem Quad.get_set_self {α : Type} (q : Quad α) (v : Voice) (x : α) : (q.set v x).get v = x := by
  cases v <;> rfl

theorem Quad.get_set_ne {α : Type} (q : Quad α) {v w : Voice} (x : α) (h : w ≠ v) :
    (q.set v x).get w = q.get w := by
  cases v <;> cases w <;> first | rfl | exact absurd rfl h

@[simp] theorem Quad.get_const {α : Type} (x : α) (v : Voice) : (Quad.const x).get v = x := by cases v <;> rfl

theorem toneVoice_queue_injective {v w : ToneVoice} (h : v.queue = w.queue) : v = w := by
  cases v <;> cases w <;> first | rfl | exact absurd h (by decide)

/-! ### Fields under updates -/

@[simp] theorem State.setSeg_cfg (s : State) (x : BitVec 16) : (s.setSeg x).cfg = s.cfg := rfl
@[simp] theorem State.setSeg_seg (s : State) (x : BitVec 16) : (s.setSeg x).seg = x := rfl
@[simp] theorem State.setSeg_ps (s : State) (x : BitVec 16) : (s.setSeg x).ps = s.ps := rfl
@[simp] theorem State.setSeg_fg (s : State) (x : BitVec 16) : (s.setSeg x).fg = s.fg := rfl
@[simp] theorem State.setSeg_queue (s : State) (x : BitVec 16) : (s.setSeg x).queue = s.queue := rfl
@[simp] theorem State.setSeg_busy (s : State) (x : BitVec 16) : (s.setSeg x).busy = s.busy := rfl
@[simp] theorem State.setSeg_cur (s : State) (x : BitVec 16) : (s.setSeg x).cur = s.cur := rfl
@[simp] theorem State.setSeg_stopReq (s : State) (x : BitVec 16) : (s.setSeg x).stopReq = s.stopReq := rfl
@[simp] theorem State.setSeg_noiseFreq (s : State) (x : BitVec 16) : (s.setSeg x).noiseFreq = s.noiseFreq := rfl
@[simp] theorem State.setSeg_out (s : State) (x : BitVec 16) : (s.setSeg x).out = s.out := rfl
@[simp] theorem State.setSeg_scan (s : State) (x : BitVec 16) : (s.setSeg x).scan = s.scan := rfl
@[simp] theorem State.setSeg_refused (s : State) (x : BitVec 16) : (s.setSeg x).refused = s.refused := rfl
@[simp] theorem State.setSeg_events (s : State) (x : BitVec 16) : (s.setSeg x).events = s.events := rfl
@[simp] theorem State.setSeg_asks (s : State) (x : BitVec 16) : (s.setSeg x).asks = s.asks := rfl
@[simp] theorem State.setSeg_chan (s : State) (x : BitVec 16) : (s.setSeg x).chan = s.chan := rfl
@[simp] theorem State.setSeg_resp (s : State) (x : BitVec 16) : (s.setSeg x).resp = s.resp := rfl
@[simp] theorem State.setSeg_coll (s : State) (x : BitVec 16) : (s.setSeg x).coll = s.coll := rfl
@[simp] theorem State.setSeg_inbox (s : State) (x : BitVec 16) : (s.setSeg x).inbox = s.inbox := rfl

@[simp] theorem State.setFg_cfg (s : State) (b : Bool) : (s.setFg b).cfg = s.cfg := rfl
@[simp] theorem State.setFg_seg (s : State) (b : Bool) : (s.setFg b).seg = s.seg := rfl
@[simp] theorem State.setFg_ps (s : State) (b : Bool) : (s.setFg b).ps = s.ps := rfl
@[simp] theorem State.setFg_fg (s : State) (b : Bool) : (s.setFg b).fg = b := rfl
@[simp] theorem State.setFg_queue (s : State) (b : Bool) : (s.setFg b).queue = s.queue := rfl
@[simp] theorem State.setFg_busy (s : State) (b : Bool) : (s.setFg b).busy = s.busy := rfl
@[simp] theorem State.setFg_cur (s : State) (b : Bool) : (s.setFg b).cur = s.cur := rfl
@[simp] theorem State.setFg_stopReq (s : State) (b : Bool) : (s.setFg b).stopReq = s.stopReq := rfl
@[simp] theorem State.setFg_noiseFreq (s : State) (b : Bool) : (s.setFg b).noiseFreq = s.noiseFreq := rfl
@[simp] theorem State.setFg_out (s : State) (b : Bool) : (s.setFg b).out = s.out := rfl
@[simp] theorem State.setFg_scan (s : State) (b : Bool) : (s.setFg b).scan = s.scan := rfl
@[simp] theorem State.setFg_refused (s : State) (b : Bool) : (s.setFg b).refused = s.refused := rfl
@[simp] theorem State.setFg_events (s : State) (b : Bool) : (s.setFg b).events = s.events := rfl
@[simp] theorem State.setFg_asks (s : State) (b : Bool) : (s.setFg b).asks = s.asks := rfl
@[simp] theorem State.setFg_chan (s : State) (b : Bool) : (s.setFg b).chan = s.chan := rfl
@[simp] theorem State.setFg_resp (s : State) (b : Bool) : (s.setFg b).resp = s.resp := rfl
@[simp] theorem State.setFg_coll (s : State) (b : Bool) : (s.setFg b).coll = s.coll := rfl
@[simp] theorem State.setFg_inbox (s : State) (b : Bool) : (s.setFg b).inbox = s.inbox := rfl

@[simp] theorem State.setPs_cfg (s : State) (v : ToneVoice) (p : PlayState) : (s.setPs v p).cfg = s.cfg := rfl
@[simp] theorem State.setPs_seg (s : State) (v : ToneVoice) (p : PlayState) : (s.setPs v p).seg = s.seg := rfl
@[simp] theorem State.setPs_ps (s : State) (v : ToneVoice) (p : PlayState) : (s.setPs v p).ps = s.ps.set v p := rfl
@[simp] theorem State.setPs_fg (s : State) (v : ToneVoice) (p : PlayState) : (s.setPs v p).fg = s.fg := rfl
@[simp] theorem State.setPs_queue (s : State) (v : ToneVoice) (p : PlayState) : (s.setPs v p).queue = s.queue := rfl
@[simp] theorem State.setPs_busy (s : State) (v : ToneVoice) (p : PlayState) : (s.setPs v p).busy = s.busy := rfl
@[simp] theorem State.setPs_cur (s : State) (v : ToneVoice) (p : PlayState) : (s.setPs v p).cur = s.cur := rfl
@[simp] theorem State.setPs_stopReq (s : State) (v : ToneVoice) (p : PlayState) : (s.setPs v p).stopReq =
    s.stopReq := rfl
@[simp] theorem State.setPs_noiseFreq (s : State) (v : ToneVoice) (p : PlayState) : (s.setPs v p).noiseFreq =
    s.noiseFreq := rfl
@[simp] theorem State.setPs_out (s : State) (v : ToneVoice) (p : PlayState) : (s.setPs v p).out = s.out := rfl
@[simp] theorem State.setPs_scan (s : State) (v : ToneVoice) (p : PlayState) : (s.setPs v p).scan = s.scan := rfl
@[simp] theorem State.setPs_refused (s : State) (v : ToneVoice) (p : PlayState) : (s.setPs v p).refused =
    s.refused := rfl
@[simp] theorem State.setPs_events (s : State) (v : ToneVoice) (p : PlayState) : (s.setPs v p).events = s.events :=
    rfl
@[simp] theorem State.setPs_asks (s : State) (v : ToneVoice) (p : PlayState) : (s.setPs v p).asks = s.asks := rfl
@[simp] theorem State.setPs_chan (s : State) (v : ToneVoice) (p : PlayState) : (s.setPs v p).chan = s.chan := rfl
@[simp] theorem State.setPs_resp (s : State) (v : ToneVoice) (p : PlayState) : (s.setPs v p).resp = s.resp := rfl
@[simp] theorem State.setPs_coll (s : State) (v : ToneVoice) (p : PlayState) : (s.setPs v p).coll = s.coll := rfl
@[simp] theorem State.setPs_inbox (s : State) (v : ToneVoice) (p : PlayState) : (s.setPs v p).inbox = s.inbox := rfl

@[simp] theorem State.setQueue_cfg (s : State) (v : Voice) (q : List Event) : (s.setQueue v q).cfg = s.cfg := rfl
@[simp] theorem State.setQueue_seg (s : State) (v : Voice) (q : List Event) : (s.setQueue v q).seg = s.seg := rfl
@[simp] theorem State.setQueue_ps (s : State) (v : Voice) (q : List Event) : (s.setQueue v q).ps = s.ps := rfl
@[simp] theorem State.setQueue_fg (s : State) (v : Voice) (q : List Event) : (s.setQueue v q).fg = s.fg := rfl
@[simp] theorem State.setQueue_queue (s : State) (v : Voice) (q : List Event) : (s.setQueue v q).queue =
    s.queue.set v q := rfl
@[simp] theorem State.setQueue_busy (s : State) (v : Voice) (q : List Event) : (s.setQueue v q).busy = s.busy := rfl
@[simp] theorem State.setQueue_cur (s : State) (v : Voice) (q : List Event) : (s.setQueue v q).cur = s.cur := rfl
@[simp] theorem State.setQueue_stopReq (s : State) (v : Voice) (q : List Event) : (s.setQueue v q).stopReq =
    s.stopReq := rfl
@[simp] theorem State.setQueue_noiseFreq (s : State) (v : Voice) (q : List Event) : (s.setQueue v q).noiseFreq =
    s.noiseFreq := rfl
@[simp] theorem State.setQueue_out (s : State) (v : Voice) (q : List Event) : (s.setQueue v q).out = s.out := rfl
@[simp] theorem State.setQueue_scan (s : State) (v : Voice) (q : List Event) : (s.setQueue v q).scan = s.scan := rfl
@[simp] theorem State.setQueue_refused (s : State) (v : Voice) (q : List Event) : (s.setQueue v q).refused =
    s.refused := rfl
@[simp] theorem State.setQueue_events (s : State) (v : Voice) (q : List Event) : (s.setQueue v q).events =
    s.events := rfl
@[simp] theorem State.setQueue_asks (s : State) (v : Voice) (q : List Event) : (s.setQueue v q).asks = s.asks := rfl
@[simp] theorem State.setQueue_chan (s : State) (v : Voice) (q : List Event) : (s.setQueue v q).chan = s.chan := rfl
@[simp] theorem State.setQueue_resp (s : State) (v : Voice) (q : List Event) : (s.setQueue v q).resp = s.resp := rfl
@[simp] theorem State.setQueue_coll (s : State) (v : Voice) (q : List Event) : (s.setQueue v q).coll = s.coll := rfl
@[simp] theorem State.setQueue_inbox (s : State) (v : Voice) (q : List Event) : (s.setQueue v q).inbox = s.inbox :=
    rfl

@[simp] theorem State.setInFlight_cfg (s : State) (v : Voice) (b : Bool) (c : Option Event) :
    (s.setInFlight v b c).cfg = s.cfg := rfl
@[simp] theorem State.setInFlight_seg (s : State) (v : Voice) (b : Bool) (c : Option Event) :
    (s.setInFlight v b c).seg = s.seg := rfl
@[simp] theorem State.setInFlight_ps (s : State) (v : Voice) (b : Bool) (c : Option Event) :
    (s.setInFlight v b c).ps = s.ps := rfl
@[simp] theorem State.setInFlight_fg (s : State) (v : Voice) (b : Bool) (c : Option Event) :
    (s.setInFlight v b c).fg = s.fg := rfl
@[simp] theorem State.setInFlight_queue (s : State) (v : Voice) (b : Bool) (c : Option Event) :
    (s.setInFlight v b c).queue = s.queue := rfl
@[simp] theorem State.setInFlight_busy (s : State) (v : Voice) (b : Bool) (c : Option Event) :
    (s.setInFlight v b c).busy = s.busy.set v b := rfl
@[simp] theorem State.setInFlight_cur (s : State) (v : Voice) (b : Bool) (c : Option Event) :
    (s.setInFlight v b c).cur = s.cur.set v c := rfl
@[simp] theorem State.setInFlight_stopReq (s : State) (v : Voice) (b : Bool) (c : Option Event) :
    (s.setInFlight v b c).stopReq = s.stopReq := rfl
@[simp] theorem State.setInFlight_noiseFreq (s : State) (v : Voice) (b : Bool) (c : Option Event) :
    (s.setInFlight v b c).noiseFreq = s.noiseFreq := rfl
@[simp] theorem State.setInFlight_out (s : State) (v : Voice) (b : Bool) (c : Option Event) :
    (s.setInFlight v b c).out = s.out := rfl
@[simp] theorem State.setInFlight_scan (s : State) (v : Voice) (b : Bool) (c : Option Event) :
    (s.setInFlight v b c).scan = s.scan := rfl
@[simp] theorem State.setInFlight_refused (s : State) (v : Voice) (b : Bool) (c : Option Event) :
    (s.setInFlight v b c).refused = s.refused := rfl
@[simp] theorem State.setInFlight_events (s : State) (v : Voice) (b : Bool) (c : Option Event) :
    (s.setInFlight v b c).events = s.events := rfl
@[simp] theorem State.setInFlight_asks (s : State) (v : Voice) (b : Bool) (c : Option Event) :
    (s.setInFlight v b c).asks = s.asks := rfl
@[simp] theorem State.setInFlight_chan (s : State) (v : Voice) (b : Bool) (c : Option Event) :
    (s.setInFlight v b c).chan = s.chan := rfl
@[simp] theorem State.setInFlight_resp (s : State) (v : Voice) (b : Bool) (c : Option Event) :
    (s.setInFlight v b c).resp = s.resp := rfl
@[simp] theorem State.setInFlight_coll (s : State) (v : Voice) (b : Bool) (c : Option Event) :
    (s.setInFlight v b c).coll = s.coll := rfl
@[simp] theorem State.setInFlight_inbox (s : State) (v : Voice) (b : Bool) (c : Option Event) :
    (s.setInFlight v b c).inbox = s.inbox := rfl

@[simp] theorem State.setNoise_cfg (s : State) (t : List Freq) : (s.setNoise t).cfg = s.cfg := rfl
@[simp] theorem State.setNoise_seg (s : State) (t : List Freq) : (s.setNoise t).seg = s.seg := rfl
@[simp] theorem State.setNoise_ps (s : State) (t : List Freq) : (s.setNoise t).ps = s.ps := rfl
@[simp] theorem State.setNoise_fg (s : State) (t : List Freq) : (s.setNoise t).fg = s.fg := rfl
@[simp] theorem State.setNoise_queue (s : State) (t : List Freq) : (s.setNoise t).queue = s.queue := rfl
@[simp] theorem State.setNoise_busy (s : State) (t : List Freq) : (s.setNoise t).busy = s.busy := rfl
@[simp] theorem State.setNoise_cur (s : State) (t : List Freq) : (s.setNoise t).cur = s.cur := rfl
@[simp] theorem State.setNoise_stopReq (s : State) (t : List Freq) : (s.setNoise t).stopReq = s.stopReq := rfl
@[simp] theorem State.setNoise_noiseFreq (s : State) (t : List Freq) : (s.setNoise t).noiseFreq = t := rfl
@[simp] theorem State.setNoise_out (s : State) (t : List Freq) : (s.setNoise t).out = s.out := rfl
@[simp] theorem State.setNoise_scan (s : State) (t : List Freq) : (s.setNoise t).scan = s.scan := rfl
@[simp] theorem State.setNoise_refused (s : State) (t : List Freq) : (s.setNoise t).refused = s.refused := rfl
@[simp] theorem State.setNoise_events (s : State) (t : List Freq) : (s.setNoise t).events = s.events := rfl
@[simp] theorem State.setNoise_asks (s : State) (t : List Freq) : (s.setNoise t).asks = s.asks := rfl
@[simp] theorem State.setNoise_chan (s : State) (t : List Freq) : (s.setNoise t).chan = s.chan := rfl
@[simp] theorem State.setNoise_resp (s : State) (t : List Freq) : (s.setNoise t).resp = s.resp := rfl
@[simp] theorem State.setNoise_coll (s : State) (t : List Freq) : (s.setNoise t).coll = s.coll := rfl
@[simp] theorem State.setNoise_inbox (s : State) (t : List Freq) : (s.setNoise t).inbox = s.inbox := rfl

@[simp] theorem State.setStop_cfg (s : State) (b : Bool) : (s.setStop b).cfg = s.cfg := rfl
@[simp] theorem State.setStop_seg (s : State) (b : Bool) : (s.setStop b).seg = s.seg := rfl
@[simp] theorem State.setStop_ps (s : State) (b : Bool) : (s.setStop b).ps = s.ps := rfl
@[simp] theorem State.setStop_fg (s : State) (b : Bool) : (s.setStop b).fg = s.fg := rfl
@[simp] theorem State.setStop_queue (s : State) (b : Bool) : (s.setStop b).queue = s.queue := rfl
@[simp] theorem State.setStop_busy (s : State) (b : Bool) : (s.setStop b).busy = s.busy := rfl
@[simp] theorem State.setStop_cur (s : State) (b : Bool) : (s.setStop b).cur = s.cur := rfl
@[simp] theorem State.setStop_stopReq (s : State) (b : Bool) : (s.setStop b).stopReq = b := rfl
@[simp] theorem State.setStop_noiseFreq (s : State) (b : Bool) : (s.setStop b).noiseFreq = s.noiseFreq := rfl
@[simp] theorem State.setStop_out (s : State) (b : Bool) : (s.setStop b).out = s.out := rfl
@[simp] theorem State.setStop_scan (s : State) (b : Bool) : (s.setStop b).scan = s.scan := rfl
@[simp] theorem State.setStop_refused (s : State) (b : Bool) : (s.setStop b).refused = s.refused := rfl
@[simp] theorem State.setStop_events (s : State) (b : Bool) : (s.setStop b).events = s.events := rfl
@[simp] theorem State.setStop_asks (s : State) (b : Bool) : (s.setStop b).asks = s.asks := rfl
@[simp] theorem State.setStop_chan (s : State) (b : Bool) : (s.setStop b).chan = s.chan := rfl
@[simp] theorem State.setStop_resp (s : State) (b : Bool) : (s.setStop b).resp = s.resp := rfl
@[simp] theorem State.setStop_coll (s : State) (b : Bool) : (s.setStop b).coll = s.coll := rfl
@[simp] theorem State.setStop_inbox (s : State) (b : Bool) : (s.setStop b).inbox = s.inbox := rfl

@[simp] theorem State.hold_cfg (s : State) (c : Cont) : (s.hold c).cfg = s.cfg := rfl
@[simp] theorem State.hold_seg (s : State) (c : Cont) : (s.hold c).seg = s.seg := rfl
@[simp] theorem State.hold_ps (s : State) (c : Cont) : (s.hold c).ps = s.ps := rfl
@[simp] theorem State.hold_fg (s : State) (c : Cont) : (s.hold c).fg = s.fg := rfl
@[simp] theorem State.hold_queue (s : State) (c : Cont) : (s.hold c).queue = s.queue := rfl
@[simp] theorem State.hold_busy (s : State) (c : Cont) : (s.hold c).busy = s.busy := rfl
@[simp] theorem State.hold_cur (s : State) (c : Cont) : (s.hold c).cur = s.cur := rfl
@[simp] theorem State.hold_stopReq (s : State) (c : Cont) : (s.hold c).stopReq = s.stopReq := rfl
@[simp] theorem State.hold_noiseFreq (s : State) (c : Cont) : (s.hold c).noiseFreq = s.noiseFreq := rfl
@[simp] theorem State.hold_out (s : State) (c : Cont) : (s.hold c).out = some c := rfl
@[simp] theorem State.hold_scan (s : State) (c : Cont) : (s.hold c).scan = s.scan := rfl
@[simp] theorem State.hold_refused (s : State) (c : Cont) : (s.hold c).refused = s.refused := rfl
@[simp] theorem State.hold_events (s : State) (c : Cont) : (s.hold c).events = s.events := rfl
@[simp] theorem State.hold_asks (s : State) (c : Cont) : (s.hold c).asks = s.asks := rfl
@[simp] theorem State.hold_chan (s : State) (c : Cont) : (s.hold c).chan = s.chan := rfl
@[simp] theorem State.hold_resp (s : State) (c : Cont) : (s.hold c).resp = s.resp := rfl
@[simp] theorem State.hold_coll (s : State) (c : Cont) : (s.hold c).coll = s.coll := rfl
@[simp] theorem State.hold_inbox (s : State) (c : Cont) : (s.hold c).inbox = s.inbox := rfl

@[simp] theorem State.setScan_cfg (s : State) (sc : Scan) : (s.setScan sc).cfg = s.cfg := rfl
@[simp] theorem State.setScan_seg (s : State) (sc : Scan) : (s.setScan sc).seg = s.seg := rfl
@[simp] theorem State.setScan_ps (s : State) (sc : Scan) : (s.setScan sc).ps = s.ps := rfl
@[simp] theorem State.setScan_fg (s : State) (sc : Scan) : (s.setScan sc).fg = s.fg := rfl
@[simp] theorem State.setScan_queue (s : State) (sc : Scan) : (s.setScan sc).queue = s.queue := rfl
@[simp] theorem State.setScan_busy (s : State) (sc : Scan) : (s.setScan sc).busy = s.busy := rfl
@[simp] theorem State.setScan_cur (s : State) (sc : Scan) : (s.setScan sc).cur = s.cur := rfl
@[simp] theorem State.setScan_stopReq (s : State) (sc : Scan) : (s.setScan sc).stopReq = s.stopReq := rfl
@[simp] theorem State.setScan_noiseFreq (s : State) (sc : Scan) : (s.setScan sc).noiseFreq = s.noiseFreq := rfl
@[simp] theorem State.setScan_out (s : State) (sc : Scan) : (s.setScan sc).out = s.out := rfl
@[simp] theorem State.setScan_scan (s : State) (sc : Scan) : (s.setScan sc).scan = some sc := rfl
@[simp] theorem State.setScan_refused (s : State) (sc : Scan) : (s.setScan sc).refused = s.refused := rfl
@[simp] theorem State.setScan_events (s : State) (sc : Scan) : (s.setScan sc).events = s.events := rfl
@[simp] theorem State.setScan_asks (s : State) (sc : Scan) : (s.setScan sc).asks = s.asks := rfl
@[simp] theorem State.setScan_chan (s : State) (sc : Scan) : (s.setScan sc).chan = s.chan := rfl
@[simp] theorem State.setScan_resp (s : State) (sc : Scan) : (s.setScan sc).resp = s.resp := rfl
@[simp] theorem State.setScan_coll (s : State) (sc : Scan) : (s.setScan sc).coll = s.coll := rfl
@[simp] theorem State.setScan_inbox (s : State) (sc : Scan) : (s.setScan sc).inbox = s.inbox := rfl

@[simp] theorem State.emit_cfg (s : State) (l : List Emit) : (s.emit l).cfg = s.cfg := rfl
@[simp] theorem State.emit_seg (s : State) (l : List Emit) : (s.emit l).seg = s.seg := rfl
@[simp] theorem State.emit_ps (s : State) (l : List Emit) : (s.emit l).ps = s.ps := rfl
@[simp] theorem State.emit_fg (s : State) (l : List Emit) : (s.emit l).fg = s.fg := rfl
@[simp] theorem State.emit_queue (s : State) (l : List Emit) : (s.emit l).queue = s.queue := rfl
@[simp] theorem State.emit_busy (s : State) (l : List Emit) : (s.emit l).busy = s.busy := rfl
@[simp] theorem State.emit_cur (s : State) (l : List Emit) : (s.emit l).cur = s.cur := rfl
@[simp] theorem State.emit_stopReq (s : State) (l : List Emit) : (s.emit l).stopReq = s.stopReq := rfl
@[simp] theorem State.emit_noiseFreq (s : State) (l : List Emit) : (s.emit l).noiseFreq = s.noiseFreq := rfl
@[simp] theorem State.emit_out (s : State) (l : List Emit) : (s.emit l).out = s.out := rfl
@[simp] theorem State.emit_scan (s : State) (l : List Emit) : (s.emit l).scan = s.scan := rfl
@[simp] theorem State.emit_refused (s : State) (l : List Emit) : (s.emit l).refused = s.refused := rfl
@[simp] theorem State.emit_events (s : State) (l : List Emit) : (s.emit l).events = s.events ++ l := rfl
@[simp] theorem State.emit_asks (s : State) (l : List Emit) : (s.emit l).asks = s.asks := rfl
@[simp] theorem State.emit_chan (s : State) (l : List Emit) : (s.emit l).chan = s.chan := rfl
@[simp] theorem State.emit_resp (s : State) (l : List Emit) : (s.emit l).resp = s.resp := rfl
@[simp] theorem State.emit_coll (s : State) (l : List Emit) : (s.emit l).coll =
    l.foldl Collab.receive s.coll := rfl
@[simp] theorem State.emit_inbox (s : State) (l : List Emit) : (s.emit l).inbox = s.inbox := rfl

@[simp] theorem State.asked_cfg (s : State) (l : List Ask) : (s.asked l).cfg = s.cfg := rfl
@[simp] theorem State.asked_seg (s : State) (l : List Ask) : (s.asked l).seg = s.seg := rfl
@[simp] theorem State.asked_ps (s : State) (l : List Ask) : (s.asked l).ps = s.ps := rfl
@[simp] theorem State.asked_fg (s : State) (l : List Ask) : (s.asked l).fg = s.fg := rfl
@[simp] theorem State.asked_queue (s : State) (l : List Ask) : (s.asked l).queue = s.queue := rfl
@[simp] theorem State.asked_busy (s : State) (l : List Ask) : (s.asked l).busy = s.busy := rfl
@[simp] theorem State.asked_cur (s : State) (l : List Ask) : (s.asked l).cur = s.cur := rfl
@[simp] theorem State.asked_stopReq (s : State) (l : List Ask) : (s.asked l).stopReq = s.stopReq := rfl
@[simp] theorem State.asked_noiseFreq (s : State) (l : List Ask) : (s.asked l).noiseFreq = s.noiseFreq := rfl
@[simp] theorem State.asked_out (s : State) (l : List Ask) : (s.asked l).out = s.out := rfl
@[simp] theorem State.asked_scan (s : State) (l : List Ask) : (s.asked l).scan = s.scan := rfl
@[simp] theorem State.asked_refused (s : State) (l : List Ask) : (s.asked l).refused = s.refused := rfl
@[simp] theorem State.asked_events (s : State) (l : List Ask) : (s.asked l).events = s.events := rfl
@[simp] theorem State.asked_asks (s : State) (l : List Ask) : (s.asked l).asks = s.asks ++ l := rfl
@[simp] theorem State.asked_chan (s : State) (l : List Ask) : (s.asked l).chan = s.chan := rfl
@[simp] theorem State.asked_resp (s : State) (l : List Ask) : (s.asked l).resp = s.resp := rfl
@[simp] theorem State.asked_coll (s : State) (l : List Ask) : (s.asked l).coll = s.coll := rfl
@[simp] theorem State.asked_inbox (s : State) (l : List Ask) : (s.asked l).inbox = s.inbox := rfl

@[simp] theorem State.answer_cfg (s : State) (r : Response) : (s.answer r).cfg = s.cfg := rfl
@[simp] theorem State.answer_seg (s : State) (r : Response) : (s.answer r).seg = s.seg := rfl
@[simp] theorem State.answer_ps (s : State) (r : Response) : (s.answer r).ps = s.ps := rfl
@[simp] theorem State.answer_fg (s : State) (r : Response) : (s.answer r).fg = s.fg := rfl
@[simp] theorem State.answer_queue (s : State) (r : Response) : (s.answer r).queue = s.queue := rfl
@[simp] theorem State.answer_busy (s : State) (r : Response) : (s.answer r).busy = s.busy := rfl
@[simp] theorem State.answer_cur (s : State) (r : Response) : (s.answer r).cur = s.cur := rfl
@[simp] theorem State.answer_stopReq (s : State) (r : Response) : (s.answer r).stopReq = s.stopReq := rfl
@[simp] theorem State.answer_noiseFreq (s : State) (r : Response) : (s.answer r).noiseFreq = s.noiseFreq := rfl
@[simp] theorem State.answer_out (s : State) (r : Response) : (s.answer r).out = s.out := rfl
@[simp] theorem State.answer_scan (s : State) (r : Response) : (s.answer r).scan = s.scan := rfl
@[simp] theorem State.answer_refused (s : State) (r : Response) : (s.answer r).refused = s.refused := rfl
@[simp] theorem State.answer_events (s : State) (r : Response) : (s.answer r).events = s.events := rfl
@[simp] theorem State.answer_asks (s : State) (r : Response) : (s.answer r).asks = s.asks := rfl
@[simp] theorem State.answer_chan (s : State) (r : Response) : (s.answer r).chan = s.chan := rfl
@[simp] theorem State.answer_resp (s : State) (r : Response) : (s.answer r).resp = s.resp ++ [r] := rfl
@[simp] theorem State.answer_coll (s : State) (r : Response) : (s.answer r).coll = s.coll := rfl
@[simp] theorem State.answer_inbox (s : State) (r : Response) : (s.answer r).inbox = s.inbox := rfl

@[simp] theorem State.finish_cfg (s : State) : s.finish.cfg = s.cfg := rfl
@[simp] theorem State.finish_seg (s : State) : s.finish.seg = s.seg := rfl
@[simp] theorem State.finish_ps (s : State) : s.finish.ps = s.ps := rfl
@[simp] theorem State.finish_fg (s : State) : s.finish.fg = s.fg := rfl
@[simp] theorem State.finish_queue (s : State) : s.finish.queue = s.queue := rfl
@[simp] theorem State.finish_busy (s : State) : s.finish.busy = s.busy := rfl
@[simp] theorem State.finish_cur (s : State) : s.finish.cur = s.cur := rfl
@[simp] theorem State.finish_stopReq (s : State) : s.finish.stopReq = s.stopReq := rfl
@[simp] theorem State.finish_noiseFreq (s : State) : s.finish.noiseFreq = s.noiseFreq := rfl
@[simp] theorem State.finish_out (s : State) : s.finish.out = none := rfl
@[simp] theorem State.finish_scan (s : State) : s.finish.scan = none := rfl
@[simp] theorem State.finish_refused (s : State) : s.finish.refused = s.refused := rfl
@[simp] theorem State.finish_events (s : State) : s.finish.events = s.events := rfl
@[simp] theorem State.finish_asks (s : State) : s.finish.asks = s.asks := rfl
@[simp] theorem State.finish_chan (s : State) : s.finish.chan = s.chan := rfl
@[simp] theorem State.finish_resp (s : State) : s.finish.resp = s.resp := rfl
@[simp] theorem State.finish_coll (s : State) : s.finish.coll = s.coll := rfl
@[simp] theorem State.finish_inbox (s : State) : s.finish.inbox = s.inbox := rfl

@[simp] theorem State.respond_cfg (s : State) (d : RespData) : (s.respond d).cfg = s.cfg := rfl
@[simp] theorem State.respond_seg (s : State) (d : RespData) : (s.respond d).seg = s.seg := rfl
@[simp] theorem State.respond_ps (s : State) (d : RespData) : (s.respond d).ps = s.ps := rfl
@[simp] theorem State.respond_fg (s : State) (d : RespData) : (s.respond d).fg = s.fg := rfl
@[simp] theorem State.respond_queue (s : State) (d : RespData) : (s.respond d).queue = s.queue := rfl
@[simp] theorem State.respond_busy (s : State) (d : RespData) : (s.respond d).busy = s.busy := rfl
@[simp] theorem State.respond_cur (s : State) (d : RespData) : (s.respond d).cur = s.cur := rfl
@[simp] theorem State.respond_stopReq (s : State) (d : RespData) : (s.respond d).stopReq = s.stopReq := rfl
@[simp] theorem State.respond_noiseFreq (s : State) (d : RespData) : (s.respond d).noiseFreq = s.noiseFreq := rfl
@[simp] theorem State.respond_out (s : State) (d : RespData) : (s.respond d).out = none := rfl
@[simp] theorem State.respond_scan (s : State) (d : RespData) : (s.respond d).scan = none := rfl
@[simp] theorem State.respond_refused (s : State) (d : RespData) : (s.respond d).refused = s.refused := rfl
@[simp] theorem State.respond_events (s : State) (d : RespData) : (s.respond d).events = s.events := rfl
@[simp] theorem State.respond_asks (s : State) (d : RespData) : (s.respond d).asks = s.asks := rfl
@[simp] theorem State.respond_chan (s : State) (d : RespData) : (s.respond d).chan = s.chan := rfl
@[simp] theorem State.respond_resp (s : State) (d : RespData) : (s.respond d).resp =
    s.resp ++ [{ status := .ok, data := d }] := rfl
@[simp] theorem State.respond_coll (s : State) (d : RespData) : (s.respond d).coll = s.coll := rfl
@[simp] theorem State.respond_inbox (s : State) (d : RespData) : (s.respond d).inbox = s.inbox := rfl

@[simp] theorem State.raise_cfg (s : State) (e : Err) : (s.raise e).cfg = s.cfg := rfl
@[simp] theorem State.raise_seg (s : State) (e : Err) : (s.raise e).seg = s.seg := rfl
@[simp] theorem State.raise_ps (s : State) (e : Err) : (s.raise e).ps = s.ps := rfl
@[simp] theorem State.raise_fg (s : State) (e : Err) : (s.raise e).fg = s.fg := rfl
@[simp] theorem State.raise_queue (s : State) (e : Err) : (s.raise e).queue = s.queue := rfl
@[simp] theorem State.raise_busy (s : State) (e : Err) : (s.raise e).busy = s.busy := rfl
@[simp] theorem State.raise_cur (s : State) (e : Err) : (s.raise e).cur = s.cur := rfl
@[simp] theorem State.raise_stopReq (s : State) (e : Err) : (s.raise e).stopReq = s.stopReq := rfl
@[simp] theorem State.raise_noiseFreq (s : State) (e : Err) : (s.raise e).noiseFreq = s.noiseFreq := rfl
@[simp] theorem State.raise_out (s : State) (e : Err) : (s.raise e).out = none := rfl
@[simp] theorem State.raise_scan (s : State) (e : Err) : (s.raise e).scan = none := rfl
@[simp] theorem State.raise_refused (s : State) (e : Err) : (s.raise e).refused = s.refused := rfl
@[simp] theorem State.raise_events (s : State) (e : Err) : (s.raise e).events = s.events := rfl
@[simp] theorem State.raise_asks (s : State) (e : Err) : (s.raise e).asks = s.asks := rfl
@[simp] theorem State.raise_chan (s : State) (e : Err) : (s.raise e).chan = s.chan := rfl
@[simp] theorem State.raise_resp (s : State) (e : Err) : (s.raise e).resp =
    s.resp ++ [{ status := e.status, data := .nothing }] := rfl
@[simp] theorem State.raise_coll (s : State) (e : Err) : (s.raise e).coll = s.coll := rfl
@[simp] theorem State.raise_inbox (s : State) (e : Err) : (s.raise e).inbox = s.inbox := rfl

@[simp] theorem State.raiseIfc_cfg (s : State) (c : IfcCause) : (s.raiseIfc c).cfg = s.cfg := rfl
@[simp] theorem State.raiseIfc_seg (s : State) (c : IfcCause) : (s.raiseIfc c).seg = s.seg := rfl
@[simp] theorem State.raiseIfc_ps (s : State) (c : IfcCause) : (s.raiseIfc c).ps = s.ps := rfl
@[simp] theorem State.raiseIfc_fg (s : State) (c : IfcCause) : (s.raiseIfc c).fg = s.fg := rfl
@[simp] theorem State.raiseIfc_queue (s : State) (c : IfcCause) : (s.raiseIfc c).queue = s.queue := rfl
@[simp] theorem State.raiseIfc_busy (s : State) (c : IfcCause) : (s.raiseIfc c).busy = s.busy := rfl
@[simp] theorem State.raiseIfc_cur (s : State) (c : IfcCause) : (s.raiseIfc c).cur = s.cur := rfl
@[simp] theorem State.raiseIfc_stopReq (s : State) (c : IfcCause) : (s.raiseIfc c).stopReq = s.stopReq := rfl
@[simp] theorem State.raiseIfc_noiseFreq (s : State) (c : IfcCause) : (s.raiseIfc c).noiseFreq = s.noiseFreq := rfl
@[simp] theorem State.raiseIfc_out (s : State) (c : IfcCause) : (s.raiseIfc c).out = none := rfl
@[simp] theorem State.raiseIfc_scan (s : State) (c : IfcCause) : (s.raiseIfc c).scan = none := rfl
@[simp] theorem State.raiseIfc_refused (s : State) (c : IfcCause) : (s.raiseIfc c).refused = s.refused := rfl
@[simp] theorem State.raiseIfc_events (s : State) (c : IfcCause) : (s.raiseIfc c).events = s.events := rfl
@[simp] theorem State.raiseIfc_asks (s : State) (c : IfcCause) : (s.raiseIfc c).asks = s.asks := rfl
@[simp] theorem State.raiseIfc_chan (s : State) (c : IfcCause) : (s.raiseIfc c).chan = s.chan := rfl
@[simp] theorem State.raiseIfc_resp (s : State) (c : IfcCause) : (s.raiseIfc c).resp =
    s.resp ++ [{ status := .ifc, data := .nothing }] := rfl
@[simp] theorem State.raiseIfc_coll (s : State) (c : IfcCause) : (s.raiseIfc c).coll = s.coll := rfl
@[simp] theorem State.raiseIfc_inbox (s : State) (c : IfcCause) : (s.raiseIfc c).inbox = s.inbox := rfl

@[simp] theorem State.refuse_cfg (s : State) : s.refuse.cfg = s.cfg := rfl
@[simp] theorem State.refuse_seg (s : State) : s.refuse.seg = s.seg := rfl
@[simp] theorem State.refuse_ps (s : State) : s.refuse.ps = s.ps := rfl
@[simp] theorem State.refuse_fg (s : State) : s.refuse.fg = s.fg := rfl
@[simp] theorem State.refuse_queue (s : State) : s.refuse.queue = s.queue := rfl
@[simp] theorem State.refuse_busy (s : State) : s.refuse.busy = s.busy := rfl
@[simp] theorem State.refuse_cur (s : State) : s.refuse.cur = s.cur := rfl
@[simp] theorem State.refuse_stopReq (s : State) : s.refuse.stopReq = s.stopReq := rfl
@[simp] theorem State.refuse_noiseFreq (s : State) : s.refuse.noiseFreq = s.noiseFreq := rfl
@[simp] theorem State.refuse_out (s : State) : s.refuse.out = s.out := rfl
@[simp] theorem State.refuse_scan (s : State) : s.refuse.scan = s.scan := rfl
@[simp] theorem State.refuse_refused (s : State) : s.refuse.refused = true := rfl
@[simp] theorem State.refuse_events (s : State) : s.refuse.events = s.events := rfl
@[simp] theorem State.refuse_asks (s : State) : s.refuse.asks = s.asks := rfl
@[simp] theorem State.refuse_chan (s : State) : s.refuse.chan = s.chan := rfl
@[simp] theorem State.refuse_resp (s : State) : s.refuse.resp = s.resp ++ [{ status := .refused, data :=
    .nothing }] := rfl
@[simp] theorem State.refuse_coll (s : State) : s.refuse.coll = s.coll := rfl
@[simp] theorem State.refuse_inbox (s : State) : s.refuse.inbox = s.inbox := rfl

@[simp] theorem State.flush_cfg (s : State) : s.flush.cfg = s.cfg := rfl
@[simp] theorem State.flush_seg (s : State) : s.flush.seg = s.seg := rfl
@[simp] theorem State.flush_ps (s : State) : s.flush.ps = s.ps := rfl
@[simp] theorem State.flush_fg (s : State) : s.flush.fg = s.fg := rfl
@[simp] theorem State.flush_queue (s : State) : s.flush.queue = Quad.const [] := rfl
@[simp] theorem State.flush_busy (s : State) : s.flush.busy = s.busy := rfl
@[simp] theorem State.flush_cur (s : State) : s.flush.cur = s.cur := rfl
@[simp] theorem State.flush_stopReq (s : State) : s.flush.stopReq = true := rfl
@[simp] theorem State.flush_noiseFreq (s : State) : s.flush.noiseFreq = s.noiseFreq := rfl
@[simp] theorem State.flush_out (s : State) : s.flush.out = s.out := rfl
@[simp] theorem State.flush_scan (s : State) : s.flush.scan = s.scan := rfl
@[simp] theorem State.flush_refused (s : State) : s.flush.refused = s.refused := rfl
@[simp] theorem State.flush_events (s : State) : s.flush.events = s.events ++ [.rendererStop] := rfl
@[simp] theorem State.flush_asks (s : State) : s.flush.asks = s.asks := rfl
@[simp] theorem State.flush_chan (s : State) : s.flush.chan = s.chan := rfl
@[simp] theorem State.flush_resp (s : State) : s.flush.resp = s.resp := rfl
@[simp] theorem State.flush_coll (s : State) : s.flush.coll = s.coll := rfl
@[simp] theorem State.flush_inbox (s : State) : s.flush.inbox = s.inbox := rfl

@[simp] theorem State.soundDefaults_cfg (s : State) : s.soundDefaults.cfg = s.cfg := rfl
@[simp] theorem State.soundDefaults_seg (s : State) : s.soundDefaults.seg = s.seg := rfl
@[simp] theorem State.soundDefaults_ps (s : State) : s.soundDefaults.ps = Tri.const PlayState.default := rfl
@[simp] theorem State.soundDefaults_fg (s : State) : s.soundDefaults.fg = true := rfl
@[simp] theorem State.soundDefaults_queue (s : State) : s.soundDefaults.queue = s.queue := rfl
@[simp] theorem State.soundDefaults_busy (s : State) : s.soundDefaults.busy = s.busy := rfl
@[simp] theorem State.soundDefaults_cur (s : State) : s.soundDefaults.cur = s.cur := rfl
@[simp] theorem State.soundDefaults_stopReq (s : State) : s.soundDefaults.stopReq = s.stopReq := rfl
@[simp] theorem State.soundDefaults_noiseFreq (s : State) : s.soundDefaults.noiseFreq = s.cfg.noiseInit := rfl
@[simp] theorem State.soundDefaults_out (s : State) : s.soundDefaults.out = s.out := rfl
@[simp] theorem State.soundDefaults_scan (s : State) : s.soundDefaults.scan = s.scan := rfl
@[simp] theorem State.soundDefaults_refused (s : State) : s.soundDefaults.refused = s.refused := rfl
@[simp] theorem State.soundDefaults_events (s : State) : s.soundDefaults.events = s.events := rfl
@[simp] theorem State.soundDefaults_asks (s : State) : s.soundDefaults.asks = s.asks := rfl
@[simp] theorem State.soundDefaults_chan (s : State) : s.soundDefaults.chan = s.chan := rfl
@[simp] theorem State.soundDefaults_resp (s : State) : s.soundDefaults.resp = s.resp := rfl
@[simp] theorem State.soundDefaults_coll (s : State) : s.soundDefaults.coll = s.coll := rfl
@[simp] theorem State.soundDefaults_inbox (s : State) : s.soundDefaults.inbox = s.inbox := rfl

@[simp] theorem State.stopAck_cfg (s : State) : s.stopAck.cfg = s.cfg := rfl
@[simp] theorem State.stopAck_seg (s : State) : s.stopAck.seg = s.seg := rfl
@[simp] theorem State.stopAck_ps (s : State) : s.stopAck.ps = s.ps := rfl
@[simp] theorem State.stopAck_fg (s : State) : s.stopAck.fg = s.fg := rfl
@[simp] theorem State.stopAck_queue (s : State) : s.stopAck.queue = s.queue := rfl
@[simp] theorem State.stopAck_busy (s : State) : s.stopAck.busy = Quad.const false := rfl
@[simp] theorem State.stopAck_cur (s : State) : s.stopAck.cur = Quad.const none := rfl
@[simp] theorem State.stopAck_stopReq (s : State) : s.stopAck.stopReq = false := rfl
@[simp] theorem State.stopAck_noiseFreq (s : State) : s.stopAck.noiseFreq = s.noiseFreq := rfl
@[simp] theorem State.stopAck_out (s : State) : s.stopAck.out = s.out := rfl
@[simp] theorem State.stopAck_scan (s : State) : s.stopAck.scan = s.scan := rfl
@[simp] theorem State.stopAck_refused (s : State) : s.stopAck.refused = s.refused := rfl
@[simp] theorem State.stopAck_events (s : State) : s.stopAck.events = s.events := rfl
@[simp] theorem State.stopAck_asks (s : State) : s.stopAck.asks = s.asks := rfl
@[simp] theorem State.stopAck_chan (s : State) : s.stopAck.chan = s.chan := rfl
@[simp] theorem State.stopAck_resp (s : State) : s.stopAck.resp = s.resp := rfl
@[simp] theorem State.stopAck_coll (s : State) : s.stopAck.coll = s.coll := rfl
@[simp] theorem State.stopAck_inbox (s : State) : s.stopAck.inbox = s.inbox := rfl

end Sys2Proof.Machine
end

