-- ==== Sys2Proof/Laws/Memory.lean ====
section
/-!
SUPPORT. The collaborators' memories: every operation keeps the canonical form, a read after a write, and what an output
changes in a collaborator's answers.
-/

namespace Sys2Proof.Machine

theorem Memory.wf_nil : Memory.wf [] := List.Pairwise.nil

theorem Memory.mem_put {m : Memory} {a : Nat} {b : Byte} {p : Host.Cell} (h : p ∈ m.put a b) :
    p = (a, b) ∨ p ∈ m := by
  induction m with
  | nil => simpa [Memory.put] using h
  | cons x m ih =>
    obtain ⟨x, c⟩ := x
    simp only [Memory.put] at h
    split at h
    · simpa using h
    · split at h
      · rcases List.mem_cons.1 h with h | h
        · exact .inl h
        · exact .inr (List.mem_cons_of_mem _ h)
      · rcases List.mem_cons.1 h with h | h
        · exact .inr (h ▸ List.mem_cons_self)
        · exact (ih h).imp id (List.mem_cons_of_mem _)

theorem Memory.mem_remove {m : Memory} {a : Nat} {p : Host.Cell} (h : p ∈ m.remove a) : p ∈ m := by
  induction m with
  | nil => simp [Memory.remove] at h
  | cons x m ih =>
    obtain ⟨x, c⟩ := x
    simp only [Memory.remove] at h
    split at h
    · exact List.mem_cons_of_mem _ h
    · rcases List.mem_cons.1 h with h | h
      · exact h ▸ List.mem_cons_self
      · exact List.mem_cons_of_mem _ (ih h)

/-- Putting a byte keeps the canonical form. -/
theorem Memory.wf_put {m : Memory} (hm : m.wf) (a : Nat) (b : Byte) : (m.put a b).wf := by
  induction m with
  | nil => exact List.pairwise_singleton _ _
  | cons x m ih =>
    obtain ⟨x, c⟩ := x
    obtain ⟨hx, ht⟩ := List.pairwise_cons.1 hm
    simp only [Memory.put]
    split
    · rename_i h
      refine List.pairwise_cons.2 ⟨?_, List.pairwise_cons.2 ⟨hx, ht⟩⟩
      intro p hp
      rcases List.mem_cons.1 hp with rfl | hp
      · exact h
      · exact Nat.lt_trans h (hx p hp)
    · split
      · rename_i h
        subst h
        exact List.pairwise_cons.2 ⟨hx, ht⟩
      · refine List.pairwise_cons.2 ⟨?_, ih ht⟩
        intro p hp
        rcases Memory.mem_put hp with rfl | hp
        · change x < a; omega
        · exact hx p hp

/-- Removing a byte keeps the canonical form. -/
theorem Memory.wf_remove {m : Memory} (hm : m.wf) (a : Nat) : (m.remove a).wf := by
  induction m with
  | nil => exact List.Pairwise.nil
  | cons x m ih =>
    obtain ⟨x, c⟩ := x
    obtain ⟨hx, ht⟩ := List.pairwise_cons.1 hm
    simp only [Memory.remove]
    split
    · exact ht
    · exact List.pairwise_cons.2 ⟨fun p hp => hx p (Memory.mem_remove hp), ih ht⟩

/-- Every memory operation keeps the canonical form. -/
theorem Memory.wf_write {m : Memory} (hm : m.wf) (a : Nat) (b : Option Byte) : (m.write a b).wf := by
  cases b with
  | none => exact Memory.wf_remove hm a
  | some b => exact Memory.wf_put hm a b

/-- Session construction's memories have the canonical form. -/
theorem reset_memories_wf :
    State.reset.coll.font.cells.wf ∧ State.reset.coll.video.cells.wf ∧ State.reset.coll.data.cells.wf :=
  ⟨Memory.wf_nil, Memory.wf_nil, Memory.wf_nil⟩

/-- A read after a put gives the byte put. -/
theorem Memory.read_put_self (m : Memory) (a : Nat) (b : Byte) : (m.put a b).read a = some b := by
  induction m with
  | nil => simp [Memory.put, Memory.read]
  | cons x m ih =>
    obtain ⟨x, c⟩ := x
    simp only [Memory.put]
    split
    · simp [Memory.read]
    · split
      · simp [Memory.read]
      · rename_i h
        simp [Memory.read, h, ih]

/-- A put leaves every other address alone. -/
theorem Memory.read_put_ne (m : Memory) {a a' : Nat} (b : Byte) (h : a' ≠ a) :
    (m.put a b).read a' = m.read a' := by
  induction m with
  | nil => simp [Memory.put, Memory.read, h]
  | cons x m ih =>
    obtain ⟨x, c⟩ := x
    simp only [Memory.put]
    split
    · simp [Memory.read, h]
    · split
      · rename_i hx
        subst hx
        simp [Memory.read, h]
      · simp only [Memory.read, ih]

/-! ### Stores -/

/-- A store answers the byte just written. -/
theorem Store.answer_write_self (st : Store) (a : Nat) (b : Byte) : (st.write a (some b)).answer a = .byte b := by
  simp [Store.write, Store.answer, Memory.write, Memory.read_put_self]

/-- A write leaves the answer at every other address. -/
theorem Store.answer_write_ne (st : Store) {a a' : Nat} (b : Byte) (h : a' ≠ a) :
    (st.write a (some b)).answer a' = st.answer a' := by
  simp [Store.write, Store.answer, Memory.write, Memory.read_put_ne _ _ h, h]

/-- Two glyph bytes share a key only where they are the same byte. -/
theorem glyphKey_injective {c c' r r' : Nat} (hr : r < 8) (hr' : r' < 8) (h : glyphKey c r = glyphKey c' r') :
    c = c' ∧ r = r' := by
  unfold glyphKey at h; omega

/-! ### Outputs taken by the collaborators -/

/-- An output changes nothing but the font store. -/
theorem Collab.receive_eq (c : Collab) (e : Emit) : c.receive e = { c with font := (c.receive e).font } := by
  cases e <;> rfl

/-- Outputs change nothing but the font store. -/
theorem Collab.receives_eq (l : List Emit) (c : Collab) :
    l.foldl Collab.receive c = { c with font := (l.foldl Collab.receive c).font } := by
  induction l generalizing c with
  | nil => rfl
  | cons e l ih => rw [List.foldl_cons, ih, Collab.receive_eq c e]

/-- The glyph byte just set is the font store's answer (R67). -/
theorem Collab.receive_fontSet_self (c : Collab) (char row : Nat) (b : Byte) :
    (c.receive (.fontSet char row b)).font.answer (glyphKey char row) = .byte b :=
  Store.answer_write_self _ _ _

/-- Every other glyph byte stays. -/
theorem Collab.receive_fontSet_ne (c : Collab) {char row k : Nat} (b : Byte) (h : k ≠ glyphKey char row) :
    (c.receive (.fontSet char row b)).font.answer k = c.font.answer k :=
  Store.answer_write_ne _ _ h

/-- The font store keeps its canonical form. -/
theorem Collab.receives_font_wf (l : List Emit) {c : Collab} (h : c.font.cells.wf) :
    (l.foldl Collab.receive c).font.cells.wf := by
  induction l generalizing c with
  | nil => exact h
  | cons e l ih =>
    refine ih ?_
    cases e with
    | fontSet char row v => exact Memory.wf_write h (glyphKey char row) (some v)
    | _ => exact h

end Sys2Proof.Machine
end

