-- ==== Sys2Proof/Laws/Ops.lean ====
section
/-!
SUPPORT. One lemma for each shared operation, saying once what it can do.
-/

namespace Sys2Proof.Machine

/-! ### Endings -/

theorem State.respond_eq (s : State) (d : RespData) : s.respond d = s.completed d := rfl

theorem State.raise_eq (s : State) (e : Err) : s.raise e = s.failed e.status := rfl

theorem State.raiseIfc_eq (s : State) (c : IfcCause) : s.raiseIfc c = s.failed .ifc := rfl

theorem State.refuse_eq (s : State) : s.refuse = s.turnedAway := rfl

theorem State.asked_eq (s : State) (l : List Ask) : s.asked l = s.consulted l := rfl

theorem State.emit_eq (s : State) (l : List Emit) : s.emit l = s.delivered l := rfl

theorem State.asked_nil (s : State) : s.asked [] = s := by simp [State.asked]

/-! ### Taking a command -/

/-- A valid command with nothing outstanding runs its body. -/
theorem command_taken {valid : Bool} {body : State → State} {s : State} (ho : s.out = none) (hv : valid = true) :
    command valid body s = .next (body s) := by
  simp [command, ho, hv]

/-- Any other is refused. -/
theorem command_refused {valid : Bool} {body : State → State} {s : State} (h : s.out ≠ none ∨ valid = false) :
    command valid body s = .next s.turnedAway := by
  have hc : (s.out.isNone && valid) = false := by
    rcases h with h | h
    · cases hs : s.out with
      | none => exact absurd hs h
      | some _ => rfl
    · simp [h]
  simp [command, hc, State.refuse_eq]

/-- What taking a command can do. -/
theorem command_cases {valid : Bool} {body : State → State} {s t : State} (h : command valid body s = .next t) :
    (s.out = none ∧ valid = true ∧ t = body s) ∨ ((s.out ≠ none ∨ valid = false) ∧ t = s.turnedAway) := by
  by_cases hc : s.out = none ∧ valid = true
  · rw [command_taken hc.1 hc.2] at h
    exact .inl ⟨hc.1, hc.2, (Host.Outcome.next.inj h).symm⟩
  · have hc' : s.out ≠ none ∨ valid = false := by
      by_cases ho : s.out = none
      · exact .inr (by cases valid <;> simp_all)
      · exact .inl ho
    rw [command_refused hc'] at h
    exact .inr ⟨hc', (Host.Outcome.next.inj h).symm⟩

theorem State.noItems_iff (s : State) : s.noItems = true ↔ s.chan = [] := by simp [State.noItems]

/-- The protection check passes. -/
theorem protCheck_accessible {rest : State → State} {s : State} (h : s.accessible) :
    protCheck rest s = rest (s.consulted protAsks) := by
  unfold State.accessible at h
  cases hp : s.coll.isProtected <;> cases hr : s.coll.running <;>
    simp_all [protCheck, State.asked_eq, State.consulted, protAsks]

/-- The protection check raises IFC. -/
theorem protCheck_locked {rest : State → State} {s : State} (h : s.locked) :
    protCheck rest s = (s.consulted protAsks).failed .ifc := by
  obtain ⟨hp, hr⟩ := h
  simp [protCheck, hp, hr, State.raise_eq, Err.status, State.asked_eq, protAsks, State.consulted]

/-- What the protection check can do. -/
theorem protCheck_cases (rest : State → State) (s : State) :
    (s.accessible ∧ protCheck rest s = rest (s.consulted protAsks)) ∨
    (s.locked ∧ protCheck rest s = (s.consulted protAsks).failed .ifc) := by
  by_cases h : s.locked
  · exact .inr ⟨h, protCheck_locked h⟩
  · exact .inl ⟨h, protCheck_accessible h⟩

/-! ### The bodies that read -/

/-- PEEK after the protection check: the byte, or a refusal, the read's queries made. -/
theorem peekBody_cases (off : BitVec 17) (s : State) :
    let q := memAsks s.cfg s.coll (effAddr s.seg off.toInt 0)
    (∃ b, (memRead s.cfg s.coll (effAddr s.seg off.toInt 0)).clamped = some b ∧
      peekBody off s = (s.consulted q).completed (.byte b)) ∨
    ((memRead s.cfg s.coll (effAddr s.seg off.toInt 0)).clamped = none ∧
      peekBody off s = (s.consulted q).turnedAway) := by
  cases h : (memRead s.cfg s.coll (effAddr s.seg off.toInt 0)).clamped with
  | none => exact .inr ⟨rfl, by simp only [peekBody, h]; rfl⟩
  | some b => exact .inl ⟨b, rfl, by simp only [peekBody, h]; rfl⟩

/-- READ_BLOCK: the bytes, or a refusal, the queries made in the order of R342. -/
theorem readBlockBody_cases (off n : BitVec 17) (s : State) :
    let q := readBlockAsks s.cfg s.coll s.seg off.toInt n.toNat
    (∃ bs, readBlock s.cfg s.coll s.seg off.toInt n.toNat = some bs ∧
      readBlockBody off n s = (s.consulted q).completed (.bytes bs)) ∨
    (readBlock s.cfg s.coll s.seg off.toInt n.toNat = none ∧ readBlockBody off n s = (s.consulted q).turnedAway) := by
  cases h : readBlock s.cfg s.coll s.seg off.toInt n.toNat with
  | none => exact .inr ⟨rfl, by simp only [readBlockBody, h]; rfl⟩
  | some bs => exact .inl ⟨bs, rfl, by simp only [readBlockBody, h]; rfl⟩

/-- BSAVE after the protection check: the file record, or a refusal. -/
theorem bsaveBody_cases (off n : BitVec 17) (s : State) :
    let q := readBlockAsks s.cfg s.coll s.seg off.toInt n.toNat
    (∃ p, readBlock s.cfg s.coll s.seg off.toInt n.toNat = some p ∧
      bsaveBody off n s = (s.consulted q).completed
        (.fileOut s.seg (norm16 off.toInt) n.toNat (bsaveBytes s.cfg s.seg off.toInt n.toNat p))) ∨
    (readBlock s.cfg s.coll s.seg off.toInt n.toNat = none ∧ bsaveBody off n s = (s.consulted q).turnedAway) := by
  cases h : readBlock s.cfg s.coll s.seg off.toInt n.toNat with
  | none => exact .inr ⟨rfl, by simp only [bsaveBody, h]; rfl⟩
  | some p => exact .inl ⟨p, rfl, by simp only [bsaveBody, h]; rfl⟩

/-! ### Operand ranges -/

theorem offsetValid_iff (a : BitVec 17) : offsetValid a = true ↔ offsetRange a.toInt := by
  simp [offsetValid, offsetRange]

theorem lengthValid_iff (b : BitVec 17) : lengthValid b = true ↔ lengthRange b.toInt := by
  simp [lengthValid, lengthRange]

theorem Event.admissible_iff (e : Event) (v : Voice) : e.admissible v = true ↔ eventAllowed e v := by
  unfold Event.admissible eventAllowed
  cases e.kind <;> cases v <;> simp [and_assoc]

/-! ### Queues -/

/-- Appending an event is `withEvent`. -/
theorem State.append_eq (s : State) (v : Voice) (e : Event) : s.append v e = s.withEvent v e := by
  unfold State.append State.noiseLink State.withEvent freqNonzero
  by_cases h : v = .v2 ∧ e.freq.coef ≠ 0
  · simp [h, State.setNoise, State.setQueue]
  · rw [if_neg (by simpa using h), if_neg h]
    simp [State.setQueue]

theorem State.room_iff (s : State) (v : Voice) :
    s.room v = true ↔ ∀ n, s.cfg.qdepth = some n → (s.queue.get v).length < n := by
  unfold State.room State.raw
  cases s.cfg.qdepth <;> simp

theorem State.room_false_iff (s : State) (v : Voice) :
    s.room v = false ↔ ∃ n, s.cfg.qdepth = some n ∧ n ≤ (s.queue.get v).length := by
  unfold State.room State.raw
  cases s.cfg.qdepth <;> simp

theorem State.adj_eq (s : State) (v : Voice) : s.adj v = (s.queue.get v).length - 1 := rfl

theorem State.playing_iff (s : State) (v : Voice) :
    s.playing v = true ↔ 2 ≤ (s.queue.get v).length ∨ s.busy.get v = true := by
  have h : 0 < s.adj v ↔ 2 ≤ (s.queue.get v).length := by rw [State.adj_eq]; omega
  simp [State.playing, h]

theorem mem_maskVoices (mask : BitVec 4) (v : Voice) : v ∈ maskVoices mask ↔ mask.getLsbD v.idx = true := by
  cases v <;> simp [maskVoices, Voice.all]

theorem State.shallow_iff (s : State) (mask : BitVec 4) (d : Nat) :
    s.shallow mask d = true ↔ ∀ v : Voice, mask.getLsbD v.idx = true → (s.queue.get v).length ≤ d + 1 := by
  simp [State.shallow, State.adj, State.raw, mem_maskVoices]

theorem State.idle_iff (s : State) (v : Voice) : s.idle v = true ↔ s.queue.get v = [] ∧ s.busy.get v = false := by
  simp [State.idle, State.raw]

theorem State.allIdle_iff (s : State) (mask : BitVec 4) :
    s.allIdle mask = true ↔
      ∀ v : Voice, mask.getLsbD v.idx = true → s.queue.get v = [] ∧ s.busy.get v = false := by
  simp [State.allIdle, State.idle_iff, mem_maskVoices]

theorem State.tonesIdle_iff (s : State) :
    s.tonesIdle = true ↔ ∀ v : ToneVoice, s.queue.get v.queue = [] ∧ s.busy.get v.queue = false := by
  unfold State.tonesIdle
  rw [List.all_eq_true]
  constructor
  · intro h v
    exact (State.idle_iff _ _).1 (h v (by cases v <;> simp [ToneVoice.all]))
  · intro h v _
    exact (State.idle_iff _ _).2 (h v)

theorem State.backPressureOver_iff (s : State) (v : Voice) :
    s.backPressureOver v = true ↔ (s.queue.get v).length ≤ 16 := by
  simp [State.backPressureOver, State.adj, State.raw, Config.playWaitDepth]

/-- What a voice's queue holds after an append. -/
theorem State.withEvent_queue_self (s : State) (v : Voice) (e : Event) :
    (s.withEvent v e).queue.get v = s.queue.get v ++ [e] := by simp [State.withEvent]

theorem State.withEvent_queue_ne (s : State) {v w : Voice} (e : Event) (h : w ≠ v) :
    (s.withEvent v e).queue.get w = s.queue.get w := by simp [State.withEvent, Quad.get_set_ne _ _ h]

/-! ### Holding commands: each completes or holds -/

theorem enqueueFrom_cases (v : Voice) (e : Event) (s : State) :
    (s.room v = true ∧ enqueueFrom v e s = (s.withEvent v e).completed .nothing) ∨
    (s.room v = false ∧ enqueueFrom v e s = { s with out := some (.enqueue v e) }) := by
  cases h : s.room v
  · exact .inr ⟨rfl, by simp [enqueueFrom, h, State.hold]⟩
  · exact .inl ⟨rfl, by simp [enqueueFrom, h, State.append_eq, State.respond_eq]⟩

theorem backPressureFrom_cases (v : Voice) (s : State) :
    (s.backPressureOver v = true ∧ backPressureFrom v s = s.completed .nothing) ∨
    (s.backPressureOver v = false ∧ backPressureFrom v s = { s with out := some (.backPressure v) }) := by
  cases h : s.backPressureOver v
  · exact .inr ⟨rfl, by simp [backPressureFrom, h, State.hold]⟩
  · exact .inl ⟨rfl, by simp [backPressureFrom, h, State.respond_eq]⟩

theorem playAndWaitFrom_cases (v : Voice) (e : Event) (s : State) :
    (s.room v = true ∧ (s.queue.get v).length ≤ 15 ∧
      playAndWaitFrom v e s = (s.withEvent v e).completed .nothing) ∨
    (s.room v = true ∧ 16 ≤ (s.queue.get v).length ∧
      playAndWaitFrom v e s = { s.withEvent v e with out := some (.backPressure v) }) ∨
    (s.room v = false ∧ playAndWaitFrom v e s = { s with out := some (.playAndWait v e) }) := by
  cases h : s.room v
  · exact .inr (.inr ⟨rfl, by simp [playAndWaitFrom, h, State.hold]⟩)
  · have hq := State.withEvent_queue_self s v e
    rcases backPressureFrom_cases v (s.withEvent v e) with ⟨hb, heq⟩ | ⟨hb, heq⟩
    · rw [State.backPressureOver_iff, hq] at hb
      refine .inl ⟨rfl, by simp at hb; omega, ?_⟩
      simp [playAndWaitFrom, h, State.append_eq, heq]
    · rw [Bool.eq_false_iff, ne_eq, State.backPressureOver_iff, hq] at hb
      refine .inr (.inl ⟨rfl, by simp at hb; omega, ?_⟩)
      simp [playAndWaitFrom, h, State.append_eq, heq]

theorem waitDepthFrom_cases (mask : BitVec 4) (d : Nat) (s : State) :
    (s.shallow mask d = true ∧ waitDepthFrom mask d s = s.completed .nothing) ∨
    (s.shallow mask d = false ∧ waitDepthFrom mask d s = { s with out := some (.waitDepth mask d) }) := by
  cases h : s.shallow mask d
  · exact .inr ⟨rfl, by simp [waitDepthFrom, h, State.hold]⟩
  · exact .inl ⟨rfl, by simp [waitDepthFrom, h, State.respond_eq]⟩

theorem waitIdleFrom_cases (mask : BitVec 4) (s : State) :
    (s.allIdle mask = true ∧ waitIdleFrom mask s = s.completed .nothing) ∨
    (s.allIdle mask = false ∧ waitIdleFrom mask s = { s with out := some (.waitIdle mask) }) := by
  cases h : s.allIdle mask
  · exact .inr ⟨rfl, by simp [waitIdleFrom, h, State.hold]⟩
  · exact .inl ⟨rfl, by simp [waitIdleFrom, h, State.respond_eq]⟩

theorem foregroundFrom_cases (s : State) :
    (s.tonesIdle = true ∧ foregroundFrom s = s.completed .nothing) ∨
    (s.tonesIdle = false ∧ foregroundFrom s = { s with out := some .playForeground }) := by
  cases h : s.tonesIdle
  · exact .inr ⟨rfl, by simp [foregroundFrom, h, State.hold]⟩
  · exact .inl ⟨rfl, by simp [foregroundFrom, h, State.respond_eq]⟩

/-- Where the padding goes after a voice. -/
theorem afterPad_cases (v : ToneVoice) (s : State) :
    (∃ w, afterPad v s = { s with out := some (.playPad w) }) ∨ afterPad v s = s.completed .nothing ∨
    afterPad v s = { s with out := some .playForeground } := by
  cases v with
  | v0 => exact .inl ⟨.v1, rfl⟩
  | v1 => exact .inl ⟨.v2, rfl⟩
  | v2 =>
    simp only [afterPad, afterPadding]
    split
    · rcases foregroundFrom_cases s with ⟨_, h⟩ | ⟨_, h⟩
      · exact .inr (.inl h)
      · exact .inr (.inr h)
    · exact .inr (.inl (State.respond_eq _ _))

/-- What padding one voice can do. -/
theorem padFrom_cases (v : ToneVoice) (s : State) :
    padFrom v s = afterPad v s ∨ padFrom v s = { s with out := some (.playPad v) } ∨
    ∃ sc, s.scan = some sc ∧ sc.needsPad v = true ∧ s.room v.queue = true ∧
      padFrom v s = afterPad v ((s.withEvent v.queue (padEvent (sc.maxAcc - sc.acc.get v))).setScan
        { sc with acc := sc.acc.set v sc.maxAcc }) := by
  cases hs : s.scan with
  | none => exact .inl (by simp [padFrom, hs])
  | some sc =>
    cases hn : sc.needsPad v with
    | false => exact .inl (by simp [padFrom, hs, hn])
    | true =>
      cases hr : s.room v.queue with
      | false => exact .inr (.inl (by simp [padFrom, hs, hn, hr, State.hold]))
      | true => exact .inr (.inr ⟨sc, rfl, hn, rfl, by simp [padFrom, hs, hn, hr, State.append_eq]⟩)

/-! ### Units -/

/-- A unit runs on the voice being scanned. -/
theorem onUnit_scanning {s : State} {sc : Scan} (h : s.scanning sc) (unit : Scan → PlayState → State) :
    onUnit s unit = .next (unit sc (s.ps.get sc.turn)) := by
  obtain ⟨ho, hs⟩ := h
  simp [onUnit, ho, hs]

/-- A unit that gives a next state runs during a scan. -/
theorem onUnit_next {s t : State} {unit : Scan → PlayState → State} (h : onUnit s unit = .next t) :
    ∃ sc, s.scanning sc ∧ t = unit sc (s.ps.get sc.turn) := by
  unfold onUnit at h
  split at h
  · rename_i sc ho hs
    exact ⟨sc, ⟨ho, hs⟩, (Host.Outcome.next.inj h).symm⟩
  · cases h

theorem State.appendUnit_eq {s : State} {sc : Scan} (hs : s.scan = some sc) (v : ToneVoice) (e : Event) :
    s.appendUnit v e =
      { s.withEvent v.queue e with scan := some { sc with acc := sc.acc.set v (sc.acc.get v + e.dur) } } := by
  have h : (s.withEvent v.queue e).scan = some sc := hs
  simp [State.appendUnit, State.addAcc, State.append_eq, h, State.setScan]

/-- A unit's event joins its queue and its voice's total, or the PLAY holds with it. -/
theorem emitUnit_cases {s : State} {sc : Scan} (hs : s.scan = some sc) (v : ToneVoice) (e : Event) :
    (s.room v.queue = true ∧ emitUnit v e s =
      { s.withEvent v.queue e with scan := some { sc with acc := sc.acc.set v (sc.acc.get v + e.dur) } }) ∨
    (s.room v.queue = false ∧ emitUnit v e s = { s with out := some (.playEmit v e) }) := by
  cases h : s.room v.queue
  · exact .inr ⟨rfl, by simp [emitUnit, h, State.hold]⟩
  · exact .inl ⟨rfl, by simp [emitUnit, h, State.appendUnit_eq hs]⟩

/-- A held unit's event joins its queue and the scan goes on, or it stays held. -/
theorem playEmitFrom_cases {s : State} {sc : Scan} (hs : s.scan = some sc) (v : ToneVoice) (e : Event) :
    (s.room v.queue = true ∧ playEmitFrom v e s =
      { s.withEvent v.queue e with
        out := some .playScan
        scan := some { sc with acc := sc.acc.set v (sc.acc.get v + e.dur) } }) ∨
    (s.room v.queue = false ∧ playEmitFrom v e s = { s with out := some (.playEmit v e) }) := by
  cases h : s.room v.queue
  · exact .inr ⟨rfl, by simp [playEmitFrom, h, State.hold]⟩
  · exact .inl ⟨rfl, by simp [playEmitFrom, h, State.appendUnit_eq hs, State.hold]⟩

/-! ### The renderer and the other inputs -/

/-- What a renderer step can do. -/
theorem rendererStep_cases (r : RendererStep) (s : State) :
    rendererStep r s = s ∨
    (∃ v e q, r = .take v ∧ s.stopReq = false ∧ s.busy.get v = false ∧ s.queue.get v = e :: q ∧
      rendererStep r s =
        { s with queue := s.queue.set v q, busy := s.busy.set v true, cur := s.cur.set v (some e) }) ∨
    (∃ v, r = .done v ∧ s.doneEnabled v = true ∧
      rendererStep r s = { s with busy := s.busy.set v false, cur := s.cur.set v none }) ∨
    (r = .stopAck ∧ s.stopReq = true ∧ rendererStep r s = s.stopAck) := by
  cases r with
  | take v =>
    by_cases h : s.takeEnabled v = true
    · simp only [State.takeEnabled, Bool.and_eq_true, Bool.not_eq_true'] at h
      obtain ⟨⟨h1, h2⟩, h3⟩ := h
      cases hq : s.queue.get v with
      | nil => simp [hq] at h3
      | cons e q =>
        exact .inr (.inl ⟨v, e, q, rfl, h1, h2, hq, by
          simp [rendererStep, State.takeEnabled, State.take, h1, h2, hq, State.setQueue, State.setInFlight]⟩)
    · exact .inl (by simp [rendererStep, h])
  | done v =>
    by_cases h : s.doneEnabled v = true
    · exact .inr (.inr (.inl ⟨v, rfl, h, by simp [rendererStep, h, State.setInFlight]⟩))
    · exact .inl (by simp [rendererStep, h])
  | stopAck =>
    by_cases h : s.stopReq = true
    · exact .inr (.inr (.inr ⟨rfl, h, by simp [rendererStep, h]⟩))
    · exact .inl (by simp [rendererStep, h])

/-- A collaborator's change touches nothing but what the collaborators answer. -/
theorem applyChange_eq (c : CollabChange) (s : State) : ∃ k, applyChange c s = { s with coll := k } := ⟨_, rfl⟩

/-- A held command waits: what one input can do. -/
theorem poll_cases (s : State) :
    (s.inbox = [] ∧ poll s = s) ∨
    (∃ w items rest, s.inbox = .command w items :: rest ∧ poll s = { s with inbox := rest }.turnedAway) ∨
    (∃ r rest, s.inbox = .renderer r :: rest ∧ poll s = rendererStep r { s with inbox := rest }) ∨
    (∃ c rest, s.inbox = .collab c :: rest ∧ poll s = { s with inbox := rest }) := by
  cases hi : s.inbox with
  | nil => exact .inl ⟨rfl, by simp [poll, hi]⟩
  | cons inp rest =>
    cases inp with
    | command w items => exact .inr (.inl ⟨w, items, rest, rfl, by simp [poll, hi, heldInput, State.refuse_eq]⟩)
    | renderer r => exact .inr (.inr (.inl ⟨r, rest, rfl, by simp [poll, hi, heldInput]⟩))
    | collab c => exact .inr (.inr (.inr ⟨c, rest, rfl, by simp [poll, hi, heldInput]⟩))

/-! ### Commands with data-channel items -/

theorem execWriteBlock_given {s : State} {data : List Byte} (off n : BitVec 17) (hc : s.chan = [.bytes data]) :
    execWriteBlock off n s = command (offsetValid off && lengthValid n && data.length == n.toNat)
      (fun s => (s.emit (writeBlock s.cfg s.seg off.toInt data)).respond .nothing) s := by
  unfold execWriteBlock; rw [hc]

theorem execBload_given {s : State} {f : BitVec 16} {p : List Byte} (isNone : Bool) (off : BitVec 17)
    (hc : s.chan = [.file f p]) :
    execBload isNone off s =
      command (if isNone then off == 0 else offsetValid off) (protCheck (bloadBody isNone off f p)) s := by
  unfold execBload; rw [hc]

theorem execEnqueue_given {s : State} {e : Event} (v : Voice) (hc : s.chan = [.event e]) :
    execEnqueue v s = command (e.admissible v) (enqueueFrom v e) s := by
  unfold execEnqueue; rw [hc]

theorem execPlayAndWait_given {s : State} {e : Event} (v : Voice) (hc : s.chan = [.event e]) :
    execPlayAndWait v s = command (e.admissible v) (playAndWaitFrom v e) s := by
  unfold execPlayAndWait; rw [hc]

theorem itemStrings_map (l : List (List Byte)) : itemStrings (l.map .bytes) = some l := by
  induction l with
  | nil => rfl
  | cons a l ih => simp [itemStrings, ih]

theorem execPlay_given {s : State} {l : List (List Byte)} (k : BitVec 2) (hc : s.chan = l.map .bytes) :
    execPlay k s =
      command (k != 0 && l.length == k.toNat) (fun s => (s.setScan (initScan l)).hold .playScan) s := by
  unfold execPlay; rw [hc, itemStrings_map]

/-! ### The step -/

/-- Nothing outstanding: the step takes an input. -/
theorem step_idle {s : State} (ho : s.out = none) : step s = stepIdle s := by
  unfold step; rw [ho]

/-- A PLAY scans: the step is one turn. -/
theorem step_scan {s : State} (ho : s.out = some .playScan) : step s = stepScan s := by
  unfold step; rw [ho]

/-- A unit runs in a step, and the turn passes. -/
theorem step_unit {s : State} {sc sc' : Scan} {i : Instr} (h : s.scanning sc) (ha : scanAction sc = .unit i sc') :
    step s = afterUnit (exec i { s with scan := some sc' }) := by
  rw [step_scan h.1]
  simp only [stepScan, h.2, ha, State.setScan]

/-- Everything a step can do. -/
theorem step_cases {s t : State} (h : step s = .next t) :
    (s.out = none ∧ s.inbox = [] ∧ t = s) ∨
    (∃ w items rest, s.out = none ∧ s.inbox = .command w items :: rest ∧
      ((∃ i, decodeWord w = .ok i ∧ exec i { s with inbox := rest, chan := items } = .next t) ∨
       (∃ e, decodeWord w = .error e ∧ t = { s with inbox := rest, chan := items }.turnedAway))) ∨
    (∃ r rest, s.out = none ∧ s.inbox = .renderer r :: rest ∧ t = rendererStep r { s with inbox := rest }) ∨
    (∃ c rest, s.out = none ∧ s.inbox = .collab c :: rest ∧ t = applyChange c { s with inbox := rest }) ∨
    (∃ sc, s.scanning sc ∧ scanAction sc = .finished ∧ t = { s with out := some (.playPad .v0) }) ∨
    (∃ sc sc', s.scanning sc ∧ scanAction sc = .pass sc' ∧ t = { s with scan := some sc' }) ∨
    (∃ sc i sc' u, s.scanning sc ∧ scanAction sc = .unit i sc' ∧ exec i { s with scan := some sc' } = .next u ∧
      t = u.endTurn) ∨
    (∃ c, s.out = some c ∧ c ≠ .playScan ∧ s.ready c = true ∧ t = resume c s) ∨
    (∃ c, s.heldAt c ∧ t = poll s) := by
  rcases Option.eq_none_or_eq_some s.out with ho | ⟨c, ho⟩
  · rw [step_idle ho, stepIdle] at h
    rcases hi : s.inbox with _ | ⟨inp, rest⟩
    · rw [hi] at h
      exact .inl ⟨ho, rfl, (Host.Outcome.next.inj h).symm⟩
    · rw [hi] at h
      cases inp with
      | command w items =>
        refine .inr (.inl ⟨w, items, rest, ho, rfl, ?_⟩)
        replace h : runWord w { s with inbox := rest, chan := items } = .next t := h
        rw [runWord] at h
        cases hd : decodeWord w with
        | ok i => rw [hd] at h; exact .inl ⟨i, rfl, h⟩
        | error e => rw [hd] at h; exact .inr ⟨e, rfl, (Host.Outcome.next.inj h).symm⟩
      | renderer r => exact .inr (.inr (.inl ⟨r, rest, ho, rfl, (Host.Outcome.next.inj h).symm⟩))
      | collab c => exact .inr (.inr (.inr (.inl ⟨c, rest, ho, rfl, (Host.Outcome.next.inj h).symm⟩)))
  · by_cases hc : c = .playScan
    · subst hc
      rw [step_scan ho, stepScan] at h
      rcases Option.eq_none_or_eq_some s.scan with hs | ⟨sc, hs⟩
      · rw [hs] at h; cases h
      · simp only [hs] at h
        cases ha : scanAction sc with
        | finished =>
          refine .inr (.inr (.inr (.inr (.inl ⟨sc, ⟨ho, hs⟩, ha, ?_⟩))))
          rw [ha] at h
          exact (Host.Outcome.next.inj h).symm
        | pass sc' =>
          refine .inr (.inr (.inr (.inr (.inr (.inl ⟨sc, sc', ⟨ho, hs⟩, ha, ?_⟩)))))
          rw [ha] at h
          exact (Host.Outcome.next.inj h).symm
        | unit i sc' =>
          refine .inr (.inr (.inr (.inr (.inr (.inr (.inl ?_))))))
          rw [ha] at h
          cases he : exec i (s.setScan sc') with
          | next u =>
            simp only [he, afterUnit] at h
            exact ⟨sc, i, sc', u, ⟨ho, hs⟩, ha, he, (Host.Outcome.next.inj h).symm⟩
          | fault r => simp only [he, afterUnit] at h; cases h
          | refused r => simp only [he, afterUnit] at h; cases h
    · have h' : (if s.ready c then resume c s else poll s) = t := by
        unfold step at h
        simp only [ho] at h
        cases c <;> first | exact absurd rfl hc | exact Host.Outcome.next.inj h
      rcases Bool.eq_false_or_eq_true (s.ready c) with hr | hr
      · exact .inr (.inr (.inr (.inr (.inr (.inr (.inr (.inl ⟨c, ho, hc, hr, by rw [← h', hr]; rfl⟩)))))))
      · exact .inr (.inr (.inr (.inr (.inr (.inr (.inr (.inr ⟨c, ⟨ho, hc, hr⟩, by rw [← h', hr]; rfl⟩)))))))

/-- A held command polls. -/
theorem step_held {s : State} {c : Cont} (h : s.heldAt c) : step s = .next (poll s) := by
  obtain ⟨ho, hc, hr⟩ := h
  unfold step
  simp only [ho]
  cases c <;> first | exact absurd rfl hc | simp [hr]

/-- A ready command goes on. -/
theorem step_ready {s : State} {c : Cont} (ho : s.out = some c) (hc : c ≠ .playScan) (hr : s.ready c = true) :
    step s = .next (resume c s) := by
  unfold step
  simp only [ho]
  cases c <;> first | exact absurd rfl hc | simp [hr]

end Sys2Proof.Machine
end

