-- ==== Sys2Proof/Laws/Exec.lean ====
section
/-!
SUPPORT. What an instruction can do, once for the host commands and once for the MML units: every next state `exec` can
give, with the instruction that gives it.
-/

namespace Sys2Proof.Machine

/-! ### Events the units emit -/

theorem pow2_nonneg (z : Int) : 0 ≤ pow2 z := by
  cases z with
  | ofNat n => simp only [pow2]; positivity
  | negSucc n => simp only [pow2]; positivity

theorem noteFreq_nonneg (anchor : Int) (t : Nat) : 0 ≤ (noteFreq anchor t).coef :=
  mul_nonneg (by norm_num) (pow2_nonneg _)

theorem duration_nonneg (ln tempo : Pos) (dot : Bool) : 0 ≤ duration ln tempo dot := by
  unfold duration
  cases dot
  · simp only [Bool.false_eq_true, if_false]; positivity
  · simp only [if_true]; positivity

theorem ratio_bounds (r : Speed) : 0 < r.ratio ∧ r.ratio ≤ 1 := by cases r <;> norm_num [Speed.ratio]

/-- A unit's event is admissible on a tone voice (R200). -/
theorem unitEvent_admissible (p : PlayState) (f : Freq) (dur : Rat) (vol : Nat) (v : ToneVoice) (hf : 0 ≤ f.coef)
    (hd : 0 ≤ dur) (hv : vol ≤ 15) : (unitEvent p f dur vol).admissible v.queue = true := by
  rw [Event.admissible_iff]
  exact ⟨.inl ⟨rfl, by cases v <;> simp [ToneVoice.queue]⟩, hf, hd, (ratio_bounds _).1, (ratio_bounds _).2, hv⟩

/-! ### MML units -/

/-- The PlayState a unit leaves on the scanned voice, where it emits nothing. -/
def unitSets (i : Instr) (s : State) (p q : PlayState) : Prop :=
  (∃ n x, i = .mmlL n ∧ q = { p with lenN := x }) ∨ (∃ n x, i = .mmlT n ∧ q = { p with tempoN := x }) ∨
  (∃ n x, i = .mmlO n ∧ q = { p with oct := x, eff := none }) ∨
  (∃ n x, i = .mmlV n ∧ s.cfg.perVoiceVolume = true ∧ q = { p with vol := x }) ∨
  (∃ x, (i = .mmlUp ∨ i = .mmlDown) ∧ q = { p with eff := x }) ∨
  (∃ x, (i = .mmlMN ∨ i = .mmlML ∨ i = .mmlMS) ∧ q = { p with speed := x })

/-- The instruction is a note or a rest. -/
def soundUnit (i : Instr) : Prop :=
  (∃ n d, i = .mmlN n d) ∨ (∃ n d, i = .mmlP n d) ∨ ∃ l a n d, i = letterInstr l a n d

/-- What a unit can do during a scan. -/
def unitEffect (i : Instr) (s : State) (sc : Scan) (t : State) : Prop :=
  (i = .mmlNop ∧ t = s) ∨ (∃ q, t = (s.consulted q).failed .ifc) ∨
  (∃ ref term r q, i = .mmlX ref term ∧ t = (s.consulted q).setScan (sc.splice r)) ∨
  (i = .mmlMF ∧ t = s.setFg true) ∨ (i = .mmlMB ∧ t = s.setFg false) ∨
  (∃ q, unitSets i s (s.ps.get sc.turn) q ∧ t = s.setPs sc.turn q) ∨
  (∃ e, soundUnit i ∧ e.admissible sc.turn.queue = true ∧
    t = emitUnit sc.turn e (s.setPs sc.turn (s.ps.get sc.turn).clearEff))

/-- A unit that raises IFC without asking anything. -/
theorem unitEffect_failed {i : Instr} {s : State} {sc : Scan} {t : State} (h : t = s.failed .ifc) :
    unitEffect i s sc t :=
  .inr (.inl ⟨[], by rw [h]; simp [State.consulted]⟩)

theorem noteUnit_effect {i : Instr} {l : Letter} {acc : Option Acc} {len : Option Nat} {dot : Bool} {s t : State}
    (hi : i = letterInstr l acc len dot) (h : noteUnit l acc len dot s = .next t) :
    ∃ sc, s.scanning sc ∧ unitEffect i s sc t := by
  unfold noteUnit at h
  obtain ⟨sc, hs, ht⟩ := onUnit_next h
  refine ⟨sc, hs, ?_⟩
  cases h1 : semi l acc with
  | none => rw [h1] at ht; exact unitEffect_failed ht
  | some st =>
    rw [h1] at ht
    cases h2 : noteLength len (s.ps.get sc.turn) with
    | none => rw [h2] at ht; exact unitEffect_failed ht
    | some ln =>
      rw [h2] at ht
      refine .inr (.inr (.inr (.inr (.inr (.inr ⟨_, .inr (.inr ⟨l, acc, len, dot, hi⟩), ?_, ht⟩)))))
      exact unitEvent_admissible _ _ _ _ _ (noteFreq_nonneg _ _) (duration_nonneg _ _ _)
        (Nat.le_of_lt_succ (s.ps.get sc.turn).vol.isLt)

theorem needNum_cases (n : Option Nat) (s : State) (rest : Nat → State) :
    (n = none ∧ needNum n s rest = s.failed .ifc) ∨ ∃ m, n = some m ∧ needNum n s rest = rest m := by
  cases n with
  | none => exact .inl ⟨rfl, rfl⟩
  | some m => exact .inr ⟨m, rfl, rfl⟩

/-- Everything an MML unit can do. -/
theorem exec_unit {i : Instr} {s t : State} (hi : hostOpcode i = none) (h : exec i s = .next t) :
    ∃ sc, s.scanning sc ∧ unitEffect i s sc t := by
  cases i <;> simp only [hostOpcode, reduceCtorEq] at hi
  case mmlNop =>
    simp only [exec, execMmlNop] at h
    obtain ⟨sc, hs, ht⟩ := onUnit_next h
    exact ⟨sc, hs, .inl ⟨rfl, ht⟩⟩
  case mmlX ref term =>
    simp only [exec, execMmlX] at h
    obtain ⟨sc, hs, ht⟩ := onUnit_next h
    refine ⟨sc, hs, ?_⟩
    split at ht
    · exact unitEffect_failed ht
    · split at ht
      · exact .inr (.inl ⟨_, ht⟩)
      · exact .inr (.inr (.inl ⟨ref, term, _, _, rfl, ht⟩))
  case mmlN n dot =>
    simp only [exec, execMmlN] at h
    obtain ⟨sc, hs, ht⟩ := onUnit_next h
    refine ⟨sc, hs, ?_⟩
    rcases needNum_cases n s _ with ⟨_, he⟩ | ⟨m, _, he⟩ <;> rw [he] at ht
    · exact unitEffect_failed ht
    · split at ht
      · exact unitEffect_failed ht
      · refine .inr (.inr (.inr (.inr (.inr (.inr ⟨_, .inl ⟨n, dot, rfl⟩, ?_, ht⟩)))))
        split
        · exact unitEvent_admissible _ _ _ _ _ (le_refl _) (duration_nonneg _ _ _) (Nat.zero_le _)
        · exact unitEvent_admissible _ _ _ _ _ (noteFreq_nonneg _ _) (duration_nonneg _ _ _)
            (Nat.le_of_lt_succ (s.ps.get sc.turn).vol.isLt)
  case mmlL n =>
    simp only [exec, execMmlL] at h
    obtain ⟨sc, hs, ht⟩ := onUnit_next h
    refine ⟨sc, hs, ?_⟩
    rcases needNum_cases n s _ with ⟨_, he⟩ | ⟨m, _, he⟩ <;> rw [he] at ht
    · exact unitEffect_failed ht
    · split at ht
      · exact .inr (.inr (.inr (.inr (.inr (.inl ⟨_, .inl ⟨n, _, rfl, rfl⟩, ht⟩)))))
      · exact unitEffect_failed ht
  case mmlT n =>
    simp only [exec, execMmlT] at h
    obtain ⟨sc, hs, ht⟩ := onUnit_next h
    refine ⟨sc, hs, ?_⟩
    rcases needNum_cases n s _ with ⟨_, he⟩ | ⟨m, _, he⟩ <;> rw [he] at ht
    · exact unitEffect_failed ht
    · split at ht
      · exact .inr (.inr (.inr (.inr (.inr (.inl ⟨_, .inr (.inl ⟨n, _, rfl, rfl⟩), ht⟩)))))
      · exact unitEffect_failed ht
  case mmlO n =>
    simp only [exec, execMmlO] at h
    obtain ⟨sc, hs, ht⟩ := onUnit_next h
    refine ⟨sc, hs, ?_⟩
    rcases needNum_cases n s _ with ⟨_, he⟩ | ⟨m, _, he⟩ <;> rw [he] at ht
    · exact unitEffect_failed ht
    · exact .inr (.inr (.inr (.inr (.inr (.inl ⟨_, .inr (.inr (.inl ⟨n, _, rfl, rfl⟩)), ht⟩)))))
  case mmlUp =>
    simp only [exec, execMmlUp] at h
    obtain ⟨sc, hs, ht⟩ := onUnit_next h
    exact ⟨sc, hs, .inr (.inr (.inr (.inr (.inr (.inl
      ⟨_, .inr (.inr (.inr (.inr (.inl ⟨_, .inl rfl, rfl⟩)))), ht⟩)))))⟩
  case mmlDown =>
    simp only [exec, execMmlDown] at h
    obtain ⟨sc, hs, ht⟩ := onUnit_next h
    exact ⟨sc, hs, .inr (.inr (.inr (.inr (.inr (.inl
      ⟨_, .inr (.inr (.inr (.inr (.inl ⟨_, .inr rfl, rfl⟩)))), ht⟩)))))⟩
  case mmlA acc len dot =>
    simp only [exec, execMmlA] at h
    exact noteUnit_effect (l := .A) rfl h
  case mmlB acc len dot =>
    simp only [exec, execMmlB] at h
    exact noteUnit_effect (l := .B) rfl h
  case mmlC acc len dot =>
    simp only [exec, execMmlC] at h
    exact noteUnit_effect (l := .C) rfl h
  case mmlD acc len dot =>
    simp only [exec, execMmlD] at h
    exact noteUnit_effect (l := .D) rfl h
  case mmlE acc len dot =>
    simp only [exec, execMmlE] at h
    exact noteUnit_effect (l := .E) rfl h
  case mmlF acc len dot =>
    simp only [exec, execMmlF] at h
    exact noteUnit_effect (l := .F) rfl h
  case mmlG acc len dot =>
    simp only [exec, execMmlG] at h
    exact noteUnit_effect (l := .G) rfl h
  case mmlP len dot =>
    simp only [exec, execMmlP] at h
    obtain ⟨sc, hs, ht⟩ := onUnit_next h
    refine ⟨sc, hs, ?_⟩
    cases h2 : noteLength len (s.ps.get sc.turn) with
    | none => rw [h2] at ht; exact unitEffect_failed ht
    | some ln =>
      rw [h2] at ht
      refine .inr (.inr (.inr (.inr (.inr (.inr ⟨_, .inr (.inl ⟨len, dot, rfl⟩), ?_, ht⟩)))))
      exact unitEvent_admissible _ _ _ _ _ (le_refl _) (duration_nonneg _ _ _)
        (Nat.le_of_lt_succ (s.ps.get sc.turn).vol.isLt)
  case mmlMN =>
    simp only [exec, execMmlMN] at h
    obtain ⟨sc, hs, ht⟩ := onUnit_next h
    exact ⟨sc, hs, .inr (.inr (.inr (.inr (.inr (.inl
      ⟨_, .inr (.inr (.inr (.inr (.inr ⟨_, .inl rfl, rfl⟩)))), ht⟩)))))⟩
  case mmlML =>
    simp only [exec, execMmlML] at h
    obtain ⟨sc, hs, ht⟩ := onUnit_next h
    exact ⟨sc, hs, .inr (.inr (.inr (.inr (.inr (.inl
      ⟨_, .inr (.inr (.inr (.inr (.inr ⟨_, .inr (.inl rfl), rfl⟩)))), ht⟩)))))⟩
  case mmlMS =>
    simp only [exec, execMmlMS] at h
    obtain ⟨sc, hs, ht⟩ := onUnit_next h
    exact ⟨sc, hs, .inr (.inr (.inr (.inr (.inr (.inl
      ⟨_, .inr (.inr (.inr (.inr (.inr ⟨_, .inr (.inr rfl), rfl⟩)))), ht⟩)))))⟩
  case mmlMF =>
    simp only [exec, execMmlMF] at h
    obtain ⟨sc, hs, ht⟩ := onUnit_next h
    exact ⟨sc, hs, .inr (.inr (.inr (.inl ⟨rfl, ht⟩)))⟩
  case mmlMB =>
    simp only [exec, execMmlMB] at h
    obtain ⟨sc, hs, ht⟩ := onUnit_next h
    exact ⟨sc, hs, .inr (.inr (.inr (.inr (.inl ⟨rfl, ht⟩))))⟩
  case mmlMOther suffix =>
    simp only [exec, execMmlMOther] at h
    obtain ⟨sc, hs, ht⟩ := onUnit_next h
    exact ⟨sc, hs, unitEffect_failed ht⟩
  case mmlV n =>
    simp only [exec, execMmlV] at h
    obtain ⟨sc, hs, ht⟩ := onUnit_next h
    refine ⟨sc, hs, ?_⟩
    split at ht
    · rename_i hv
      rcases needNum_cases n s _ with ⟨_, he⟩ | ⟨m, _, he⟩ <;> rw [he] at ht
      · exact unitEffect_failed ht
      · exact .inr (.inr (.inr (.inr (.inr (.inl
          ⟨_, .inr (.inr (.inr (.inl ⟨n, _, rfl, hv, rfl⟩))), ht⟩)))))
    · exact unitEffect_failed ht
  case mmlOther b =>
    simp only [exec, execMmlOther] at h
    obtain ⟨sc, hs, ht⟩ := onUnit_next h
    exact ⟨sc, hs, unitEffect_failed ht⟩

/-! ### Decoded units -/

theorem readMode_isUnit (r : List Byte) : hostOpcode (readMode r).1 = none := by
  cases r with
  | nil => rfl
  | cons b r => simp only [readMode]; split <;> rfl

theorem readSplice_isUnit (r : List Byte) : hostOpcode (readSplice r).1 = none := by
  unfold readSplice; split <;> rfl

theorem readNumDot_isUnit (r : List Byte) : hostOpcode (readNumDot .mmlN r).1 = none := by
  unfold readNumDot; split <;> rfl

/-- The bytes of a text spell MML units only. -/
theorem decodeUnit_isUnit {bs rest : List Byte} {i : Instr} (h : decodeUnit bs = some (i, rest)) :
    hostOpcode i = none := by
  cases bs with
  | nil => simp [decodeUnit] at h
  | cons c r =>
    have hi : i = (decodeFrom c r).1 := by
      simp only [decodeUnit, Option.some.injEq] at h; rw [h]
    rw [hi]
    unfold decodeFrom
    split <;> first | rfl | exact readSplice_isUnit r | exact readNumDot_isUnit r | exact readMode_isUnit r

/-- What a turn of the round robin finds. -/
theorem scanAction_cases (sc : Scan) :
    (scanAction sc = .finished ∧ sc.anyActive = false) ∨
    (∃ act, scanAction sc = .pass { sc with active := act, turn := nextTurn sc.turn } ∧
      (act = sc.active ∨ act = sc.active.set sc.turn false)) ∨
    (∃ i rest, decodeUnit (sc.remaining sc.turn) = some (i, rest) ∧ sc.active.get sc.turn = true ∧
      scanAction sc = .unit i
        { sc with pos := sc.pos.set sc.turn ((sc.buf.get sc.turn).length - rest.length) }) := by
  cases ha : sc.anyActive with
  | false => exact .inl ⟨by simp [scanAction, ha], rfl⟩
  | true =>
    cases ht : sc.active.get sc.turn with
    | false => exact .inr (.inl ⟨sc.active, by simp [scanAction, ha, ht], .inl rfl⟩)
    | true =>
      cases hd : decodeUnit (sc.remaining sc.turn) with
      | none => exact .inr (.inl ⟨_, by simp only [scanAction, ha, ht, hd, if_true], .inr rfl⟩)
      | some x => exact .inr (.inr ⟨x.1, x.2, rfl, rfl, by simp [scanAction, ha, ht, hd]⟩)

/-! ### Host commands -/

/-- The outputs of an instruction that completes: none, or those of the bytes it stores (R76, R165). -/
def outputsOf (i : Instr) (s : State) (l : List Emit) : Prop :=
  l = [] ∨ (∃ off val b, i = .poke off val ∧ l = memWrite s.cfg (effAddr s.seg off.toInt 0) b) ∨
  (∃ off n data, i = .writeBlock off n ∧ s.chan = [.bytes data] ∧ data.length = n.toNat ∧
    l = writeBlock s.cfg s.seg off.toInt data) ∨
  (∃ isNone off fileOff p, i = .bload isNone off ∧ s.chan = [.file fileOff p] ∧ (trim s.cfg p).length ≤ 65535 ∧
    l = writeBlock s.cfg s.seg (if isNone then fileOff.toNat else off.toInt) (trim s.cfg p))

/-- What a host command can do when it is taken. -/
def hostEffect (i : Instr) (s t : State) : Prop :=
  (∃ q st, (st = .ifc ∨ st = .range) ∧ t = (s.consulted q).failed st) ∨
  (∃ q l d, outputsOf i s l ∧ t = ((s.consulted q).delivered l).completed d) ∨
  (∃ b a x, i = .setSegment b a ∧ t = ({ s with seg := x } : State).completed .nothing) ∨
  (∃ v e, (i = .enqueue v ∨ i = .playAndWait v) ∧ e.admissible v = true ∧ s.room v = true ∧
    (t = (s.withEvent v e).completed .nothing ∨ t = { s.withEvent v e with out := some (.backPressure v) })) ∨
  (∃ c, c.isPlay = false ∧ c.admits = true ∧ t = { s with out := some c }) ∨
  (i = .stopAll ∧ t = s.flush.completed .nothing) ∨
  (i = .soundReset ∧ t = s.flush.soundDefaults.completed .nothing) ∨
  (∃ k l, i = .play k ∧ 1 ≤ l.length ∧ l.length ≤ 3 ∧
    t = { s with out := some .playScan, scan := some (initScan l) })

theorem asked_effect {i : Instr} (s : State) (q : List Ask) (d : RespData) :
    hostEffect i s ((s.consulted q).completed d) :=
  .inr (.inl ⟨q, [], d, .inl rfl, by simp [State.delivered]⟩)

theorem completed_effect {i : Instr} (s : State) (d : RespData) : hostEffect i s (s.completed d) :=
  .inr (.inl ⟨[], [], d, .inl rfl, by simp [State.delivered, State.consulted]⟩)

theorem State.consulted_nil (s : State) : s.consulted [] = s := State.asked_nil s

theorem State.consulted_consulted (s : State) (p q : List Ask) :
    (s.consulted p).consulted q = s.consulted (p ++ q) := by simp [State.consulted]

/-- Everything a host command can do. -/
theorem exec_host {i : Instr} {s t : State} {op : Nat} (hi : hostOpcode i = some op) (h : exec i s = .next t) :
    (∃ q, t = (s.consulted q).turnedAway) ∨ (s.out = none ∧ hostEffect i s t) := by
  have turned : t = s.turnedAway → ∃ q, t = (s.consulted q).turnedAway :=
    fun ht => ⟨[], by rw [ht, State.consulted_nil]⟩
  cases i <;> simp only [hostOpcode, reduceCtorEq] at hi
  case peek off =>
    simp only [exec, execPeek] at h
    rcases command_cases h with ⟨ho, _, rfl⟩ | ⟨_, ht⟩
    · rcases protCheck_cases (peekBody off) s with ⟨_, he⟩ | ⟨_, he⟩
      · rw [he]
        rcases peekBody_cases off (s.consulted protAsks) with ⟨b, _, he⟩ | ⟨_, he⟩ <;>
          rw [he, State.consulted_consulted]
        · exact .inr ⟨ho, asked_effect _ _ _⟩
        · exact .inl ⟨_, rfl⟩
      · rw [he]; exact .inr ⟨ho, .inl ⟨_, _, .inl rfl, rfl⟩⟩
    · exact .inl (turned ht)
  case poke off val =>
    simp only [exec, execPoke] at h
    rcases command_cases h with ⟨ho, _, rfl⟩ | ⟨_, ht⟩
    · rcases protCheck_cases (pokeBody off val) s with ⟨_, he⟩ | ⟨_, he⟩
      · rw [he]
        unfold pokeBody
        split
        · exact .inr ⟨ho, .inr (.inl ⟨_, _, _, .inr (.inl ⟨off, val, _, rfl, rfl⟩), rfl⟩)⟩
        · exact .inr ⟨ho, .inl ⟨_, _, .inr rfl, rfl⟩⟩
      · rw [he]; exact .inr ⟨ho, .inl ⟨_, _, .inl rfl, rfl⟩⟩
    · exact .inl (turned ht)
  case readBlock off n =>
    simp only [exec, execReadBlock] at h
    rcases command_cases h with ⟨ho, _, rfl⟩ | ⟨_, ht⟩
    · rcases readBlockBody_cases off n s with ⟨bs, _, he⟩ | ⟨_, he⟩ <;> rw [he]
      · exact .inr ⟨ho, asked_effect _ _ _⟩
      · exact .inl ⟨_, rfl⟩
    · exact .inl (turned ht)
  case writeBlock off n =>
    simp only [exec, execWriteBlock] at h
    split at h
    · rename_i data hc
      rcases command_cases h with ⟨ho, hv, rfl⟩ | ⟨_, ht⟩
      · simp only [Bool.and_eq_true, beq_iff_eq] at hv
        exact .inr ⟨ho, .inr (.inl ⟨[], _, _, .inr (.inr (.inl ⟨off, n, data, rfl, hc, hv.2, rfl⟩)), by
          rw [State.consulted_nil]; rfl⟩)⟩
      · exact .inl (turned ht)
    · exact .inl (turned (Host.Outcome.next.inj h).symm)
  case setSegment isNone value =>
    simp only [exec, execSetSegment] at h
    rcases command_cases h with ⟨ho, _, rfl⟩ | ⟨_, ht⟩
    · exact .inr ⟨ho, .inr (.inr (.inl ⟨_, _, _, rfl, rfl⟩))⟩
    · exact .inl (turned ht)
  case bload isNone off =>
    simp only [exec, execBload] at h
    split at h
    · rename_i f p hc
      rcases command_cases h with ⟨ho, _, rfl⟩ | ⟨_, ht⟩
      · rcases protCheck_cases (bloadBody isNone off f p) s with ⟨_, he⟩ | ⟨_, he⟩
        · rw [he]
          simp only [bloadBody]
          split
          · exact .inl ⟨_, rfl⟩
          · rename_i hl
            exact .inr ⟨ho, .inr (.inl ⟨_, _, _,
              .inr (.inr (.inr ⟨isNone, off, f, p, rfl, hc, Nat.le_of_not_lt hl, rfl⟩)), rfl⟩)⟩
        · rw [he]; exact .inr ⟨ho, .inl ⟨_, _, .inl rfl, rfl⟩⟩
      · exact .inl (turned ht)
    · exact .inl (turned (Host.Outcome.next.inj h).symm)
  case bsave off n =>
    simp only [exec, execBsave] at h
    rcases command_cases h with ⟨ho, _, rfl⟩ | ⟨_, ht⟩
    · rcases protCheck_cases (bsaveBody off n) s with ⟨_, he⟩ | ⟨_, he⟩
      · rw [he]
        rcases bsaveBody_cases off n (s.consulted protAsks) with ⟨p, _, he⟩ | ⟨_, he⟩ <;>
          rw [he, State.consulted_consulted]
        · exact .inr ⟨ho, asked_effect _ _ _⟩
        · exact .inl ⟨_, rfl⟩
      · rw [he]; exact .inr ⟨ho, .inl ⟨_, _, .inl rfl, rfl⟩⟩
    · exact .inl (turned ht)
  case enqueue v =>
    simp only [exec, execEnqueue] at h
    split at h
    · rename_i e _
      rcases command_cases h with ⟨ho, ha, rfl⟩ | ⟨_, ht⟩
      · rcases enqueueFrom_cases v e s with ⟨hr, he⟩ | ⟨_, he⟩
        · exact .inr ⟨ho, .inr (.inr (.inr (.inl ⟨v, e, .inl rfl, ha, hr, .inl he⟩)))⟩
        · exact .inr ⟨ho, .inr (.inr (.inr (.inr (.inl ⟨.enqueue v e, rfl, ha, he⟩))))⟩
      · exact .inl (turned ht)
    · exact .inl (turned (Host.Outcome.next.inj h).symm)
  case playAndWait v =>
    simp only [exec, execPlayAndWait] at h
    split at h
    · rename_i e _
      rcases command_cases h with ⟨ho, ha, rfl⟩ | ⟨_, ht⟩
      · rcases playAndWaitFrom_cases v e s with ⟨hr, _, he⟩ | ⟨hr, _, he⟩ | ⟨_, he⟩
        · exact .inr ⟨ho, .inr (.inr (.inr (.inl ⟨v, e, .inr rfl, ha, hr, .inl he⟩)))⟩
        · exact .inr ⟨ho, .inr (.inr (.inr (.inl ⟨v, e, .inr rfl, ha, hr, .inr he⟩)))⟩
        · exact .inr ⟨ho, .inr (.inr (.inr (.inr (.inl ⟨.playAndWait v e, rfl, ha, he⟩))))⟩
      · exact .inl (turned ht)
    · exact .inl (turned (Host.Outcome.next.inj h).symm)
  case waitDepth mask depth =>
    simp only [exec, execWaitDepth] at h
    rcases command_cases h with ⟨ho, _, rfl⟩ | ⟨_, ht⟩
    · rcases waitDepthFrom_cases mask depth.toNat s with ⟨_, he⟩ | ⟨_, he⟩ <;> rw [he]
      · exact .inr ⟨ho, completed_effect _ _⟩
      · exact .inr ⟨ho, .inr (.inr (.inr (.inr (.inl ⟨_, rfl, rfl, rfl⟩))))⟩
    · exact .inl (turned ht)
  case waitIdle mask =>
    simp only [exec, execWaitIdle] at h
    rcases command_cases h with ⟨ho, _, rfl⟩ | ⟨_, ht⟩
    · rcases waitIdleFrom_cases mask s with ⟨_, he⟩ | ⟨_, he⟩ <;> rw [he]
      · exact .inr ⟨ho, completed_effect _ _⟩
      · exact .inr ⟨ho, .inr (.inr (.inr (.inr (.inl ⟨_, rfl, rfl, rfl⟩))))⟩
    · exact .inl (turned ht)
  case stopAll =>
    simp only [exec, execStopAll] at h
    rcases command_cases h with ⟨ho, _, rfl⟩ | ⟨_, ht⟩
    · exact .inr ⟨ho, .inr (.inr (.inr (.inr (.inr (.inl ⟨rfl, rfl⟩)))))⟩
    · exact .inl (turned ht)
  case isPlaying v =>
    simp only [exec, execIsPlaying] at h
    rcases command_cases h with ⟨ho, _, rfl⟩ | ⟨_, ht⟩
    · exact .inr ⟨ho, completed_effect _ _⟩
    · exact .inl (turned ht)
  case qlen v =>
    simp only [exec, execQlen] at h
    rcases command_cases h with ⟨ho, _, rfl⟩ | ⟨_, ht⟩
    · exact .inr ⟨ho, completed_effect _ _⟩
    · exact .inl (turned ht)
  case play k =>
    simp only [exec, execPlay] at h
    split at h
    · rename_i l _
      rcases command_cases h with ⟨ho, hv, rfl⟩ | ⟨_, ht⟩
      · simp only [Bool.and_eq_true, bne_iff_ne, ne_eq, beq_iff_eq] at hv
        have hk : k.toNat ≠ 0 := fun h0 => hv.1 (BitVec.eq_of_toNat_eq (by simpa using h0))
        have := k.isLt
        exact .inr ⟨ho, .inr (.inr (.inr (.inr (.inr (.inr (.inr ⟨k, l, rfl, by omega, by omega, rfl⟩))))))⟩
      · exact .inl (turned ht)
    · exact .inl (turned (Host.Outcome.next.inj h).symm)
  case soundReset =>
    simp only [exec, execSoundReset] at h
    rcases command_cases h with ⟨ho, _, rfl⟩ | ⟨_, ht⟩
    · exact .inr ⟨ho, .inr (.inr (.inr (.inr (.inr (.inr (.inl ⟨rfl, rfl⟩))))))⟩
    · exact .inl (turned ht)
  all_goals exact .inl (turned (Host.Outcome.next.inj h).symm)

/-- What any instruction does: refused, a host command, or a unit of the scanning PLAY. -/
theorem exec_any {i : Instr} {s t : State} (h : exec i s = .next t) :
   (∃ q, t = (s.consulted q).turnedAway) ∨ (s.out = none ∧ hostEffect i s t) ∨ (hostOpcode i = none ∧ ∃ sc, s.scanning sc ∧
       unitEffect i s sc t) := by
  cases ho : hostOpcode i with
  | none => exact .inr (.inr ⟨rfl, exec_unit ho h⟩)
  | some op => rcases exec_host ho h with h | h; exact .inl h; exact .inr (.inl h)

/-- What `Emit` of a unit does with the event (R248). -/
theorem emitUnit_effect {s : State} {sc : Scan} (hs : s.scan = some sc) (e : Event) (p : PlayState) :
    let sc' := { sc with acc := sc.acc.set sc.turn (sc.acc.get sc.turn + e.dur) }
    (emitUnit sc.turn e (s.setPs sc.turn p) =
        { (s.setPs sc.turn p).withEvent sc.turn.queue e with scan := some sc' } ∧ s.room sc.turn.queue = true) ∨
      emitUnit sc.turn e (s.setPs sc.turn p) = { s.setPs sc.turn p with out := some (.playEmit sc.turn e) } := by
  intro sc'
  rcases emitUnit_cases (s := s.setPs sc.turn p) (sc := sc) hs sc.turn e with ⟨h, he⟩ | ⟨_, he⟩
  · exact .inl ⟨he, h⟩
  · exact .inr he

/-- `Emit` of a note or rest: its event joins the queue, or the PLAY holds with it. -/
theorem emitUnit_both {s : State} {sc : Scan} (h : s.scanning sc) (p : PlayState) (f : Freq) (d : Rat) (vol : Nat) :
    let t : State := { s with ps := s.ps.set sc.turn { p with eff := none } }
    let e : Event := { kind := .tone, freq := f, dur := d, fill := p.speed.ratio, loop := false, vol := vol }
    let sc' := { sc with acc := sc.acc.set sc.turn (sc.acc.get sc.turn + d) }
    (s.room sc.turn.queue = true → emitUnit sc.turn (unitEvent p f d vol) (s.setPs sc.turn p.clearEff) =
        { t.withEvent sc.turn.queue e with scan := some sc' }) ∧
      (s.room sc.turn.queue = false → emitUnit sc.turn (unitEvent p f d vol) (s.setPs sc.turn p.clearEff) =
          { t with out := some (.playEmit sc.turn e) }) := by
  intro t e sc'
  rcases emitUnit_cases (s := s.setPs sc.turn p.clearEff) (sc := sc) h.2 sc.turn e with ⟨hr, he⟩ | ⟨hr, he⟩
  · exact ⟨fun _ => he, fun hr' => absurd (hr.symm.trans hr') (by simp)⟩
  · exact ⟨fun hr' => absurd (hr.symm.trans hr') (by simp), fun _ => he⟩

/-- The end of a turn changes only the scanner. -/
theorem endTurn_fields (s : State) : s.endTurn.cfg = s.cfg ∧ s.endTurn.coll = s.coll ∧ s.endTurn.busy = s.busy ∧
    s.endTurn.cur = s.cur ∧ s.endTurn.inbox = s.inbox ∧ s.endTurn.refused = s.refused ∧ s.endTurn.events =
    s.events ∧ s.endTurn.resp = s.resp ∧ s.endTurn.seg = s.seg ∧ s.endTurn.queue = s.queue ∧ s.endTurn.ps = s.ps ∧
    s.endTurn.fg = s.fg ∧ s.endTurn.noiseFreq = s.noiseFreq ∧ s.endTurn.stopReq = s.stopReq ∧ s.endTurn.out =
    s.out ∧ s.endTurn.asks = s.asks := by
  unfold State.endTurn; split <;> simp

/-- A renderer step changes only the queues, what is in flight and STOP_REQ. -/
theorem renderer_fields (r : RendererStep) (s : State) : (rendererStep r s).cfg = s.cfg ∧ (rendererStep r s).coll =
    s.coll ∧ (rendererStep r s).inbox = s.inbox ∧ (rendererStep r s).refused = s.refused ∧
    (rendererStep r s).events = s.events ∧ (rendererStep r s).resp = s.resp ∧ (rendererStep r s).seg = s.seg ∧
    (rendererStep r s).ps = s.ps ∧ (rendererStep r s).fg = s.fg ∧ (rendererStep r s).noiseFreq = s.noiseFreq ∧
    (rendererStep r s).out = s.out ∧ (rendererStep r s).scan = s.scan ∧ (rendererStep r s).asks = s.asks := by
  rcases rendererStep_cases r s with h | ⟨v, e, q, _, _, _, _, h⟩ | ⟨v, _, _, h⟩ | ⟨_, _, h⟩ <;> rw [h] <;>
    exact ⟨rfl, rfl, rfl, rfl, rfl, rfl, rfl, rfl, rfl, rfl, rfl, rfl, rfl⟩

/-- What resuming a held command does: it completes, waits on, or appends one event. -/
theorem resume_effect (c : Cont) (s : State) :
    resume c s = s.completed .nothing ∨ (∃ c', resume c s = { s with out := some c' }) ∨
    (∃ v e, s.room v = true ∧
      (resume c s = (s.withEvent v e).completed .nothing ∨
        (∃ c', resume c s = { s.withEvent v e with out := some c' }) ∨
        (∃ c' sc', resume c s = { s.withEvent v e with out := some c', scan := some sc' }))) := by
  cases c with
  | enqueue v e =>
    rcases enqueueFrom_cases v e s with ⟨hr, h⟩ | ⟨_, h⟩ <;> rw [resume, h]
    · exact .inr (.inr ⟨v, e, hr, .inl rfl⟩)
    · exact .inr (.inl ⟨_, rfl⟩)
  | playAndWait v e =>
    rcases playAndWaitFrom_cases v e s with ⟨hr, _, h⟩ | ⟨hr, _, h⟩ | ⟨_, h⟩ <;> rw [resume, h]
    · exact .inr (.inr ⟨v, e, hr, .inl rfl⟩)
    · exact .inr (.inr ⟨v, e, hr, .inr (.inl ⟨_, rfl⟩)⟩)
    · exact .inr (.inl ⟨_, rfl⟩)
  | backPressure v =>
    rcases backPressureFrom_cases v s with ⟨_, h⟩ | ⟨_, h⟩ <;> rw [resume, h]
    · exact .inl rfl
    · exact .inr (.inl ⟨_, rfl⟩)
  | waitDepth m d =>
    rcases waitDepthFrom_cases m d s with ⟨_, h⟩ | ⟨_, h⟩ <;> rw [resume, h]
    · exact .inl rfl
    · exact .inr (.inl ⟨_, rfl⟩)
  | waitIdle m =>
    rcases waitIdleFrom_cases m s with ⟨_, h⟩ | ⟨_, h⟩ <;> rw [resume, h]
    · exact .inl rfl
    · exact .inr (.inl ⟨_, rfl⟩)
  | playScan => exact .inr (.inl ⟨_, rfl⟩)
  | playEmit v e =>
    simp only [resume, playEmitFrom]
    cases hr : s.room v.queue
    · exact .inr (.inl ⟨_, rfl⟩)
    · refine .inr (.inr ⟨v.queue, e, hr, ?_⟩)
      rcases Option.eq_none_or_eq_some s.scan with hs | ⟨sc, hs⟩
      · have h1 : (s.withEvent v.queue e).scan = none := hs
        have h2 : s.appendUnit v e = s.withEvent v.queue e := by
          unfold State.appendUnit State.addAcc; rw [State.append_eq, h1]
        rw [if_pos rfl, h2]
        exact .inr (.inl ⟨_, rfl⟩)
      · rw [if_pos rfl, State.appendUnit_eq hs]
        exact .inr (.inr ⟨_, _, rfl⟩)
  | playPad v =>
    simp only [resume]
    rcases padFrom_cases v s with h | h | ⟨sc, _, _, hr, h⟩ <;> rw [h]
    · rcases afterPad_cases v s with ⟨w, h⟩ | h | h <;> rw [h]
      · exact .inr (.inl ⟨_, rfl⟩)
      · exact .inl rfl
      · exact .inr (.inl ⟨_, rfl⟩)
    · exact .inr (.inl ⟨_, rfl⟩)
    · refine .inr (.inr ⟨_, padEvent (sc.maxAcc - sc.acc.get v), hr, ?_⟩)
      rcases afterPad_cases v ((s.withEvent v.queue (padEvent (sc.maxAcc - sc.acc.get v))).setScan
        { sc with acc := sc.acc.set v sc.maxAcc }) with ⟨w, h⟩ | h | h <;> rw [h]
      · exact .inr (.inr ⟨_, _, rfl⟩)
      · exact .inl rfl
      · exact .inr (.inr ⟨_, _, rfl⟩)
  | playForeground =>
    rcases foregroundFrom_cases s with ⟨_, h⟩ | ⟨_, h⟩ <;> rw [resume, h]
    · exact .inl rfl
    · exact .inr (.inl ⟨_, rfl⟩)

/-- `M` of R267. -/
theorem maxAcc_eq {sc : Scan} {m : Rat} (h1 : ∀ w : ToneVoice, w.idx < sc.k → sc.acc.get w ≤ m) (h2 : ∃ w :
    ToneVoice, w.idx < sc.k ∧ sc.acc.get w = m) : sc.maxAcc = m := by
  obtain ⟨w, hw, rfl⟩ := h2
  have a0 := h1 .v0; have a1 := h1 .v1; have a2 := h1 .v2
  simp only [ToneVoice.idx, Tri.get] at a0 a1 a2
  have hk : sc.k = 0 ∨ sc.k = 1 ∨ sc.k = 2 ∨ 3 ≤ sc.k := by omega
  rcases hk with hk | hk | hk | hk
  · omega
  · simp only [Scan.maxAcc, Scan.voices, ToneVoice.all, ToneVoice.idx, hk]
    cases w <;> simp_all [Tri.get, ToneVoice.idx]
  · simp only [Scan.maxAcc, Scan.voices, ToneVoice.all, ToneVoice.idx, hk]
    cases w <;> simp_all [Tri.get, ToneVoice.idx]
  · have e1 : 0 < sc.k := by omega
    have e2 : 1 < sc.k := by omega
    have e3 : 2 < sc.k := by omega
    simp only [Scan.maxAcc, Scan.voices, ToneVoice.all, ToneVoice.idx]
    cases w <;> simp_all [Tri.get, ToneVoice.idx]

end Sys2Proof.Machine
end

