-- ==== Sys2Proof/Laws/Inv.lean ====
section
/-!
SUPPORT. How the invariant is kept, field by field.
-/

namespace Sys2Proof.Machine

/-- A step that touches only the command state and makes outputs keeps the rest of the invariant. -/
theorem State.inv_of_command {s t : State} (h : s.Inv) (h1 : t.cfg = s.cfg) (h2 : t.queue = s.queue) (h3 : t.cur =
    s.cur) (h4 : t.busy = s.busy) (h5 : t.noiseFreq = s.noiseFreq)
   (h6 : ∃ l : List Emit, t.coll = l.foldl Collab.receive s.coll)
   (a : t.scan.isSome = (t.out.map Cont.isPlay).getD false) (b : ∀ sc, t.scan = some sc → sc.Ok) (c : ∀ c, t.out =
       some c → c.admits = true) : t.Inv := by
  refine ⟨?_, ?_, ?_, ?_, ?_, ?_, ?_, a, b, c, ?_, ?_, ?_⟩
  · rw [h1]; exact h.config
  · rw [h1, h2]; exact h.depth
  · rw [h2]; exact h.queued
  · rw [h3]; exact h.current
  · rw [h3, h4]; exact h.inFlight
  · rw [h5, h1]; exact h.noiseSize
  · rw [h5]; exact h.noiseSign
  · obtain ⟨l, h6⟩ := h6; rw [h6]; exact Collab.receives_font_wf l h.fontWf
  · obtain ⟨l, h6⟩ := h6; rw [h6, Collab.receives_eq]; exact h.videoWf
  · obtain ⟨l, h6⟩ := h6; rw [h6, Collab.receives_eq]; exact h.dataWf

theorem linkNoise_length (l : List Nat) (f : Freq) (x : List Freq) : (linkNoise l f x).length = x.length := by
  unfold linkNoise
  induction l generalizing x with
  | nil => rfl
  | cons a l ih => simp [ih]

theorem linkNoise_nonneg (l : List Nat) (f : Freq) (hf : 0 ≤ f.coef) (x : List Freq) (hx : ∀ g ∈ x, 0 ≤ g.coef) :
    ∀ g ∈ linkNoise l f x, 0 ≤ g.coef := by
  unfold linkNoise
  induction l generalizing x with
  | nil => exact hx
  | cons a l ih =>
    refine ih _ ?_
    intro g hg
    rcases List.mem_or_eq_of_mem_set hg with h | h
    · exact hx g h
    · rw [h]; simp only [halfFreq]; exact div_nonneg hf (by norm_num)

/-- Appending an admissible event where there is room keeps the rest of the invariant. -/
theorem State.inv_of_event {s t : State} (h : s.Inv) {v : Voice} {e : Event} (ha : e.admissible v = true) (hr :
    s.room v = true)
   (h1 : t.cfg = s.cfg) (h2 : t.queue = (s.withEvent v e).queue) (h3 : t.cur = s.cur) (h4 : t.busy = s.busy) (h5 :
       t.noiseFreq = (s.withEvent v e).noiseFreq) (h6 : t.coll = s.coll)
   (a : t.scan.isSome = (t.out.map Cont.isPlay).getD false) (b : ∀ sc, t.scan = some sc → sc.Ok) (c : ∀ c, t.out =
       some c → c.admits = true) : t.Inv := by
  have ha' := (Event.admissible_iff e v).1 ha
  refine ⟨?_, ?_, ?_, ?_, ?_, ?_, ?_, a, b, c, ?_, ?_, ?_⟩
  · rw [h1]; exact h.config
  · rw [h1, h2]; intro w n hn
    by_cases hw : w = v
    · subst hw
      have := (s.room_iff w).1 hr n hn
      rw [State.withEvent_queue_self]; simp; omega
    · rw [State.withEvent_queue_ne _ _ hw]; exact h.depth w n hn
  · rw [h2]; intro w x hx
    by_cases hw : w = v
    · subst hw
      rw [State.withEvent_queue_self] at hx
      rcases List.mem_append.1 hx with hx | hx
      · exact h.queued w x hx
      · rw [List.mem_singleton] at hx; rw [hx]; exact ha
    · rw [State.withEvent_queue_ne _ _ hw] at hx; exact h.queued w x hx
  · rw [h3]; exact h.current
  · rw [h3, h4]; exact h.inFlight
  · rw [h5, h1]; simp only [State.withEvent]; split
    · rw [linkNoise_length]; exact h.noiseSize
    · exact h.noiseSize
  · rw [h5]; simp only [State.withEvent]; split
    · exact linkNoise_nonneg _ _ ha'.2.1 _ h.noiseSign
    · exact h.noiseSign
  · rw [h6]; exact h.fontWf
  · rw [h6]; exact h.videoWf
  · rw [h6]; exact h.dataWf

/-- A total that is not negative keeps the scanner sound. -/
theorem Scan.ok_acc {sc : Scan} (h : sc.Ok) (v : ToneVoice) (x : Rat) (hx : 0 ≤ x) :
    ({ sc with acc := sc.acc.set v x } : Scan).Ok :=
  ⟨h.strings, h.cursor, fun w => by
    by_cases hw : w = v
    · subst hw; simp only [Tri.get_set_self]; exact hx
    · simp only [Tri.get_set_ne _ _ hw]; exact h.total w, h.participating⟩

/-- A cursor moved past a unit stays in its buffer. -/
theorem Scan.ok_pos {sc : Scan} (h : sc.Ok) (n : Nat) :
    ({ sc with pos := sc.pos.set sc.turn ((sc.buf.get sc.turn).length - n) } : Scan).Ok :=
  ⟨h.strings, fun v => by
    by_cases hv : v = sc.turn
    · subst hv; simp only [Tri.get_set_self]; omega
    · simp only [Tri.get_set_ne _ _ hv]; exact h.cursor v, h.total, h.participating⟩

theorem Scan.maxAcc_nonneg {sc : Scan} (h : sc.Ok) : 0 ≤ sc.maxAcc := by
  have hk := h.strings.1
  have h0 := h.total .v0
  have e : sc.voices = .v0 :: [ToneVoice.v1, ToneVoice.v2].filter (fun v => decide (v.idx < sc.k)) := by
    unfold Scan.voices ToneVoice.all
    rw [List.filter_cons, if_pos]
    exact decide_eq_true (by simp only [ToneVoice.idx]; omega)
  unfold Scan.maxAcc
  rw [e]
  simp only
  generalize [ToneVoice.v1, ToneVoice.v2].filter (fun v => decide (v.idx < sc.k)) = l
  generalize sc.acc.get .v0 = m at h0
  induction l generalizing m with
  | nil => exact h0
  | cons a l ih => exact ih _ (le_max_of_le_left h0)

end Sys2Proof.Machine
end

