-- ==== Sys2Proof/Laws/PerInstr.lean ====
section
/-!
SUPPORT. A statement about each instruction as syntax: its code is of its own language and opcode.
-/

namespace Sys2Proof.Laws

/-- A host command or reserved word is encoded under its own opcode (R125, R127); a unit is encoded in at least one byte
and has no opcode (R129, R134). -/
def EncodedOpcode.Statement (i : Instr) : Prop :=
  match encode i with
  | .word w => Machine.hostOpcode i = some (fieldOp w).toNat
  | .unit bytes => Machine.hostOpcode i = none ∧ bytes ≠ []

theorem EncodedOpcode.peek (off : BitVec 17) : EncodedOpcode.Statement (.peek off) :=
  by simp [EncodedOpcode.Statement, encode, Machine.hostOpcode]

theorem EncodedOpcode.poke (off val : BitVec 17) : EncodedOpcode.Statement (.poke off val) :=
  by simp [EncodedOpcode.Statement, encode, Machine.hostOpcode]

theorem EncodedOpcode.readBlock (off n : BitVec 17) : EncodedOpcode.Statement (.readBlock off n) :=
  by simp [EncodedOpcode.Statement, encode, Machine.hostOpcode]

theorem EncodedOpcode.writeBlock (off n : BitVec 17) : EncodedOpcode.Statement (.writeBlock off n) :=
  by simp [EncodedOpcode.Statement, encode, Machine.hostOpcode]

theorem EncodedOpcode.setSegment (isNone : Bool) (value : BitVec 17) : EncodedOpcode.Statement (.setSegment isNone value) :=
  by simp [EncodedOpcode.Statement, encode, Machine.hostOpcode]

theorem EncodedOpcode.bload (isNone : Bool) (off : BitVec 17) : EncodedOpcode.Statement (.bload isNone off) :=
  by simp [EncodedOpcode.Statement, encode, Machine.hostOpcode]

theorem EncodedOpcode.bsave (off n : BitVec 17) : EncodedOpcode.Statement (.bsave off n) :=
  by simp [EncodedOpcode.Statement, encode, Machine.hostOpcode]

theorem EncodedOpcode.enqueue (v : Voice) : EncodedOpcode.Statement (.enqueue v) :=
  by simp [EncodedOpcode.Statement, encode, Machine.hostOpcode]

theorem EncodedOpcode.playAndWait (v : Voice) : EncodedOpcode.Statement (.playAndWait v) :=
  by simp [EncodedOpcode.Statement, encode, Machine.hostOpcode]

theorem EncodedOpcode.waitDepth (mask : BitVec 4) (depth : BitVec 17) : EncodedOpcode.Statement (.waitDepth mask depth) :=
  by simp [EncodedOpcode.Statement, encode, Machine.hostOpcode]

theorem EncodedOpcode.waitIdle (mask : BitVec 4) : EncodedOpcode.Statement (.waitIdle mask) :=
  by simp [EncodedOpcode.Statement, encode, Machine.hostOpcode]

theorem EncodedOpcode.stopAll : EncodedOpcode.Statement .stopAll :=
  by simp [EncodedOpcode.Statement, encode, Machine.hostOpcode]

theorem EncodedOpcode.isPlaying (v : Voice) : EncodedOpcode.Statement (.isPlaying v) :=
  by simp [EncodedOpcode.Statement, encode, Machine.hostOpcode]

theorem EncodedOpcode.qlen (v : Voice) : EncodedOpcode.Statement (.qlen v) :=
  by simp [EncodedOpcode.Statement, encode, Machine.hostOpcode]

theorem EncodedOpcode.play (k : BitVec 2) : EncodedOpcode.Statement (.play k) :=
  by simp [EncodedOpcode.Statement, encode, Machine.hostOpcode]

theorem EncodedOpcode.soundReset : EncodedOpcode.Statement .soundReset :=
  by simp [EncodedOpcode.Statement, encode, Machine.hostOpcode]

theorem EncodedOpcode.mmlNop : EncodedOpcode.Statement .mmlNop := ⟨rfl, List.cons_ne_nil _ _⟩

theorem EncodedOpcode.mmlX (ref : List Byte) (term : Bool) : EncodedOpcode.Statement (.mmlX ref term) :=
  ⟨rfl, List.cons_ne_nil _ _⟩

theorem EncodedOpcode.mmlN (n : Option Nat) (dot : Bool) : EncodedOpcode.Statement (.mmlN n dot) :=
  ⟨rfl, List.cons_ne_nil _ _⟩

theorem EncodedOpcode.mmlL (n : Option Nat) : EncodedOpcode.Statement (.mmlL n) := ⟨rfl, List.cons_ne_nil _ _⟩

theorem EncodedOpcode.mmlT (n : Option Nat) : EncodedOpcode.Statement (.mmlT n) := ⟨rfl, List.cons_ne_nil _ _⟩

theorem EncodedOpcode.mmlO (n : Option Nat) : EncodedOpcode.Statement (.mmlO n) := ⟨rfl, List.cons_ne_nil _ _⟩

theorem EncodedOpcode.mmlUp : EncodedOpcode.Statement .mmlUp := ⟨rfl, List.cons_ne_nil _ _⟩

theorem EncodedOpcode.mmlDown : EncodedOpcode.Statement .mmlDown := ⟨rfl, List.cons_ne_nil _ _⟩

theorem EncodedOpcode.mmlA (acc : Option Acc) (len : Option Nat) (dot : Bool) : EncodedOpcode.Statement (.mmlA acc len dot) :=
  ⟨rfl, List.cons_ne_nil _ _⟩

theorem EncodedOpcode.mmlB (acc : Option Acc) (len : Option Nat) (dot : Bool) : EncodedOpcode.Statement (.mmlB acc len dot) :=
  ⟨rfl, List.cons_ne_nil _ _⟩

theorem EncodedOpcode.mmlC (acc : Option Acc) (len : Option Nat) (dot : Bool) : EncodedOpcode.Statement (.mmlC acc len dot) :=
  ⟨rfl, List.cons_ne_nil _ _⟩

theorem EncodedOpcode.mmlD (acc : Option Acc) (len : Option Nat) (dot : Bool) : EncodedOpcode.Statement (.mmlD acc len dot) :=
  ⟨rfl, List.cons_ne_nil _ _⟩

theorem EncodedOpcode.mmlE (acc : Option Acc) (len : Option Nat) (dot : Bool) : EncodedOpcode.Statement (.mmlE acc len dot) :=
  ⟨rfl, List.cons_ne_nil _ _⟩

theorem EncodedOpcode.mmlF (acc : Option Acc) (len : Option Nat) (dot : Bool) : EncodedOpcode.Statement (.mmlF acc len dot) :=
  ⟨rfl, List.cons_ne_nil _ _⟩

theorem EncodedOpcode.mmlG (acc : Option Acc) (len : Option Nat) (dot : Bool) : EncodedOpcode.Statement (.mmlG acc len dot) :=
  ⟨rfl, List.cons_ne_nil _ _⟩

theorem EncodedOpcode.mmlP (len : Option Nat) (dot : Bool) : EncodedOpcode.Statement (.mmlP len dot) :=
  ⟨rfl, List.cons_ne_nil _ _⟩

theorem EncodedOpcode.mmlMN : EncodedOpcode.Statement .mmlMN := ⟨rfl, List.cons_ne_nil _ _⟩

theorem EncodedOpcode.mmlML : EncodedOpcode.Statement .mmlML := ⟨rfl, List.cons_ne_nil _ _⟩

theorem EncodedOpcode.mmlMS : EncodedOpcode.Statement .mmlMS := ⟨rfl, List.cons_ne_nil _ _⟩

theorem EncodedOpcode.mmlMF : EncodedOpcode.Statement .mmlMF := ⟨rfl, List.cons_ne_nil _ _⟩

theorem EncodedOpcode.mmlMB : EncodedOpcode.Statement .mmlMB := ⟨rfl, List.cons_ne_nil _ _⟩

theorem EncodedOpcode.mmlMOther (suffix : Option Byte) : EncodedOpcode.Statement (.mmlMOther suffix) :=
  by cases suffix <;> simp [EncodedOpcode.Statement, encode, Machine.hostOpcode]

theorem EncodedOpcode.mmlV (n : Option Nat) : EncodedOpcode.Statement (.mmlV n) := ⟨rfl, List.cons_ne_nil _ _⟩

theorem EncodedOpcode.mmlOther (b : Byte) : EncodedOpcode.Statement (.mmlOther b) := ⟨rfl, List.cons_ne_nil _ _⟩

theorem EncodedOpcode.reserved00 (rest : BitVec 59) : EncodedOpcode.Statement (.reserved00 rest) :=
  by simp [EncodedOpcode.Statement, encode, Machine.hostOpcode]

theorem EncodedOpcode.reserved11 (rest : BitVec 59) : EncodedOpcode.Statement (.reserved11 rest) :=
  by simp [EncodedOpcode.Statement, encode, Machine.hostOpcode]

theorem EncodedOpcode.reserved12 (rest : BitVec 59) : EncodedOpcode.Statement (.reserved12 rest) :=
  by simp [EncodedOpcode.Statement, encode, Machine.hostOpcode]

theorem EncodedOpcode.reserved13 (rest : BitVec 59) : EncodedOpcode.Statement (.reserved13 rest) :=
  by simp [EncodedOpcode.Statement, encode, Machine.hostOpcode]

theorem EncodedOpcode.reserved14 (rest : BitVec 59) : EncodedOpcode.Statement (.reserved14 rest) :=
  by simp [EncodedOpcode.Statement, encode, Machine.hostOpcode]

theorem EncodedOpcode.reserved15 (rest : BitVec 59) : EncodedOpcode.Statement (.reserved15 rest) :=
  by simp [EncodedOpcode.Statement, encode, Machine.hostOpcode]

theorem EncodedOpcode.reserved16 (rest : BitVec 59) : EncodedOpcode.Statement (.reserved16 rest) :=
  by simp [EncodedOpcode.Statement, encode, Machine.hostOpcode]

theorem EncodedOpcode.reserved17 (rest : BitVec 59) : EncodedOpcode.Statement (.reserved17 rest) :=
  by simp [EncodedOpcode.Statement, encode, Machine.hostOpcode]

theorem EncodedOpcode.reserved18 (rest : BitVec 59) : EncodedOpcode.Statement (.reserved18 rest) :=
  by simp [EncodedOpcode.Statement, encode, Machine.hostOpcode]

theorem EncodedOpcode.reserved19 (rest : BitVec 59) : EncodedOpcode.Statement (.reserved19 rest) :=
  by simp [EncodedOpcode.Statement, encode, Machine.hostOpcode]

theorem EncodedOpcode.reserved1A (rest : BitVec 59) : EncodedOpcode.Statement (.reserved1A rest) :=
  by simp [EncodedOpcode.Statement, encode, Machine.hostOpcode]

theorem EncodedOpcode.reserved1B (rest : BitVec 59) : EncodedOpcode.Statement (.reserved1B rest) :=
  by simp [EncodedOpcode.Statement, encode, Machine.hostOpcode]

theorem EncodedOpcode.reserved1C (rest : BitVec 59) : EncodedOpcode.Statement (.reserved1C rest) :=
  by simp [EncodedOpcode.Statement, encode, Machine.hostOpcode]

theorem EncodedOpcode.reserved1D (rest : BitVec 59) : EncodedOpcode.Statement (.reserved1D rest) :=
  by simp [EncodedOpcode.Statement, encode, Machine.hostOpcode]

theorem EncodedOpcode.reserved1E (rest : BitVec 59) : EncodedOpcode.Statement (.reserved1E rest) :=
  by simp [EncodedOpcode.Statement, encode, Machine.hostOpcode]

theorem EncodedOpcode.reserved1F (rest : BitVec 59) : EncodedOpcode.Statement (.reserved1F rest) :=
  by simp [EncodedOpcode.Statement, encode, Machine.hostOpcode]

end Sys2Proof.Laws
end

