-- ==== Sys2Proof/Laws/Router.lean ====
section
/-!
SUPPORT. What the parts of a block transfer give, and where a low-memory address lies.
-/

namespace Sys2Proof.Machine

/-- What `collect` gives: the value of `f` at each index. -/
theorem collect_some {f : Nat → Option Byte} {i n : Nat} {bs} (h : collect f i n = some bs) : bs.length = n ∧
    ∀ j < n, f (i + j) = some (bs.getD j 0) := by
  induction n generalizing i bs with
  | zero => simp [collect] at h; subst h; simp
  | succ n ih =>
    simp only [collect] at h
    split at h
    · rename_i b bs' h1 h2
      cases h
      obtain ⟨h3, h4⟩ := ih h2
      refine ⟨by simp [h3], fun j hj => ?_⟩
      cases j with
      | zero => simpa using h1
      | succ j => have := h4 j (by omega); rw [show i + (j+1) = i + 1 + j by omega]; simpa using this
    · cases h

/-- When `collect` gives none. -/
theorem collect_none {f : Nat → Option Byte} {i n : Nat} : collect f i n = none ↔ ∃ j < n, f (i + j) = none := by
  induction n generalizing i with
  | zero => simp [collect]
  | succ n ih =>
    simp only [collect]
    split
    · rename_i b bs' h1 h2
      simp
      intro j hj hn
      cases j with
      | zero => simp [h1] at hn
      | succ j =>
        have : collect f (i+1) n = none := ih.2 ⟨j, by omega, by rw [show i + 1 + j = i + (j+1) by omega]; exact hn⟩
        rw [h2] at this; cases this
    · rename_i hno
      simp
      cases h1 : f i with
      | none => exact ⟨0, by omega, by simpa using h1⟩
      | some b =>
        cases h2 : collect f (i+1) n with
        | none =>
          obtain ⟨j, hj, hh⟩ := ih.1 h2
          exact ⟨j + 1, by omega, by rw [show i + (j+1) = i + 1 + j by omega]; exact hh⟩
        | some bs => exact absurd h2 (hno b bs h1)

/-- Where all values are there, every query is made, in order. -/
theorem collectAsks_some {f : Nat → Option Byte} {ask : Nat → List Ask} {i n : Nat} {bs : List Byte}
    (h : collect f i n = some bs) : collectAsks f ask i n = (List.range' i n).flatMap ask := by
  induction n generalizing i bs with
  | zero => rfl
  | succ n ih =>
    simp only [collect] at h
    split at h
    · rename_i b bs' h1 h2
      simp [collectAsks, h1, ih h2, List.range'_succ]
    · cases h

/-- Where a value is missing, the queries are made up to the first missing one. -/
theorem collectAsks_none {f : Nat → Option Byte} {ask : Nat → List Ask} {i n : Nat} (h : collect f i n = none) :
    ∃ j < n, f (i + j) = none ∧ (∀ m < j, (f (i + m)).isSome = true) ∧
      collectAsks f ask i n = (List.range' i (j + 1)).flatMap ask := by
  induction n generalizing i with
  | zero => simp [collect] at h
  | succ n ih =>
    cases h1 : f i with
    | none => exact ⟨0, by omega, h1, by simp, by simp [collectAsks, h1]⟩
    | some b =>
      cases h2 : collect f (i + 1) n with
      | some bs => simp [collect, h1, h2] at h
      | none =>
        obtain ⟨j, hj, hn, hm, he⟩ := ih h2
        refine ⟨j + 1, by omega, by rw [← hn]; congr 1; omega, fun m hlt => ?_, ?_⟩
        · cases m with
          | zero => simp [h1]
          | succ m => rw [show i + (m + 1) = i + 1 + m by omega]; exact hm m (by omega)
        · rw [collectAsks, he, List.range'_succ (n := j + 1)]
          simp [h1]

theorem rangeBytes_some {n l bs} (h : rangeBytes n l = some bs) : l.length = n ∧ (∀ x ∈ l, 0 ≤ x ∧ x < 256) ∧ bs =
    l.map (fun x => BitVec.ofInt 8 x) := by
  unfold rangeBytes at h
  split at h
  · rename_i hc
    cases h
    refine ⟨hc.1, fun x hx => ?_, rfl⟩
    have := (List.all_eq_true.1 hc.2) x hx
    simpa using this
  · cases h

theorem rangeBytes_ok {n l} (h1 : l.length = n) (h2 : ∀ x ∈ l, 0 ≤ x ∧ x < 256) : rangeBytes n l =
    some (l.map (fun x => BitVec.ofInt 8 x)) := by
  unfold rangeBytes
  rw [if_pos]
  refine ⟨h1, List.all_eq_true.2 fun x hx => ?_⟩
  have := h2 x hx
  simp [this]

/-- The video indices of a span (R161). -/
theorem mem_videoIndices {c seg off n i} : i ∈ videoIndices c seg off n ↔ i < n ∧ isVideo c (effAddr seg off i) =
    true := by
  simp [videoIndices]

/-- An address inside a field is found there: fields do not overlap (R84). -/
theorem lowField_mem {c : Config} (hw : c.wf = true) (f : LowField) (j : Nat) (hj : j < f.width) :
    lowField c (c.lowmem.of f + j) = some (f, j) := by
  have hmem : ∀ f : LowField, f ∈ LowField.all := by intro f; cases f <;> decide
  simp only [Config.wf, Bool.and_eq_true, decide_eq_true_eq] at hw
  have hdis : ∀ f g : LowField, f = g ∨ c.lowmem.of f + f.width ≤ c.lowmem.of g ∨
      c.lowmem.of g + g.width ≤ c.lowmem.of f := by
    intro f g
    have := hw.1.1.1.1.1.1.1.1.1.1.1.1.1.1.2
    have := (List.all_eq_true.1 ((List.all_eq_true.1 this) f (hmem f))) g (hmem g)
    simpa [LowmemAddr.disjoint] using this
  unfold lowField
  have key : LowField.all.find? (fun g => decide (c.lowmem.of g ≤ c.lowmem.of f + j) && decide (c.lowmem.of f + j <
      c.lowmem.of g + g.width)) = some f := by
    cases hf : LowField.all.find? (fun g => decide (c.lowmem.of g ≤ c.lowmem.of f + j) && decide (c.lowmem.of f + j
        < c.lowmem.of g + g.width)) with
    | none =>
      have := List.find?_eq_none.1 hf f (hmem f)
      simp at this; omega
    | some g =>
      have := List.find?_some hf
      simp at this
      rcases hdis f g with rfl | h | h
      · rfl
      · omega
      · omega
  rw [key]; simp

end Sys2Proof.Machine
end

