-- ==== Sys2Proof/Tests/Slice0.lean ====
section
/-!
SUPPORT. Small tests. Expected values come from the spec's tables and examples, named in each comment; each test runs one
step. The last part gives, for every obligation with hypotheses, a state and operands that meet them.
-/

namespace Sys2Proof.Tests

open Sys2Proof.Machine

/-! ### Helpers -/

/-- A field of the next state, if there is one. -/
def nextOf {α : Type} (f : State → α) : Host.Outcome State Fault Refusal → Option α
  | .next s => some (f s)
  | .fault _ => none
  | .refused _ => none

/-- The last response of the next state. -/
def answerOf (o : Host.Outcome State Fault Refusal) : Option Response := (nextOf (fun s => s.resp.getLast?) o).join

/-- A tone of R203's example. -/
def tone : Event :=
  { kind := .tone, freq := Freq.ofRat 440, dur := 1 / 2, fill := 7 / 8, loop := false, vol := 15 }

/-- The tone a unit emits (R248). -/
def note (freq : Freq) (dur fill : Rat) (vol : Nat) : Event :=
  { kind := .tone, freq := freq, dur := dur, fill := fill, loop := false, vol := vol }

/-- A noise event. -/
def hiss : Event := { tone with kind := .noise true }

/-- The reset state with another segment. -/
def inSegment (seg : BitVec 16) : State := { State.reset with seg := seg }

/-- The reset state with data-channel items. -/
def withItems (items : List DataItem) : State := { State.reset with chan := items }

/-- The reset state with n tones queued on voice 0. -/
def queued (n : Nat) : State :=
  { State.reset with queue := { v0 := List.replicate n tone, v1 := [], v2 := [], noise := [] } }

/-- A PLAY of one string that has moved past all of it: a unit that ran at its end acts from here. -/
def scanned (bytes : List Byte) : Scan := { initScan [bytes] with pos := { v0 := bytes.length, v1 := 0, v2 := 0 } }

/-- The reset state in a PLAY's scan. -/
def inPlay (sc : Scan) : State := { State.reset with out := some .playScan, scan := some sc }

/-- The reset state where a unit of an otherwise empty PLAY runs. -/
def unitState : State := inPlay (scanned [])

/-- A program that is protected and not running. -/
def locked (s : State) : State := { s with coll := { s.coll with isProtected := true } }

/-! ### Well-formedness: one ill-formed term for each check -/

theorem test_illFormed_peek_offset : (Instr.wf (.peek 0x17FFF)) = false := by decide

theorem test_illFormed_poke_offset : (Instr.wf (.poke 0x17FFF 0)) = false := by decide

theorem test_illFormed_readBlock_offset : (Instr.wf (.readBlock 0x17FFF 1)) = false := by decide

theorem test_illFormed_readBlock_length : (Instr.wf (.readBlock 0 0x1FFFF)) = false := by decide

theorem test_illFormed_writeBlock_offset : (Instr.wf (.writeBlock 0x17FFF 1)) = false := by decide

theorem test_illFormed_writeBlock_length : (Instr.wf (.writeBlock 0 0x10000)) = false := by decide

theorem test_illFormed_bsave_offset : (Instr.wf (.bsave 0x17FFF 1)) = false := by decide

theorem test_illFormed_bsave_length : (Instr.wf (.bsave 0 0x10000)) = false := by decide

theorem test_illFormed_setSegment_none : (Instr.wf (.setSegment true 1)) = false := by decide

theorem test_illFormed_setSegment_value : (Instr.wf (.setSegment false 0x17FFF)) = false := by decide

theorem test_illFormed_bload_none : (Instr.wf (.bload true 1)) = false := by decide

theorem test_illFormed_bload_offset : (Instr.wf (.bload false 0x17FFF)) = false := by decide

theorem test_illFormed_waitDepth_depth : (Instr.wf (.waitDepth 1 0x1FFFF)) = false := by decide

theorem test_illFormed_play_count : (Instr.wf (.play 0)) = false := by decide

theorem test_illFormed_mmlX_semicolon : (Instr.wf (.mmlX [0x3B] true)) = false := by decide

theorem test_illFormed_mmlN_dot : (Instr.wf (.mmlN none true)) = false := by decide

theorem test_illFormed_mmlN_number : (Instr.wf (.mmlN none false)) = false := by decide

theorem test_illFormed_mmlL_number : (Instr.wf (.mmlL none)) = false := by decide

theorem test_illFormed_mmlT_number : (Instr.wf (.mmlT none)) = false := by decide

theorem test_illFormed_mmlO_number : (Instr.wf (.mmlO none)) = false := by decide

theorem test_illFormed_mmlV_number : (Instr.wf (.mmlV none)) = false := by decide

theorem test_illFormed_mmlMOther_suffix : (Instr.wf (.mmlMOther (some 0x6E))) = false := by decide

theorem test_illFormed_mmlOther_command : (Instr.wf (.mmlOther 0x78)) = false := by decide

/-- The ends of the ranges of R126: offset -32768, offset and length 65535. -/
theorem test_wellFormed_bounds :
    (Instr.wf (.peek 0x18000) && Instr.wf (.readBlock 0x0FFFF 0x0FFFF)) = true := by decide

/-! ### Decoding: each constructor from its code, fields in the order Z, B, A, F, OP (R121, R125) -/

theorem test_decode_peek :
    decodeWord (0#21 ++ 0#17 ++ 0x0500#17 ++ 0b0000#4 ++ 0b00001#5) = .ok (.peek 0x0500) := by decide

theorem test_decode_poke :
    decodeWord (0#21 ++ 0x18#17 ++ 0x0500#17 ++ 0b0000#4 ++ 0b00010#5) = .ok (.poke 0x0500 0x18) := by decide

theorem test_decode_readBlock :
    decodeWord (0#21 ++ 4#17 ++ 0x000E#17 ++ 0b0000#4 ++ 0b00011#5) = .ok (.readBlock 0x000E 4) := by decide

theorem test_decode_writeBlock :
    decodeWord (0#21 ++ 2#17 ++ 0x0500#17 ++ 0b0000#4 ++ 0b00100#5) = .ok (.writeBlock 0x0500 2) := by decide

theorem test_decode_setSegment :
    decodeWord (0#21 ++ 0#17 ++ 0x1A000#17 ++ 0b0000#4 ++ 0b00101#5) = .ok (.setSegment false 0x1A000) := by decide

theorem test_decode_bload :
    decodeWord (0#21 ++ 0#17 ++ 0#17 ++ 0b0001#4 ++ 0b00110#5) = .ok (.bload true 0) := by decide

theorem test_decode_bsave :
    decodeWord (0#21 ++ 1#17 ++ 0x0010#17 ++ 0b0000#4 ++ 0b00111#5) = .ok (.bsave 0x0010 1) := by decide

theorem test_decode_enqueue :
    decodeWord (0#21 ++ 0#17 ++ 0#17 ++ 0b0010#4 ++ 0b01000#5) = .ok (.enqueue .v2) := by decide

theorem test_decode_playAndWait :
    decodeWord (0#21 ++ 0#17 ++ 0#17 ++ 0b0011#4 ++ 0b01001#5) = .ok (.playAndWait .noise) := by decide

theorem test_decode_waitDepth :
    decodeWord (0#21 ++ 0#17 ++ 0x0FFFF#17 ++ 0b1010#4 ++ 0b01010#5) = .ok (.waitDepth 0xA 0x0FFFF) := by decide

theorem test_decode_waitIdle :
    decodeWord (0#21 ++ 0#17 ++ 0#17 ++ 0b0110#4 ++ 0b01011#5) = .ok (.waitIdle 6) := by decide

theorem test_decode_stopAll : decodeWord (0#21 ++ 0#17 ++ 0#17 ++ 0b0000#4 ++ 0b01100#5) = .ok .stopAll := by decide

theorem test_decode_isPlaying :
    decodeWord (0#21 ++ 0#17 ++ 0#17 ++ 0b0001#4 ++ 0b01101#5) = .ok (.isPlaying .v1) := by decide

theorem test_decode_qlen : decodeWord (0#21 ++ 0#17 ++ 0#17 ++ 0b0000#4 ++ 0b01110#5) = .ok (.qlen .v0) := by decide

theorem test_decode_play : decodeWord (0#21 ++ 0#17 ++ 0#17 ++ 0b0011#4 ++ 0b01111#5) = .ok (.play 3) := by decide

theorem test_decode_soundReset :
    decodeWord (0#21 ++ 0#17 ++ 0#17 ++ 0b0000#4 ++ 0b10000#5) = .ok .soundReset := by decide

theorem test_decode_z : decodeWord (1#21 ++ 0#17 ++ 0#17 ++ 0b0000#4 ++ 0b01100#5) = .error .zNonzero := by decide

theorem test_decode_marked :
    decodeWord (0#21 ++ 0#17 ++ 0#17 ++ 0b0100#4 ++ 0b01000#5) = .error .fNonzero := by decide

theorem test_decode_mmlNop : decodeUnit [0x3B, 0x3B] = some (.mmlNop, [0x3B]) := by decide

theorem test_decode_mmlX :
    decodeUnit [0x78, 0x41, 0x24, 0x3B, 0x45] = some (.mmlX [0x41, 0x24] true, [0x45]) := by decide

theorem test_decode_mmlN : decodeUnit [0x4E, 0x35, 0x38, 0x2E] = some (.mmlN (some 58) true, []) := by decide

theorem test_decode_mmlL : decodeUnit [0x6C, 0x38, 0x43] = some (.mmlL (some 8), [0x43]) := by decide

theorem test_decode_mmlT : decodeUnit [0x54, 0x30, 0x36, 0x30] = some (.mmlT (some 60), []) := by decide

theorem test_decode_mmlO : decodeUnit [0x4F, 0x39, 0x39] = some (.mmlO (some 99), []) := by decide

theorem test_decode_mmlUp : decodeUnit [0x3E, 0x3E] = some (.mmlUp, [0x3E]) := by decide

theorem test_decode_mmlDown : decodeUnit [0x3C] = some (.mmlDown, []) := by decide

theorem test_decode_mmlA : decodeUnit [0x41, 0x2D] = some (.mmlA (some .flat) none false, []) := by decide

theorem test_decode_mmlB : decodeUnit [0x62, 0x34, 0x2E] = some (.mmlB none (some 4) true, []) := by decide

theorem test_decode_mmlC : decodeUnit [0x43, 0x2E, 0x34] = some (.mmlC none none true, [0x34]) := by decide

theorem test_decode_mmlD :
    decodeUnit [0x44, 0x2B, 0x31, 0x36] = some (.mmlD (some .sharp) (some 16) false, []) := by decide

theorem test_decode_mmlE : decodeUnit [0x45, 0x20] = some (.mmlE none none false, [0x20]) := by decide

theorem test_decode_mmlF : decodeUnit [0x66, 0x23] = some (.mmlF (some .sharp) none false, []) := by decide

theorem test_decode_mmlG : decodeUnit [0x47] = some (.mmlG none none false, []) := by decide

theorem test_decode_mmlP : decodeUnit [0x50, 0x23] = some (.mmlP none false, [0x23]) := by decide

theorem test_decode_mmlMN : decodeUnit [0x6D, 0x6E] = some (.mmlMN, []) := by decide

theorem test_decode_mmlML : decodeUnit [0x4D, 0x4C] = some (.mmlML, []) := by decide

theorem test_decode_mmlMS : decodeUnit [0x4D, 0x53] = some (.mmlMS, []) := by decide

theorem test_decode_mmlMF : decodeUnit [0x4D, 0x46] = some (.mmlMF, []) := by decide

theorem test_decode_mmlMB : decodeUnit [0x4D, 0x62, 0x5A] = some (.mmlMB, [0x5A]) := by decide

theorem test_decode_mmlMOther : decodeUnit [0x4D, 0x78] = some (.mmlMOther (some 0x78), []) := by decide

theorem test_decode_mmlMOther_end : decodeUnit [0x4D] = some (.mmlMOther none, []) := by decide

theorem test_decode_mmlV : decodeUnit [0x56, 0x39, 0x39] = some (.mmlV (some 99), []) := by decide

theorem test_decode_mmlOther : decodeUnit [0xE1, 0x43] = some (.mmlOther 0xE1, [0x43]) := by decide

theorem test_decode_reserved00 : decodeWord (5#59 ++ 0b00000#5) = .ok (.reserved00 5) := by decide

theorem test_decode_reserved11 : decodeWord (5#59 ++ 0b10001#5) = .ok (.reserved11 5) := by decide

theorem test_decode_reserved12 : decodeWord (5#59 ++ 0b10010#5) = .ok (.reserved12 5) := by decide

theorem test_decode_reserved13 : decodeWord (5#59 ++ 0b10011#5) = .ok (.reserved13 5) := by decide

theorem test_decode_reserved14 : decodeWord (5#59 ++ 0b10100#5) = .ok (.reserved14 5) := by decide

theorem test_decode_reserved15 : decodeWord (5#59 ++ 0b10101#5) = .ok (.reserved15 5) := by decide

theorem test_decode_reserved16 : decodeWord (5#59 ++ 0b10110#5) = .ok (.reserved16 5) := by decide

theorem test_decode_reserved17 : decodeWord (5#59 ++ 0b10111#5) = .ok (.reserved17 5) := by decide

theorem test_decode_reserved18 : decodeWord (5#59 ++ 0b11000#5) = .ok (.reserved18 5) := by decide

theorem test_decode_reserved19 : decodeWord (5#59 ++ 0b11001#5) = .ok (.reserved19 5) := by decide

theorem test_decode_reserved1A : decodeWord (5#59 ++ 0b11010#5) = .ok (.reserved1A 5) := by decide

theorem test_decode_reserved1B : decodeWord (5#59 ++ 0b11011#5) = .ok (.reserved1B 5) := by decide

theorem test_decode_reserved1C : decodeWord (5#59 ++ 0b11100#5) = .ok (.reserved1C 5) := by decide

theorem test_decode_reserved1D : decodeWord (5#59 ++ 0b11101#5) = .ok (.reserved1D 5) := by decide

theorem test_decode_reserved1E : decodeWord (5#59 ++ 0b11110#5) = .ok (.reserved1E 5) := by decide

theorem test_decode_reserved1F : decodeWord (5#59 ++ 0b11111#5) = .ok (.reserved1F 5) := by decide

/-! ### One step of each host command -/

/-- R162: with SEG = 0xC000, PEEK 0x0500 returns Font.get(128, 0). -/
theorem test_peek :
    answerOf (exec (.peek 0x0500) { inSegment 0xC000 with
      coll := { Collab.empty with font := { cells := [(glyphKey 128 0, 0x18)], bad := [] } } }) =
    some { status := .ok, data := .byte 0x18 } := by decide

/-- R62: SEG = 0xFFFF, off = 0x0010 gives EA 0. -/
theorem test_peek_wraps :
    answerOf (exec (.peek 0x0010) { inSegment 0xFFFF with
      cfg := { Config.sample with overrides := [(0, 0x77)] } }) = some { status := .ok, data := .byte 0x77 } := by decide

/-- 95_test_vectors.md 5.1: after POKE 0x0500, 0x18 in segment 0xC000 that address reads 0x18, and the next one as before;
R163: SEG = 0xF000, POKE 0xFA6E, 0x55 writes nothing and answers OK. -/
theorem test_poke :
    nextOf (fun s => (memRead s.cfg s.coll 0xC0500, memRead s.cfg s.coll 0xC0501)) (exec (.poke 0x0500 0x18)
      (inSegment 0xC000)) = some (.byte 0x18, .unmapped) ∧
    nextOf (fun s => (s.events, s.resp)) (exec (.poke 0x0FA6E 0x55) (inSegment 0xF000)) =
      some ([], [{ status := .ok, data := .nothing }]) := by decide

/-- R163, R302: a value above 255. -/
theorem test_poke_range :
    answerOf (exec (.poke 0 300) State.reset) = some { status := .range, data := .nothing } := by decide

/-- R164: SEG = 0x9FFF, READ_BLOCK 0x000E, 4 makes two data-region gets, then one Video.get_range(0, 2). -/
theorem test_readBlock :
    nextOf (fun s => (s.asks, s.resp)) (exec (.readBlock 0x000E 4) { inSegment 0x9FFF with
      coll := { Collab.empty with
        data := { cells := [(0x9FFFE - 0x13AD0, 1), (0x9FFFF - 0x13AD0, 2)], bad := [] }
        video := { cells := [(0, 3), (1, 4)], bad := [] } } }) =
    some ([.dataGet 0x8C52E, .dataGet 0x8C52F, .videoGetRange 0 2], [{ status := .ok, data := .bytes [1, 2, 3, 4] }]) := by
  decide

/-- R165: SEG = 0xC000, WRITE_BLOCK 0x0500, 2, [0x18, 0x3C]. -/
theorem test_writeBlock :
    nextOf (fun s => s.events) (exec (.writeBlock 0x0500 2) { inSegment 0xC000 with chan := [.bytes [0x18, 0x3C]] }) =
    some [.fontSet 128 0 0x18, .rebuildGlyph 128, .fontSet 128 1 0x3C, .rebuildGlyph 128] := by decide

/-- R166: SET_SEGMENT -24576 gives 0xA000. -/
theorem test_setSegment :
    nextOf (fun s => s.seg) (exec (.setSegment false (-24576)) State.reset) = some 0xA000 := by decide

/-- R166: none gives DATA_SEG. -/
theorem test_setSegment_none :
    nextOf (fun s => s.seg) (exec (.setSegment true 0) (inSegment 7)) = some 0x13AD := by decide

/-- R168: the payload [0xFF, 0x1A] writes 0xFF to glyph 128 row 0. -/
theorem test_bload :
    nextOf (fun s => s.events) (exec (.bload false 0x0500) { inSegment 0xC000 with chan := [.file 0 [0xFF, 0x1A]] }) =
    some [.fontSet 128 0 0xFF, .rebuildGlyph 128] := by decide

/-- R160: protected and not running. -/
theorem test_bload_locked :
    answerOf (exec (.bload true 0) (locked (withItems [.file 0 [1]]))) =
      some { status := .ifc, data := .nothing } := by decide

/-- R170: the trailer of BSAVE 0x0010, 1 with SEG = 0x1234 on Tandy. -/
theorem test_bsave :
    answerOf (exec (.bsave 0x0010 1) { inSegment 0x1234 with
      cfg := { Config.sample with tandy := true, overrides := [(0x12350, 0x5A)] } }) =
    some { status := .ok, data := .fileOut 0x1234 0x0010 1 [0x5A, 0xFD, 0x34, 0x12, 0x10, 0x00, 0x01, 0x00] } := by
  decide

/-- R203: ENQUEUE 2 of 440 Hz sets the linked noise entries to 220 Hz. -/
theorem test_enqueue :
    nextOf (fun s => (s.queue.v2, s.noiseFreq[3]?, s.noiseFreq[4]?)) (exec (.enqueue .v2) (withItems [.event tone])) =
    some ([tone], some (Freq.ofRat 220), some Freq.zero) := by decide +kernel

/-- R200: noise on a tone voice. -/
theorem test_enqueue_kind :
    answerOf (exec (.enqueue .v0) (withItems [.event hiss])) =
      some { status := .refused, data := .nothing } := by decide

/-- R204: with 16 queued before, the command holds. -/
theorem test_playAndWait :
    nextOf (fun s => (s.out, s.resp)) (exec (.playAndWait .v0) { queued 16 with chan := [.event tone] }) =
    some (some (.backPressure .v0), []) := by decide +kernel

/-- R204: with 16 queued after the append it returns at once. -/
theorem test_playAndWait_now :
    nextOf (fun s => s.out) (exec (.playAndWait .v0) { queued 15 with chan := [.event tone] }) =
      some none := by decide +kernel

/-- R205: raw = [3, 0, 0, 0], WAIT_DEPTH {0}, 1 holds. -/
theorem test_waitDepth :
    nextOf (fun s => s.out) (exec (.waitDepth 1 1) (queued 3)) = some (some (.waitDepth 1 1)) := by decide

/-- R205: raw(0) = 2 is shallow enough for depth 1. -/
theorem test_waitDepth_now : nextOf (fun s => s.out) (exec (.waitDepth 15 1) (queued 2)) = some none := by decide

/-- R206: the test uses raw: one queued event holds. -/
theorem test_waitIdle :
    nextOf (fun s => s.out) (exec (.waitIdle 1) (queued 1)) = some (some (.waitIdle 1)) := by decide

/-- R206: voice 0 is not selected. -/
theorem test_waitIdle_mask : nextOf (fun s => s.out) (exec (.waitIdle 14) (queued 1)) = some none := by decide

/-- R207: every queue is emptied and the renderer told. -/
theorem test_stopAll :
    nextOf (fun s => (s.queue, s.stopReq, s.events)) (exec .stopAll (queued 5)) =
    some ({ v0 := [], v1 := [], v2 := [], noise := [] }, true, [.rendererStop]) := by decide

/-- R208: raw(0) = 2. -/
theorem test_isPlaying :
    answerOf (exec (.isPlaying .v0) (queued 2)) = some { status := .ok, data := .bool true } := by decide

/-- R208, R336: one queued event and nothing in flight. -/
theorem test_isPlaying_quirk :
    answerOf (exec (.isPlaying .v0) (queued 1)) = some { status := .ok, data := .bool false } := by decide

/-- R209: one fewer than the depth. -/
theorem test_qlen : answerOf (exec (.qlen .v0) (queued 3)) = some { status := .ok, data := .nat 2 } := by decide

/-- R209: 0 for an empty queue. -/
theorem test_qlen_empty :
    answerOf (exec (.qlen .v0) State.reset) = some { status := .ok, data := .nat 0 } := by decide

/-- R240, R241: PLAY "C" begins its scan. -/
theorem test_play :
    nextOf (fun s => (s.out, s.scan)) (exec (.play 1) (withItems [.bytes [0x43]])) =
    some (some .playScan, some (initScan [[0x43]])) := by decide

/-- R123: K strings. -/
theorem test_play_count :
    answerOf (exec (.play 2) (withItems [.bytes [0x43]])) = some { status := .refused, data := .nothing } := by decide

/-- R210: PlayState and FG at their reset values, a stop raised. -/
theorem test_soundReset :
    nextOf (fun s => (s.ps.v0, s.fg, s.stopReq)) (exec .soundReset { State.reset with
      ps := { v0 := { PlayState.default with oct := 2, speed := .staccato }, v1 := PlayState.default, v2 := PlayState.default }
      fg := false }) = some (PlayState.default, true, true) := by decide

/-! ### One step of each MML unit, at the reset PlayState (T120, L4, octave 4) -/

/-- R249: nothing beyond its byte. -/
theorem test_mmlNop : nextOf (fun s => s) (exec .mmlNop unitState) = some unitState := by decide

/-- R250: "XA$;E" with A$ = "CD" goes on with C, D, E. -/
theorem test_mmlX :
    nextOf (fun s => s.scan.map (fun sc => sc.remaining .v0)) (exec (.mmlX [0x41, 0x24] true) { inPlay
      { initScan [[0x58, 0x41, 0x24, 0x3B, 0x45]] with pos := { v0 := 4, v1 := 0, v2 := 0 } } with
      coll := { Collab.empty with strings := [([0x41, 0x24], [0x43, 0x44])] } }) = some (some [0x43, 0x44, 0x45]) := by decide

/-- R251: N58 is 440 Hz. -/
theorem test_mmlN :
    nextOf (fun s => s.queue.v0) (exec (.mmlN (some 58) false) unitState) =
      some [note (Freq.ofRat 440) (1 / 2) (7 / 8) 15] := by decide +kernel

/-- R251: N0 is a rest with volume 0; a dot is 3/2. -/
theorem test_mmlN_zero :
    nextOf (fun s => s.queue.v0) (exec (.mmlN (some 0) true) unitState) =
      some [note Freq.zero (3 / 4) (7 / 8) 0] := by decide +kernel

/-- R252. -/
theorem test_mmlL : nextOf (fun s => s.ps.v0.lenN.val) (exec (.mmlL (some 8)) unitState) = some 8 := by decide

/-- R253. -/
theorem test_mmlT :
    nextOf (fun s => s.ps.v0.tempoN.val) (exec (.mmlT (some 60)) unitState) = some 60 := by decide

/-- R253: T0. -/
theorem test_mmlT_zero :
    nextOf (fun s => s.resp) (exec (.mmlT (some 0)) unitState) =
      some [{ status := .ifc, data := .nothing }] := by decide

/-- R254: O99 gives 6. -/
theorem test_mmlO : nextOf (fun s => s.ps.v0.oct) (exec (.mmlO (some 99)) unitState) = some 6 := by decide

/-- R255. -/
theorem test_mmlUp :
    nextOf (fun s => (s.ps.v0.eff, s.ps.v0.oct)) (exec .mmlUp unitState) = some (some 5, 4) := by decide

/-- R256: < at octave 0 gives 0. -/
theorem test_mmlDown :
    nextOf (fun s => s.ps.v0.eff) (exec .mmlDown { unitState with ps := { unitState.ps with v0 := { PlayState.default with oct := 0 } } }) =
      some (some 0) := by decide

/-- R246, R247, R257: entry 57, 440 Hz. -/
theorem test_mmlA :
    nextOf (fun s => s.queue.v0) (exec (.mmlA none none false) unitState) =
      some [note (Freq.ofRat 440) (1 / 2) (7 / 8) 15] := by decide +kernel

/-- R246, R247, R257: B- is entry 58, one semitone above 440 Hz. -/
theorem test_mmlB :
    nextOf (fun s => s.queue.v0) (exec (.mmlB (some .flat) none false) unitState) =
      some [note { coef := 440, base := .semitone 1 } (1 / 2) (7 / 8) 15] := by decide +kernel

/-- R246, R247, R257: entry 48, 440 * 2^(-9/12) Hz. -/
theorem test_mmlC :
    nextOf (fun s => s.queue.v0) (exec (.mmlC none none false) unitState) =
      some [note { coef := 220, base := .semitone 3 } (1 / 2) (7 / 8) 15] := by decide +kernel

/-- R246, R247, R257: D# is entry 51. -/
theorem test_mmlD :
    nextOf (fun s => s.queue.v0) (exec (.mmlD (some .sharp) none false) unitState) =
      some [note { coef := 220, base := .semitone 6 } (1 / 2) (7 / 8) 15] := by decide +kernel

/-- R246, R247, R257: entry 52. -/
theorem test_mmlE :
    nextOf (fun s => s.queue.v0) (exec (.mmlE none none false) unitState) =
      some [note { coef := 220, base := .semitone 7 } (1 / 2) (7 / 8) 15] := by decide +kernel

/-- R246, R247, R257: F# is entry 54. -/
theorem test_mmlF :
    nextOf (fun s => s.queue.v0) (exec (.mmlF (some .sharp) none false) unitState) =
      some [note { coef := 220, base := .semitone 9 } (1 / 2) (7 / 8) 15] := by decide +kernel

/-- R246, R247, R257: entry 55. -/
theorem test_mmlG :
    nextOf (fun s => s.queue.v0) (exec (.mmlG none none false) unitState) =
      some [note { coef := 220, base := .semitone 10 } (1 / 2) (7 / 8) 15] := by decide +kernel

/-- R247: B# is not in the table. -/
theorem test_mmlB_sharp :
    nextOf (fun s => s.resp) (exec (.mmlB (some .sharp) none false) unitState) =
      some [{ status := .ifc, data := .nothing }] := by decide

/-- R258: P2 at T120. -/
theorem test_mmlP :
    nextOf (fun s => s.queue.v0) (exec (.mmlP (some 2) false) unitState) =
      some [note Freq.zero 1 (7 / 8) 15] := by decide +kernel

/-- R259. -/
theorem test_mmlMN :
    nextOf (fun s => s.ps.v0.speed) (exec .mmlMN { unitState with ps := { unitState.ps with v0 := { PlayState.default with speed := .staccato } } }) =
      some .normal := by decide

/-- R260. -/
theorem test_mmlML : nextOf (fun s => s.ps.v0.speed.ratio) (exec .mmlML unitState) = some 1 := by decide

/-- R261. -/
theorem test_mmlMS : nextOf (fun s => s.ps.v0.speed.ratio) (exec .mmlMS unitState) = some (3 / 4) := by decide +kernel

/-- R262. -/
theorem test_mmlMF :
    nextOf (fun s => s.fg) (exec .mmlMF { unitState with fg := false }) = some true := by decide

/-- R263. -/
theorem test_mmlMB : nextOf (fun s => s.fg) (exec .mmlMB unitState) = some false := by decide

/-- R264: MX fails. -/
theorem test_mmlMOther :
    nextOf (fun s => (s.out, s.resp)) (exec (.mmlMOther (some 0x58)) unitState) =
      some (none, [{ status := .ifc, data := .nothing }]) := by decide

/-- R265: V99 gives 15. -/
theorem test_mmlV :
    nextOf (fun s => s.ps.v0.vol) (exec (.mmlV (some 99)) { unitState with
      cfg := { Config.sample with perVoiceVolume := true }, ps := { unitState.ps with v0 := { PlayState.default with vol := 3 } } }) = some 15 := by decide

/-- R265: no per-voice volume. -/
theorem test_mmlV_absent :
    nextOf (fun s => s.resp) (exec (.mmlV (some 8)) unitState) =
      some [{ status := .ifc, data := .nothing }] := by decide

/-- R266: Z fails. -/
theorem test_mmlOther :
    nextOf (fun s => (s.scan, s.resp)) (exec (.mmlOther 0x5A) unitState) =
      some (none, [{ status := .ifc, data := .nothing }]) := by decide

/-! ### Reserved opcodes are refused (R127, R304) -/

theorem test_reserved00 :
    nextOf (fun s => (s.refused, s.resp)) (exec (.reserved00 5) State.reset) =
    some (true, [{ status := .refused, data := .nothing }]) := by decide

theorem test_reserved11 :
    nextOf (fun s => (s.refused, s.resp)) (exec (.reserved11 5) State.reset) =
    some (true, [{ status := .refused, data := .nothing }]) := by decide

theorem test_reserved12 :
    nextOf (fun s => (s.refused, s.resp)) (exec (.reserved12 5) State.reset) =
    some (true, [{ status := .refused, data := .nothing }]) := by decide

theorem test_reserved13 :
    nextOf (fun s => (s.refused, s.resp)) (exec (.reserved13 5) State.reset) =
    some (true, [{ status := .refused, data := .nothing }]) := by decide

theorem test_reserved14 :
    nextOf (fun s => (s.refused, s.resp)) (exec (.reserved14 5) State.reset) =
    some (true, [{ status := .refused, data := .nothing }]) := by decide

theorem test_reserved15 :
    nextOf (fun s => (s.refused, s.resp)) (exec (.reserved15 5) State.reset) =
    some (true, [{ status := .refused, data := .nothing }]) := by decide

theorem test_reserved16 :
    nextOf (fun s => (s.refused, s.resp)) (exec (.reserved16 5) State.reset) =
    some (true, [{ status := .refused, data := .nothing }]) := by decide

theorem test_reserved17 :
    nextOf (fun s => (s.refused, s.resp)) (exec (.reserved17 5) State.reset) =
    some (true, [{ status := .refused, data := .nothing }]) := by decide

theorem test_reserved18 :
    nextOf (fun s => (s.refused, s.resp)) (exec (.reserved18 5) State.reset) =
    some (true, [{ status := .refused, data := .nothing }]) := by decide

theorem test_reserved19 :
    nextOf (fun s => (s.refused, s.resp)) (exec (.reserved19 5) State.reset) =
    some (true, [{ status := .refused, data := .nothing }]) := by decide

theorem test_reserved1A :
    nextOf (fun s => (s.refused, s.resp)) (exec (.reserved1A 5) State.reset) =
    some (true, [{ status := .refused, data := .nothing }]) := by decide

theorem test_reserved1B :
    nextOf (fun s => (s.refused, s.resp)) (exec (.reserved1B 5) State.reset) =
    some (true, [{ status := .refused, data := .nothing }]) := by decide

theorem test_reserved1C :
    nextOf (fun s => (s.refused, s.resp)) (exec (.reserved1C 5) State.reset) =
    some (true, [{ status := .refused, data := .nothing }]) := by decide

theorem test_reserved1D :
    nextOf (fun s => (s.refused, s.resp)) (exec (.reserved1D 5) State.reset) =
    some (true, [{ status := .refused, data := .nothing }]) := by decide

theorem test_reserved1E :
    nextOf (fun s => (s.refused, s.resp)) (exec (.reserved1E 5) State.reset) =
    some (true, [{ status := .refused, data := .nothing }]) := by decide

theorem test_reserved1F :
    nextOf (fun s => (s.refused, s.resp)) (exec (.reserved1F 5) State.reset) =
    some (true, [{ status := .refused, data := .nothing }]) := by decide

/-! ### Witnesses: for each obligation with hypotheses, a state and operands that meet them -/

/-- A block with one command presented. -/
def presented (w : Word) : State := { State.reset with inbox := [.command w []] }

/-- A block that waits for voice 1, where a looping tone is in flight, with a queue, a renderer step and a command to
come. -/
def holding : State :=
  { State.reset with
    out := some (.waitIdle 2)
    queue := { v0 := [tone], v1 := [], v2 := [], noise := [hiss] }
    busy := { v0 := false, v1 := true, v2 := false, noise := false }
    cur := { v0 := none, v1 := some { tone with loop := true }, v2 := none, noise := none }
    inbox := [.renderer (.take .v0), .command 0xC []] }

/-- A bounded block, QDEPTH = 17, with 17 tones queued on voice 0. -/
def full : State := { queued 17 with cfg := { Config.sample with qdepth := some 17 } }

theorem witness_StepRunsDecodedWord :
    (presented 0xC).out = none ∧ (presented 0xC).inbox = [.command 0xC []] ∧ decodeWord 0xC = .ok .stopAll ∧
    (presented 0x2C).inbox = [.command 0x2C []] ∧ decodeWord 0x2C = .error .fNonzero := by decide

theorem witness_StepRunsDecodedUnit :
    let sc := initScan [[0x4D, 0x42]]
    (inPlay sc).scanning sc ∧ sc.active.get sc.turn = true ∧
    decodeUnit ((sc.buf.get sc.turn).drop (sc.pos.get sc.turn)) = some (.mmlMB, []) ∧
    ∃ t, exec .mmlMB { inPlay sc with scan := some { sc with pos := sc.pos.set sc.turn 2 } } = .next t ∧
      t.scan = some { sc with pos := sc.pos.set sc.turn 2 } :=
  ⟨⟨rfl, rfl⟩, rfl, rfl, _, rfl, rfl⟩

theorem witness_StepRunsDecodedUnit_end :
    let sc := initScan [[0x5A]]
    (inPlay sc).scanning sc ∧ sc.active.get sc.turn = true ∧
    decodeUnit ((sc.buf.get sc.turn).drop (sc.pos.get sc.turn)) = some (.mmlOther 0x5A, []) ∧
    ∃ t, exec (.mmlOther 0x5A) { inPlay sc with scan := some { sc with pos := sc.pos.set sc.turn 1 } } = .next t ∧
      t.scan = none :=
  ⟨⟨rfl, rfl⟩, rfl, rfl, _, rfl, rfl⟩

theorem witness_RoundRobinTurns :
    (let sc := initScan []; (inPlay sc).scanning sc ∧ ∀ v, sc.active.get v = false) ∧
    (let sc := { initScan [[]] with turn := .v2 };
      (inPlay sc).scanning sc ∧ (∃ v, sc.active.get v = true) ∧ sc.active.get sc.turn = false) ∧
    (let sc := scanned [0x43];
      (inPlay sc).scanning sc ∧ sc.active.get sc.turn = true ∧ sc.pos.get sc.turn = (sc.buf.get sc.turn).length) :=
  ⟨⟨⟨rfl, rfl⟩, fun v => by cases v <;> rfl⟩, ⟨⟨rfl, rfl⟩, ⟨.v0, rfl⟩, rfl⟩, ⟨⟨rfl, rfl⟩, rfl, rfl⟩⟩

theorem witness_DecodeFollowsOpcodeTable :
    decodeWord 0x2F = .ok (.play 1) ∧ 0x0F < 32 ∧ rowMatches 0x0F 0x2F ∧ 0x1F < 32 ∧
    rowMatches 0x1F 0xFFFFFFFFFFFFFFFF := by
  unfold rowMatches; decide

theorem witness_DecodeEncode :
    (Instr.mmlC (some .flat) (some 16) true).encodable = true ∧ (Instr.mmlX [] true).encodable = true ∧
    (Instr.peek 0x1FFFF).encodable = true := by decide

theorem witness_EncodeDecodeWord : decodeWord 0xFFFFFFFFFFFFFFFF = .ok (.reserved1F (BitVec.allOnes 59)) := by decide

theorem witness_UnitEndsBeforeSemicolon :
    encode (.mmlC none none false) = .unit [0x43] ∧ (Instr.mmlC none none false).encodable = true ∧
    (∀ ref, Instr.mmlC none none false ≠ .mmlX ref false) ∧ Instr.mmlC none none false ≠ .mmlMOther none :=
  ⟨rfl, rfl, fun _ => by simp, by simp⟩

theorem witness_UnitScanning :
    decodeUnit [0x41] = some (.mmlA none none false, []) ∧ isCommandByte 0x61 = true ∧ isCommandByte 0x7F = false ∧
    0x80 ≤ (0x80 : Byte).toNat ∧ (0x61 ≤ (0x7A : Byte).toNat ∧ (0x7A : Byte).toNat ≤ 0x7A) ∧
    (0x60 : Byte).toNat < 0x61 ∧ 0x7A < (0x7B : Byte).toNat := by decide

theorem witness_SessionValues : Config.sample.wf = true ∧ (State.session Config.sample).seg = 0x13AD := by
  decide

theorem witness_ResetInv : { Config.sample with qdepth := some 17, dataSeg := 0xA000 }.wf = true := by decide

theorem holding_inv : holding.Inv where
  config := by decide
  depth := fun v n h => by cases h
  queued := fun v => by cases v <;> decide +kernel
  current := fun v e h => by cases v <;> simp [holding, Quad.get] at h <;> subst h <;> decide +kernel
  inFlight := fun v => by cases v <;> decide
  noiseSize := by decide
  noiseSign := by decide
  scanner := by decide
  scanOk := fun _ h => by cases h
  pending := fun _ h => by cases h; rfl
  fontWf := by decide
  videoWf := by decide
  dataWf := by decide

theorem witness_StepKeepsInv : holding.Inv ∧ ∃ t, step holding = .next t ∧ t.busy.get .v0 = true :=
  ⟨holding_inv, _, rfl, by decide⟩

theorem witness_StepNeverStops : holding.Inv := holding_inv

theorem witness_ConfigAndRecordsKept :
    ∃ t, step { presented 0xC with refused := true, events := [.rendererStop] } = .next t ∧ t.refused = true :=
  ⟨_, rfl, rfl⟩

theorem witness_SegWrittenOnlyBySetSegment :
    (∃ t, exec (.setSegment false 5) State.reset = .next t ∧ t.seg ≠ State.reset.seg) ∧
    ∃ t, step (presented 0xA05) = .next t ∧ t.seg ≠ (presented 0xA05).seg :=
  ⟨⟨_, rfl, by decide⟩, ⟨_, rfl, by decide⟩⟩

theorem witness_InFlightWrittenOnlyByRenderer :
    (∃ t, exec .stopAll State.reset = .next t) ∧ ∃ t, step holding = .next t ∧ t.busy ≠ holding.busy :=
  ⟨⟨_, rfl⟩, ⟨_, rfl, by decide⟩⟩

theorem witness_SoundStateWriters :
    (∃ t, exec .soundReset { State.reset with fg := false } = .next t ∧ t.fg ≠ false) ∧
    (∃ t, exec .mmlMB unitState = .next t ∧ t.fg ≠ unitState.fg) ∧
    (∃ t, exec (.mmlO (some 0)) unitState = .next t ∧ (t.ps.get .v0).oct ≠ (unitState.ps.get .v0).oct) ∧
    (∃ t, exec (.mmlL (some 1)) unitState = .next t ∧ (t.ps.get .v0).lenN ≠ (unitState.ps.get .v0).lenN) ∧
    (∃ t, exec (.mmlT (some 1)) unitState = .next t ∧ (t.ps.get .v0).tempoN ≠ (unitState.ps.get .v0).tempoN) ∧
    (∃ t, exec .mmlMS unitState = .next t ∧ (t.ps.get .v0).speed ≠ (unitState.ps.get .v0).speed) ∧
    (∃ t, exec .mmlUp unitState = .next t ∧ (t.ps.get .v0).eff ≠ (unitState.ps.get .v0).eff) ∧
    (∃ t, exec (.mmlV (some 0)) { unitState with cfg := { Config.sample with perVoiceVolume := true } } = .next t ∧
      (t.ps.get .v0).vol ≠ (unitState.ps.get .v0).vol) :=
  ⟨⟨_, rfl, by decide⟩, ⟨_, rfl, by decide⟩, ⟨_, rfl, by decide⟩, ⟨_, rfl, by decide⟩, ⟨_, rfl, by decide⟩,
    ⟨_, rfl, by decide⟩, ⟨_, rfl, by decide⟩, ⟨_, rfl, by decide⟩⟩

theorem witness_BytesChangeOnlyWhereStored :
    (∃ t, exec (.poke 0x0500 1) (inSegment 0xC000) = .next t ∧
      0xC0501 ∉ storedAt (.poke 0x0500 1) (inSegment 0xC000) ∧ ¬inGlyphWindow Config.sample 0xC04FF ∧
      ¬inGlyphWindow Config.sample 0xC08F8 ∧
      overrideAt { Config.sample with overrides := [(0xC0500, 1)] } 0xC0500 ≠ none) ∧
    (∃ t, step { State.reset with inbox := [.collab (.dataByte 0 (some 1))] } = .next t ∧
      memRead t.cfg t.coll 0x13AD0 ≠ memRead State.reset.cfg State.reset.coll 0x13AD0) ∧
    ∃ t, step { inSegment 0xC000 with inbox := [.command 0x600A0002 []] } = .next t ∧
      memRead t.cfg t.coll 0xC0500 ≠ memRead State.reset.cfg State.reset.coll 0xC0500 :=
  ⟨⟨_, rfl, by decide, by unfold inGlyphWindow; decide, by unfold inGlyphWindow; decide, by decide⟩, ⟨_, rfl, by decide⟩,
    ⟨_, rfl, by decide⟩⟩

theorem witness_QueueChangesAtEnds : ∃ t, step holding = .next t ∧ t.queue.get .v0 = [] := ⟨_, rfl, by decide⟩

theorem witness_InvalidWordRefused :
    (presented 0x8000000000C).out = none ∧ fieldZ 0x8000000000C ≠ 0 ∧ ¬markedZero 0x2C ∧
    ¬operandsInRange 0x2FFFE01 [] ∧ ¬operandsInRange 0xF [] ∧ ¬operandsInRange 0x8 [.event hiss] ∧
    ¬operandsInRange 0x4000004 [.bytes []] := by
  refine ⟨rfl, by decide, ?_, ?_, ?_, ?_, ?_⟩
  · show ¬(fieldF 0x2C = 0 ∧ fieldA 0x2C = 0 ∧ fieldB 0x2C = 0); decide
  · show ¬offsetRange _; unfold offsetRange; decide
  · show ¬((fieldF 0xF).extractLsb' 0 2 ≠ 0); decide
  · intro h; have := (h hiss rfl).1; simp [hiss] at this; exact absurd this (by decide)
  · intro h; exact absurd (h.2.2 [] rfl) (by decide)

theorem witness_ReservedOpcodesRefused : (fieldOp 0xE0).toNat = 0 ∧ 0x11 ≤ (fieldOp 0x11).toNat := by decide

theorem witness_SecondCommandRefused :
    hostOpcode .stopAll = some 0x0C ∧ holding.out ≠ none ∧
    { holding with inbox := [.command 0xC []] }.heldAt (.waitIdle 2) :=
  ⟨rfl, by simp [holding], rfl, by simp, by decide⟩

theorem witness_OutOfPlaceInstructions :
    hostOpcode .stopAll = some 0x0C ∧ ¬itemsSuit .stopAll (withItems [.bytes []]).chan ∧
    hostOpcode (.play 3) = some 0x0F ∧ ¬itemsSuit (.play 3) State.reset.chan ∧
    hostOpcode .mmlNop = none ∧ ∀ sc, ¬State.reset.scanning sc := by
  refine ⟨rfl, (fun h => by cases h), rfl, ?_, rfl, (fun sc h => by cases h.1)⟩
  rintro ⟨l, h, h'⟩
  cases l with
  | nil => exact absurd h' (by decide)
  | cons x l => cases h

theorem witness_FailureLeavesNoTrace :
    (∃ t, exec (.reserved00 0) State.reset = .next t ∧
      t.resp = State.reset.resp ++ [{ status := .refused, data := .nothing }]) ∧
    (∃ t, exec (.mmlOther 0) unitState = .next t ∧
      t.resp = unitState.resp ++ [{ status := .ifc, data := .nothing }]) ∧
    (∃ t, exec (.poke 0 256) State.reset = .next t ∧
      t.resp = State.reset.resp ++ [{ status := .range, data := .nothing }]) :=
  ⟨⟨_, rfl, rfl⟩, ⟨_, rfl, rfl⟩, ⟨_, rfl, rfl⟩⟩

theorem witness_EffectiveAddress : offsetRange (-32768) ∧ offsetRange 65535 ∧ ¬offsetRange 65536 := by
  unfold offsetRange; decide

theorem witness_RegionByAddress :
    Config.sample.wf = true ∧ region Config.sample 0xF0000 = .rom ∧ region Config.sample 0xEFFFF = .ramFont ∧
    region Config.sample 0xC0000 = .ramFont ∧ region Config.sample 0xBFFFF = .video ∧
    region Config.sample 0xA0000 = .video ∧ region Config.sample 0x9FFFF = .data ∧
    region Config.sample 0x13AD0 = .data ∧ region Config.sample 0x13ACF = .low ∧ region Config.sample 0 = .low := by
  decide

theorem witness_VideoRunContiguous :
    offsetRange 0xE ∧ 65535 ≤ 65535 ∧ videoIndices Config.sample 0x9FFF 0xE 4 = [2, 3] := by
  unfold offsetRange; decide

theorem witness_SingleByteRead :
    Config.sample.wf = true ∧ overrideAt { Config.sample with overrides := [(0, 1)] } 0 = some 1 ∧ overrideAt Config.sample 0 = none ∧
    (region Config.sample 0xFFA6E = .rom ∧ rel Config.sample 0xFFA6E = 0xFA6E + 0 * 8 + 0) ∧
    (region Config.sample 0xFFE6D = .rom ∧ rel Config.sample 0xFFE6D = 0xFA6E + 127 * 8 + 7) ∧
    (region Config.sample 0xFFE6E = .rom ∧ 0xFA6E + 128 * 8 ≤ rel Config.sample 0xFFE6E) ∧
    (region Config.sample 0xC0500 = .ramFont ∧ rel Config.sample 0xC0500 = 0x500 + (128 - 128) * 8 + 0) ∧
    (region Config.sample 0xC08F7 = .ramFont ∧ rel Config.sample 0xC08F7 = 0x500 + (254 - 128) * 8 + 7) ∧
    (region Config.sample 0xC08F8 = .ramFont ∧ 0x500 + 127 * 8 ≤ rel Config.sample 0xC08F8) ∧
    region Config.sample 0xBFFFF = .video ∧ region Config.sample 0x13AD0 = .data ∧
    region Config.sample 0x13ACF = .low := by decide

theorem witness_SingleByteWrite_window :
    inGlyphWindow Config.sample 0xC0500 ∧ inGlyphWindow Config.sample 0xC08F7 ∧ overrideAt Config.sample 0xC0500 = none ∧
    inGlyphWindow { Config.sample with overrides := [(0xC0500, 1)] } 0xC0500 ∧
    overrideAt { Config.sample with overrides := [(0xC0500, 1)] } 0xC0500 ≠ none :=
  ⟨by unfold inGlyphWindow; decide, by unfold inGlyphWindow; decide, by decide, by unfold inGlyphWindow; decide,
    by decide⟩

theorem witness_SingleByteWrite :
    region Config.sample 0xF0000 = .rom ∧
    (region Config.sample 0xC0500 = .ramFont ∧ rel Config.sample 0xC0500 = 0x500 + (128 - 128) * 8 + 0) ∧
    (region Config.sample 0xC04FF = .ramFont ∧ rel Config.sample 0xC04FF < 0x500) ∧
    region Config.sample 0xA0000 = .video ∧ region Config.sample 0x9FFFF = .data ∧ region Config.sample 0 = .low := by
  decide

theorem witness_LowMemoryFields :
    Config.sample.wf = true ∧ 31 < LowField.kbRing.width ∧ 1 < LowField.kbHead.width ∧ 0 < LowField.kbMods.width ∧
    ∀ f : LowField, 0x43E < Config.sample.lowmem.of f ∨ Config.sample.lowmem.of f + f.width ≤ 0x43E :=
  ⟨by decide, by decide, by decide, by decide, fun f => by cases f <;> decide⟩

theorem witness_LowMemoryValues :
    (0 : Int) ≤ 65535 ∧ (65535 : Int) < 65536 ∧ (65536 : Int) ≤ 65536 ∧ Collab.empty.videoMeta.cga4 = false ∧
    (∀ p ∈ Config.sample.modeNumber, p.1 ≠ Collab.empty.videoMeta.modeName) ∧
    { Config.sample with modeNumber := [([], 3)] }.modeNumber.lookup [] = some 3 ∧ (0 : Int) ≤ 255 ∧ (255 : Int) < 256 ∧
    Collab.empty.keyboard.slots[15]? = some (0, 0) ∧
    { Collab.empty.keyboard with slots := [(256, -1)] }.slots[0]? = some (256, -1) ∧
    { Collab.empty.videoMeta with cga4 := true }.cga4 = true ∧ Config.sample.packMode[7]? = some (.fixed false) := by
  decide

theorem witness_PeekOutcome :
    State.reset.free ∧ offsetRange (0x18000 : BitVec 17).toInt ∧ (locked State.reset).free ∧
    (locked State.reset).locked ∧ State.reset.accessible ∧
    (memRead State.reset.cfg State.reset.coll (effAddr 0x13AD 0 0)).sentinel = some (-1) ∧
    (memRead State.reset.cfg { Collab.empty with data := { cells := [], bad := [0] } } (effAddr 0x13AD 0 0)).sentinel =
      none :=
  ⟨⟨rfl, rfl⟩, by unfold offsetRange; decide, ⟨rfl, rfl⟩, ⟨rfl, rfl⟩, fun h => absurd h.1 (by decide), by decide,
    by decide⟩

theorem witness_PokeOutcome :
    State.reset.free ∧ offsetRange (0x0FFFF : BitVec 17).toInt ∧ (locked State.reset).locked ∧ State.reset.accessible ∧
    (0x1FFFF : BitVec 17).toInt < 0 ∧ 255 < (256 : BitVec 17).toInt ∧ 0 ≤ (255 : BitVec 17).toInt ∧
    (255 : BitVec 17).toInt ≤ 255 :=
  ⟨⟨rfl, rfl⟩, by unfold offsetRange; decide, ⟨rfl, rfl⟩, fun h => absurd h.1 (by decide), by decide, by decide, by decide,
    by decide⟩

theorem witness_ReadBlockReturnsEachByte :
    let s := inSegment 0x9FFF
    s.free ∧ offsetRange (0xE : BitVec 17).toInt ∧ lengthRange (4 : BitVec 17).toInt ∧
    videoIndices s.cfg s.seg 0xE 4 = [2, 3] ∧
    (∀ i < 4, memRead s.cfg s.coll (effAddr s.seg 0xE i) ≠ .outOfContract) ∧
    videoRange { s.coll with bulk := some [7, 255] } 0 2 = [7, 255] ∧
    ¬(videoRange { s.coll with bulk := some [256] } 0 2).length = 2 ∧
    (isVideo s.cfg (effAddr s.seg 0xE 1) = false ∧
      memRead s.cfg { s.coll with data := { cells := [], bad := [0x8C52F] } } (effAddr s.seg 0xE 1) = .outOfContract ∧
      memRead s.cfg { s.coll with data := { cells := [], bad := [0x8C52F] } } (effAddr s.seg 0xE 0) ≠ .outOfContract) :=
  ⟨⟨rfl, rfl⟩, by unfold offsetRange; decide, by unfold lengthRange; decide, by decide, by decide,
    by decide, by decide, by decide, by decide, by decide⟩

theorem witness_WriteBlockOutcome :
    let s := { inSegment 0x9FFF with chan := [DataItem.bytes [1, 2, 3, 4]] }
    s.given [.bytes [1, 2, 3, 4]] ∧ offsetRange (0xE : BitVec 17).toInt ∧ lengthRange (4 : BitVec 17).toInt ∧
    [1, 2, 3, 4].length = (4 : BitVec 17).toNat ∧
    (∀ i < 4, isVideo s.cfg (effAddr s.seg 0xE i) = true ↔ 2 ≤ i ∧ i < 4) ∧
    (∀ i < 1, isVideo s.cfg (effAddr s.seg 0xE i) = false) ∧
    inGlyphWindow s.cfg (effAddr 0xC000 0x0500 0) ∧ overrideAt s.cfg (effAddr 0xC000 0x0500 0) = none :=
  ⟨⟨rfl, rfl⟩, by unfold offsetRange; decide, by unfold lengthRange; decide, rfl, by decide, by decide,
    by unfold inGlyphWindow; decide, by decide⟩

theorem witness_SetSegmentOutcome :
    State.reset.free ∧ offsetRange (0x18000 : BitVec 17).toInt ∧ offsetRange (0x0FFFF : BitVec 17).toInt :=
  ⟨⟨rfl, rfl⟩, by unfold offsetRange; decide, by unfold offsetRange; decide⟩

theorem witness_TrimOutcome :
    ([1, 0x1A] : List Byte) = [1] ++ [Config.sample.eofMark] ∧ Config.sample.tandy = false ∧
    (∀ q : List Byte, ([1] : List Byte) ≠ q ++ [Config.sample.eofMark]) ∧
    (List.replicate 7 (0 : Byte) ++ [0x1A]) = [] ++ List.replicate 7 0 ++ [Config.sample.eofMark] ∧
    (List.replicate 7 (0 : Byte)).length = 7 ∧ { Config.sample with tandy := true }.tandy = true := by
  refine ⟨rfl, rfl, fun q h => ?_, rfl, rfl, rfl⟩
  have := congrArg List.getLast? h
  simp [Config.sample] at this

theorem witness_BloadOutcome :
    let s := withItems [.file 0 [1]]
    s.given [.file 0 [1]] ∧ offsetRange (0x0FFFF : BitVec 17).toInt ∧ (locked s).locked ∧ s.accessible ∧
    (trim s.cfg [1]).length ≤ 65535 ∧ 65535 < (trim s.cfg (List.replicate 65536 (0 : Byte))).length := by
  refine ⟨⟨rfl, rfl⟩, by unfold offsetRange; decide, ⟨rfl, rfl⟩, fun h => absurd h.1 (by decide), by decide, ?_⟩
  have h : (List.replicate 65536 (0 : Byte)).getLast? = some 0 := by rw [List.getLast?_replicate]; rfl
  have ht : ∀ p : List Byte, p.getLast? = some 0 → trim Config.sample p = p := fun p hp => by
    unfold trim
    rw [hp, if_neg (show ¬some (0 : Byte) = some Config.sample.eofMark by decide)]
    rfl
  show 65535 < (trim Config.sample _).length
  rw [ht _ h, List.length_replicate]
  decide

theorem witness_BsaveOutcome :
    State.reset.free ∧ offsetRange (0 : BitVec 17).toInt ∧ lengthRange (1 : BitVec 17).toInt ∧
    (locked State.reset).locked ∧ State.reset.accessible ∧
    readBlock State.reset.cfg State.reset.coll 0x13AD 0 1 = some [0] ∧
    readBlock State.reset.cfg { Collab.empty with data := { cells := [], bad := [0] } } 0x13AD 0 1 = none :=
  ⟨⟨rfl, rfl⟩, by unfold offsetRange; decide, by unfold lengthRange; decide, ⟨rfl, rfl⟩, fun h => absurd h.1 (by decide),
    by decide, by decide⟩

theorem witness_WriteBackChangesNothing :
    State.reset.cfg.wf = true ∧ offsetRange 0 ∧ 2 ≤ 65535 ∧
    (∀ i < 2, overrideAt State.reset.cfg (effAddr State.reset.seg 0 i) = none) ∧
    readBlock State.reset.cfg State.reset.coll State.reset.seg 0 2 = some [0, 0] :=
  ⟨by decide, by unfold offsetRange; decide, by decide, by decide, by decide⟩

theorem witness_QueueReports : State.reset.free := ⟨rfl, rfl⟩

theorem witness_EnqueueOutcome :
    (withItems [.event tone]).given [.event tone] ∧ eventAllowed tone .v2 ∧ ¬eventAllowed hiss .v0 ∧
    (∀ n, (withItems [.event tone]).cfg.qdepth = some n → ((withItems [.event tone]).queue.get .v2).length < n) ∧
    full.cfg.qdepth = some 17 ∧ 17 ≤ (full.queue.get .v0).length := by
  refine ⟨⟨rfl, rfl⟩, ⟨.inl ⟨rfl, by decide⟩, ?_⟩, ?_, (fun n h => by cases h), rfl, by decide⟩
  · refine ⟨?_, ?_, ?_, ?_, ?_⟩ <;> decide +kernel
  · rintro ⟨⟨h, _⟩ | ⟨_, h⟩, _⟩ <;> cases h

theorem witness_PlayAndWaitOutcome :
    { queued 16 with chan := [.event tone] }.given [.event tone] ∧ eventAllowed tone .v0 ∧
    16 ≤ ((queued 16).queue.get .v0).length ∧ ((queued 15).queue.get .v0).length ≤ 15 ∧
    (∀ n, (queued 16).cfg.qdepth = some n → ((queued 16).queue.get .v0).length < n) ∧
    full.cfg.qdepth = some 17 ∧ 17 ≤ (full.queue.get .v0).length := by
  refine ⟨⟨rfl, rfl⟩, ⟨.inl ⟨rfl, by decide⟩, ?_⟩, by decide, by decide, (fun n h => by cases h), rfl, by decide⟩
  refine ⟨?_, ?_, ?_, ?_, ?_⟩ <;> decide +kernel

theorem witness_WaitOutcomes :
    (queued 2).free ∧ lengthRange (0 : BitVec 17).toInt ∧
    (∀ v : Voice, (15 : BitVec 4).getLsbD v.idx = true → ((queued 2).queue.get v).length ≤ (1 : BitVec 17).toNat + 1) ∧
    (15 : BitVec 4).getLsbD Voice.v0.idx = true ∧ (0 : BitVec 17).toNat + 1 < ((queued 2).queue.get .v0).length ∧
    (∀ v : Voice, (14 : BitVec 4).getLsbD v.idx = true → (queued 2).queue.get v = [] ∧ (queued 2).busy.get v = false) ∧
    (queued 2).queue.get .v0 ≠ [] :=
  ⟨⟨rfl, rfl⟩, by unfold lengthRange; decide, fun v => by cases v <;> decide, by decide, by decide,
    fun v => by cases v <;> decide, by decide⟩

theorem witness_StopAndSoundReset : (queued 5).free := ⟨rfl, rfl⟩

theorem witness_NoiseLinkage :
    State.reset.cfg.wf = true ∧ State.reset.noiseFreq.length = State.reset.cfg.noiseSize ∧ tone.freq.coef ≠ 0 ∧
    3 ∈ State.reset.cfg.noiseLinked ∧ 4 ∉ State.reset.cfg.noiseLinked ∧ Freq.zero.coef = 0 := by decide

theorem witness_RendererSteps :
    (holding.stopReq = false ∧ holding.busy.get .v0 = false ∧ holding.queue.get .v0 = [tone]) ∧
    holding.busy.get .v1 = true ∧ holding.queue.get .v2 = [] ∧
    (holding.cur.get .v1 = some { tone with loop := true } ∧ holding.queue.get .v1 = []) ∧
    { holding with cur := { holding.cur with v1 := some tone } }.cur.get .v1 = some tone ∧ tone.loop = false ∧
    { holding with stopReq := true }.stopReq = true := by decide +kernel

theorem witness_HeldCommandWaits :
    holding.heldAt (.waitIdle 2) ∧ holding.inbox = [.renderer (.take .v0), .command 0xC []] ∧
    { holding with inbox := [] }.heldAt (.waitIdle 2) ∧
    { holding with inbox := [.collab (.bulk none)] }.heldAt (.waitIdle 2) ∧
    State.reset.out = none ∧ State.reset.inbox = [] ∧
    { State.reset with inbox := [.collab (.fontByte 0 none)] }.inbox = [.collab (.fontByte 0 none)] ∧
    State.reset.coll.font.cells.wf ∧ State.reset.coll.video.cells.wf ∧ State.reset.coll.data.cells.wf :=
  ⟨⟨rfl, by simp, by decide⟩, rfl, ⟨rfl, by simp, by decide⟩, ⟨rfl, by simp, by decide⟩, rfl, rfl, rfl, by decide,
    by decide, by decide⟩

theorem witness_HeldCommandResumes :
    State.reset.room .v0 = true ∧ ((queued 15).queue.get .v0).length ≤ 15 ∧ 16 ≤ ((queued 16).queue.get .v0).length ∧
    ((queued 16).queue.get .v0).length ≤ 16 ∧
    (∀ v : Voice, (1 : BitVec 4).getLsbD v.idx = true → ((queued 1).queue.get v).length ≤ 0 + 1) ∧
    (∀ v : Voice, (14 : BitVec 4).getLsbD v.idx = true → (queued 1).queue.get v = [] ∧ (queued 1).busy.get v = false) ∧
    { inPlay (scanned []) with out := some (.playEmit .v0 tone) }.out = some (.playEmit .v0 tone) ∧
    (inPlay (scanned [])).room ToneVoice.v0.queue = true :=
  ⟨by decide, by decide, by decide, by decide, fun v => by cases v <;> decide, fun v => by cases v <;> decide, rfl,
    by decide⟩

theorem witness_LoopingItemDeadlocksWait :
    (2 : BitVec 4).getLsbD Voice.v1.idx = true ∧ holding.out = some (.waitIdle 2) ∧ holding.queue.get .v1 = [] ∧
    holding.busy.get .v1 = true ∧ holding.stopReq = false ∧ (holding.cur.get .v1).map Event.loop = some true ∧
    (∃ t, step holding = .next t) ∧ Voice.v1 ≠ .noise ∧
    ∃ t, step { holding with out := some .playForeground } = .next t :=
  ⟨by decide, rfl, rfl, rfl, rfl, rfl, ⟨_, rfl⟩, by decide, ⟨_, rfl⟩⟩

theorem witness_PlayBegins :
    (withItems [.bytes [0x43], .bytes [], .bytes [0x44]]).given ([[0x43], [], [0x44]].map .bytes) ∧
    (3 : BitVec 2) ≠ 0 ∧ [[0x43], [], [0x44]].length = (3 : BitVec 2).toNat :=
  ⟨⟨rfl, rfl⟩, by decide, rfl⟩

theorem witness_PaddingEqualises :
    let sc := { initScan [[], []] with acc := { v0 := 0, v1 := 1 / 2, v2 := 0 } }
    { inPlay sc with out := some (.playPad .v0) }.out = some (.playPad .v0) ∧ (inPlay sc).scan = some sc ∧
    (∀ w : ToneVoice, w.idx < sc.k → sc.acc.get w ≤ 1 / 2) ∧ (∃ w : ToneVoice, w.idx < sc.k ∧ sc.acc.get w = 1 / 2) ∧
    ToneVoice.v0.idx < sc.k ∧ sc.acc.get .v0 < 1 / 2 ∧ (inPlay sc).room ToneVoice.v0.queue = true ∧
    full.room ToneVoice.v0.queue = false ∧ sc.k ≤ ToneVoice.v2.idx :=
  ⟨rfl, rfl, fun w => by cases w <;> decide +kernel, ⟨.v1, by decide +kernel⟩, by decide, by decide +kernel, by decide,
    by decide, by decide⟩

theorem witness_PlayEnds :
    (∀ v : ToneVoice, State.reset.queue.get v.queue = [] ∧ State.reset.busy.get v.queue = false) ∧
    State.reset.fg = true ∧ { State.reset with fg := false }.fg = false ∧
    ¬(∀ v : ToneVoice, holding.queue.get v.queue = [] ∧ holding.busy.get v.queue = false) :=
  ⟨fun v => by cases v <;> decide, rfl, rfl, fun h => absurd (h .v1).2 (by decide)⟩

theorem witness_NoteOutcome :
    unitState.scanning (scanned []) ∧ semi .B (some .sharp) = none ∧ semi .B none = some 11 ∧
    unitState.room ToneVoice.v0.queue = true ∧
    ({ full with out := some .playScan, scan := some (scanned []) }.scanning (scanned []) ∧
      full.room ToneVoice.v0.queue = false) :=
  ⟨⟨rfl, rfl⟩, rfl, rfl, by decide, ⟨rfl, rfl⟩, by decide⟩

theorem witness_AbsoluteNoteAndRest :
    unitState.scanning (scanned []) ∧ 84 < 85 ∧ 84 ≤ 84 ∧ unitState.room ToneVoice.v0.queue = true ∧
    ({ full with out := some .playScan, scan := some (scanned []) }.scanning (scanned []) ∧
      full.room ToneVoice.v0.queue = false) :=
  ⟨⟨rfl, rfl⟩, by decide, by decide, by decide, ⟨rfl, rfl⟩, by decide⟩

theorem witness_ArgumentUnits :
    unitState.scanning (scanned []) ∧ unitState.cfg.perVoiceVolume = false ∧
    { unitState with cfg := { Config.sample with perVoiceVolume := true } }.cfg.perVoiceVolume = true :=
  ⟨⟨rfl, rfl⟩, rfl, rfl⟩

theorem witness_ModifierUnits : unitState.scanning (scanned []) := ⟨rfl, rfl⟩

theorem witness_SpliceOutcome :
    unitState.scanning (scanned []) ∧ (scanned []).pos.get .v0 ≤ ((scanned []).buf.get .v0).length ∧
    unitState.coll.strings.lookup [0x41] = none ∧
    { Collab.empty with strings := [([0x41], [0x43])] }.strings.lookup [0x41] = some [0x43] :=
  ⟨⟨rfl, rfl⟩, by decide, rfl, rfl⟩

theorem witness_BadUnitsRaise : unitState.scanning (scanned []) := ⟨rfl, rfl⟩

theorem witness_NoteTableExact :
    semi .G none = some 7 ∧ semi .G (some .sharp) = some 8 ∧ semi .G (some .flat) = some 6 := ⟨rfl, rfl, rfl⟩

end Sys2Proof.Tests
end

section
/-!
PROOFS. The address router (20_memory.md): effective addresses, the region of an address, the glyph windows, and the
single-byte read and write, each by one rule per region; then the obligations about them.
-/

namespace Sys2Proof.Machine

/-! ### Effective addresses -/

/-- An offset in its range fits 16 bits once it is wrapped (R61). -/
theorem norm16_toNat {off : Int} (h : offsetRange off) :
    ((norm16 off).toNat : Int) = if off < 0 then off + 65536 else off := by
  obtain ⟨hlo, hhi⟩ := h
  rw [norm16, BitVec.toNat_ofInt]
  split <;> omega

theorem effAddr_toNat (seg : BitVec 16) (off : Int) (i : Nat) :
    (effAddr seg off i).toNat = (seg.toNat * 16 + (norm16 off).toNat + i) % 2 ^ 20 := by
  have hseg := seg.isLt
  have hoff := (norm16 off).isLt
  simp only [effAddr, BitVec.toNat_add, BitVec.toNat_mul, BitVec.toNat_setWidth, BitVec.toNat_ofNat,
    show BitVec.toNat (16 : BitVec 20) = 16 from rfl]
  omega

/-! ### Regions -/

theorem region_eq_rom_iff (c : Config) (ea : BitVec 20) : region c ea = .rom ↔ 0xF0000 ≤ ea.toNat := by
  unfold region; split_ifs <;> simp <;> omega

theorem region_eq_ramFont_iff (c : Config) (ea : BitVec 20) :
    region c ea = .ramFont ↔ 0xC0000 ≤ ea.toNat ∧ ea.toNat < 0xF0000 := by
  unfold region; split_ifs <;> simp <;> omega

theorem region_eq_video_iff (c : Config) (ea : BitVec 20) :
    region c ea = .video ↔ 0xA0000 ≤ ea.toNat ∧ ea.toNat < 0xC0000 := by
  unfold region; split_ifs <;> simp <;> omega

theorem region_eq_data_iff (c : Config) (ea : BitVec 20) :
    region c ea = .data ↔ c.dataSeg.toNat * 16 ≤ ea.toNat ∧ ea.toNat < 0xA0000 := by
  unfold region; split_ifs <;> simp <;> omega

/-- Without R333 a data segment above the video base would leave low memory the addresses below that base only. -/
theorem region_eq_low_iff (c : Config) (ea : BitVec 20) :
    region c ea = .low ↔ ea.toNat < c.dataSeg.toNat * 16 ∧ ea.toNat < 0xA0000 := by
  unfold region; split_ifs <;> simp <;> omega

/-- An address lies at or above its region's base, so `rel` loses nothing (R72). -/
theorem regionBase_le (c : Config) (ea : BitVec 20) : regionBase c (region c ea) ≤ ea.toNat := by
  unfold region; split_ifs <;> simp only [regionBase] <;> omega

theorem rel_add_regionBase (c : Config) (ea : BitVec 20) : rel c ea + regionBase c (region c ea) = ea.toNat :=
  Nat.sub_add_cancel (regionBase_le c ea)

/-- The offset from a region's base counts up to the address. -/
theorem rel_add_of_region {c : Config} {ea : BitVec 20} {r : Region} (h : region c ea = r) :
    rel c ea + regionBase c r = ea.toNat := h ▸ rel_add_regionBase c ea

/-- Region and offset determine the address. -/
theorem eq_of_region_rel {c : Config} {a ea : BitVec 20} (hregion : region c a = region c ea)
    (hrel : rel c a = rel c ea) : a = ea :=
  BitVec.eq_of_toNat_eq (by rw [← rel_add_regionBase c a, ← rel_add_regionBase c ea, hregion, hrel])

/-! ### What R333 gives the router -/

theorem dataSeg_le_of_wf {c : Config} (h : c.wf = true) : c.dataSeg.toNat * 16 ≤ 0xA0000 := by
  simp only [Config.wf, Bool.and_eq_true, decide_eq_true_eq, and_assoc] at h
  exact h.2.1

theorem overrides_nodup_of_wf {c : Config} (h : c.wf = true) : (c.overrides.map Prod.fst).Nodup := by
  simp only [Config.wf, Bool.and_eq_true, decide_eq_true_eq, and_assoc] at h
  obtain ⟨-, -, -, -, -, -, -, hnodup, -⟩ := h
  exact hnodup

/-- In a table that lists no key twice, looking a key up finds exactly its entry. -/
theorem lookup_eq_some_iff_mem_of_nodup {l : List (Nat × Byte)} (hl : (l.map Prod.fst).Nodup) (a : Nat) (b : Byte) :
    l.lookup a = some b ↔ (a, b) ∈ l := by
  induction l with
  | nil => simp
  | cons p l ih =>
    obtain ⟨x, y⟩ := p
    obtain ⟨hx, hl⟩ := List.nodup_cons.1 hl
    by_cases hax : a = x
    · subst hax
      have hmem : (a, b) ∉ l := fun h => hx (List.mem_map.2 ⟨(a, b), h, rfl⟩)
      simp [hmem, eq_comm]
    · simp [List.lookup_cons, beq_false_of_ne hax, hax, ih hl]

/-- The override table wins exactly at the addresses it lists (R74). -/
theorem overrideAt_eq_some_iff {c : Config} (h : c.wf = true) (ea : BitVec 20) (b : Byte) :
    overrideAt c ea = some b ↔ (ea.toNat, b) ∈ c.overrides :=
  lookup_eq_some_iff_mem_of_nodup (overrides_nodup_of_wf h) ea.toNat b

/-! ### Glyph windows -/

/-- Which offset holds which glyph byte: 8 row bytes per character, row 0 first (R77, R79). -/
theorem glyphAt_eq_some_iff {first count off r char row : Nat} :
    glyphAt first count off r = some (char, row) ↔
      first ≤ char ∧ char < first + count ∧ row < 8 ∧ r = off + (char - first) * 8 + row := by
  unfold glyphAt
  split <;> simp <;> omega

theorem glyphAt_eq_none_iff {first count off r : Nat} :
    glyphAt first count off r = none ↔ r < off ∨ off + count * 8 ≤ r := by
  unfold glyphAt
  split <;> simp <;> omega

theorem glyphAt_row_lt {first count off r : Nat} {g : Nat × Nat} (h : glyphAt first count off r = some g) : g.2 < 8 := by
  obtain ⟨-, -, hrow, -⟩ := glyphAt_eq_some_iff.1 h
  exact hrow

theorem romGlyph_eq_some_iff {c : Config} {r char row : Nat} :
    romGlyph c r = some (char, row) ↔ char ≤ 127 ∧ row < 8 ∧ r = c.romFontOff.toNat + char * 8 + row := by
  rw [romGlyph, glyphAt_eq_some_iff]
  omega

theorem ramGlyph_eq_some_iff {c : Config} {r char row : Nat} :
    ramGlyph c r = some (char, row) ↔
      128 ≤ char ∧ char ≤ 254 ∧ row < 8 ∧ r = c.ramFontOff.toNat + (char - 128) * 8 + row := by
  rw [ramGlyph, glyphAt_eq_some_iff]
  omega

/-- An address of the RAM-font window is in the RAM-font region, and a glyph byte stands there (R79). -/
theorem ramGlyph_of_inGlyphWindow {c : Config} {ea : BitVec 20} (h : inGlyphWindow c ea) :
    region c ea = .ramFont ∧ ∃ char row, ramGlyph c (rel c ea) = some (char, row) := by
  obtain ⟨hlo, hhi, hrom⟩ := h
  have hregion : region c ea = .ramFont := (region_eq_ramFont_iff c ea).2 ⟨by omega, hrom⟩
  have hrel := rel_add_of_region hregion
  refine ⟨hregion, ?_⟩
  cases hg : ramGlyph c (rel c ea) with
  | some g => exact ⟨g.1, g.2, rfl⟩
  | none =>
    have hout := glyphAt_eq_none_iff.1 hg
    simp only [regionBase] at hrel
    omega

/-! ### The single-byte read -/

theorem memRead_of_override {c : Config} {ea : BitVec 20} {b : Byte} (k : Collab) (h : overrideAt c ea = some b) :
    memRead c k ea = .byte b := by simp [memRead, h]

theorem memAsks_of_override {c : Config} {ea : BitVec 20} {b : Byte} (k : Collab) (h : overrideAt c ea = some b) :
    memAsks c k ea = [] := by simp [memAsks, h]

theorem memRead_of_no_override {c : Config} {ea : BitVec 20} (k : Collab) (h : overrideAt c ea = none) :
    memRead c k ea = regionRead c k ea := by simp [memRead, h]

section
variable {c : Config} {ea : BitVec 20} (k : Collab) (ho : overrideAt c ea = none)
include ho

theorem memRead_and_memAsks_rom (hr : region c ea = .rom) :
    memRead c k ea = fontRead k (romGlyph c (rel c ea)) ∧ memAsks c k ea = fontAsks (romGlyph c (rel c ea)) := by
  simp [memRead, memAsks, regionRead, ho, hr]

theorem memRead_and_memAsks_ramFont (hr : region c ea = .ramFont) :
    memRead c k ea = fontRead k (ramGlyph c (rel c ea)) ∧ memAsks c k ea = fontAsks (ramGlyph c (rel c ea)) := by
  simp [memRead, memAsks, regionRead, ho, hr]

theorem memRead_and_memAsks_video (hr : region c ea = .video) :
    memRead c k ea = k.video.answer (rel c ea) ∧ memAsks c k ea = [.videoGet (rel c ea)] := by
  simp [memRead, memAsks, regionRead, ho, hr]

theorem memRead_and_memAsks_data (hr : region c ea = .data) :
    memRead c k ea = k.data.answer (rel c ea) ∧ memAsks c k ea = [.dataGet (rel c ea)] := by
  simp [memRead, memAsks, regionRead, ho, hr]

theorem memRead_and_memAsks_low (hr : region c ea = .low) :
    memRead c k ea = lowRead c k ea.toNat ∧ memAsks c k ea = lowReadAsks c k ea.toNat := by
  simp [memRead, memAsks, regionRead, ho, hr]

end

/-! ### The single-byte write -/

section
variable {c : Config} {ea : BitVec 20} (b : Byte)

theorem memWrite_rom (hr : region c ea = .rom) : memWrite c ea b = [] := by simp [memWrite, hr]

theorem memWrite_ramFont (hr : region c ea = .ramFont) : memWrite c ea b = ramFontWrite c (rel c ea) b := by
  simp [memWrite, hr]

theorem memWrite_video (hr : region c ea = .video) : memWrite c ea b = [.videoSet (rel c ea) b] := by
  simp [memWrite, hr]

theorem memWrite_data (hr : region c ea = .data) : memWrite c ea b = [.dataSet (rel c ea) b] := by
  simp [memWrite, hr]

theorem memWrite_low (hr : region c ea = .low) : memWrite c ea b = lowWrite c ea.toNat b := by
  simp [memWrite, hr]

theorem ramFontWrite_glyph {r char row : Nat} (hg : ramGlyph c r = some (char, row)) :
    ramFontWrite c r b = [.fontSet char row b, .rebuildGlyph char] := by simp [ramFontWrite, hg]

theorem ramFontWrite_outside {r : Nat} (hg : ramGlyph c r = none) : ramFontWrite c r b = [] := by
  simp [ramFontWrite, hg]

end

/-! ### Reads after a glyph byte is set -/

/-- Setting a glyph byte leaves the reads of every other glyph byte alone (R67). -/
theorem fontRead_receive_fontSet_ne (k : Collab) {char row : Nat} (b : Byte) {g : Option (Nat × Nat)} (hrow : row < 8)
    (hg : ∀ x ∈ g, x.2 < 8) (hne : g ≠ some (char, row)) :
    fontRead (k.receive (.fontSet char row b)) g = fontRead k g := by
  match g with
  | none => rfl
  | some (char', row') =>
    refine Collab.receive_fontSet_ne k b fun hkey => hne ?_
    obtain ⟨rfl, rfl⟩ := glyphKey_injective (hg (char', row') rfl) hrow hkey
    rfl

/-- Low memory does not read the font store. -/
theorem lowRead_receive_fontSet (c : Config) (k : Collab) (char row : Nat) (b : Byte) (a : Nat) :
    lowRead c (k.receive (.fontSet char row b)) a = lowRead c k a := by
  unfold lowRead
  split
  · rename_i f j _
    cases f <;> rfl
  · rfl

/-- Setting the glyph byte of one address leaves what every other address reads as alone: no second address, in ROM or
in the RAM font, stands for the same glyph byte. -/
theorem regionRead_receive_fontSet_ne {c : Config} {a ea : BitVec 20} {char row : Nat} (k : Collab) (b : Byte)
    (hregion : region c ea = .ramFont) (hglyph : ramGlyph c (rel c ea) = some (char, row)) (ha : a ≠ ea) :
    regionRead c (k.receive (.fontSet char row b)) a = regionRead c k a := by
  obtain ⟨hchar, -, hrow, hea⟩ := ramGlyph_eq_some_iff.1 hglyph
  cases hr : region c a with
  | rom =>
    simp only [regionRead, hr]
    refine fontRead_receive_fontSet_ne k b hrow (fun _ => glyphAt_row_lt) fun h => ?_
    obtain ⟨hchar', -⟩ := romGlyph_eq_some_iff.1 h
    omega
  | ramFont =>
    simp only [regionRead, hr]
    refine fontRead_receive_fontSet_ne k b hrow (fun _ => glyphAt_row_lt) fun h => ha ?_
    obtain ⟨-, -, -, hrel⟩ := ramGlyph_eq_some_iff.1 h
    exact eq_of_region_rel (hr.trans hregion.symm) (hrel.trans hea.symm)
  | video => simp only [regionRead, hr]; rfl
  | data => simp only [regionRead, hr]; rfl
  | low => simpa only [regionRead, hr] using lowRead_receive_fontSet c k char row b a.toNat

/-- What a write to a glyph byte of the window does to the collaborators: its one byte of the font store (R80). -/
theorem memWrite_receives_glyph {c : Config} {ea : BitVec 20} {char row : Nat} (k : Collab) (b : Byte)
    (hregion : region c ea = .ramFont) (hglyph : ramGlyph c (rel c ea) = some (char, row)) :
    (memWrite c ea b).foldl Collab.receive k = k.receive (.fontSet char row b) := by
  rw [memWrite_ramFont b hregion, ramFontWrite_glyph b hglyph]
  rfl

/-- A glyph byte reads as written, where no override covers its address. -/
theorem memRead_after_glyph_write {c : Config} {ea : BitVec 20} (k : Collab) (b : Byte) (hw : inGlyphWindow c ea)
    (ho : overrideAt c ea = none) : memRead c ((memWrite c ea b).foldl Collab.receive k) ea = .byte b := by
  obtain ⟨hregion, char, row, hglyph⟩ := ramGlyph_of_inGlyphWindow hw
  rw [memWrite_receives_glyph k b hregion hglyph, (memRead_and_memAsks_ramFont _ ho hregion).1, hglyph]
  exact Collab.receive_fontSet_self k char row b

/-- Every other address, and every overridden one, reads as before a write to a glyph byte. -/
theorem memRead_after_glyph_write_ne {c : Config} {a ea : BitVec 20} (k : Collab) (b : Byte) (hw : inGlyphWindow c ea)
    (ha : a ≠ ea ∨ overrideAt c a ≠ none) :
    memRead c ((memWrite c ea b).foldl Collab.receive k) a = memRead c k a := by
  obtain ⟨hregion, char, row, hglyph⟩ := ramGlyph_of_inGlyphWindow hw
  cases ho : overrideAt c a with
  | some x => rw [memRead_of_override _ ho, memRead_of_override k ho]
  | none =>
    have hne : a ≠ ea := ha.resolve_right (not_not_intro ho)
    rw [memWrite_receives_glyph k b hregion hglyph, memRead_of_no_override _ ho, memRead_of_no_override k ho,
      regionRead_receive_fontSet_ne k b hregion hglyph hne]

/-! ### The obligations -/

/-- Settles O25, from the address as one sum modulo 2^20 and the value of a wrapped offset. -/
theorem effectiveAddress : Obligations.EffectiveAddress := by
  intro seg off i hoff
  rw [effAddr_toNat, ← norm16_toNat hoff]
  push_cast
  rfl

/-- Settles O26, from the interval of each region and the base each offset counts from. -/
theorem regionByAddress : Obligations.RegionByAddress := by
  intro c ea hwf
  have hdata := dataSeg_le_of_wf hwf
  refine ⟨region_eq_rom_iff c ea, region_eq_ramFont_iff c ea, region_eq_video_iff c ea, region_eq_data_iff c ea, ?_,
    rel_add_of_region, rel_add_of_region, rel_add_of_region, rel_add_of_region, rel_add_of_region⟩
  rw [region_eq_low_iff]
  omega

/-- Settles O28, by the read rule of each region; in the font regions by the glyph byte at the offset. -/
theorem singleByteRead : Obligations.SingleByteRead := by
  intro c k ea
  refine ⟨fun hwf b => overrideAt_eq_some_iff hwf ea b,
    fun b hb => ⟨memRead_of_override k hb, memAsks_of_override k hb⟩,
    fun ho => ⟨fun char row hchar hrow hrel hr => ?romGlyph, fun hout hr => ?romOutside,
      fun char row hlo hhi hrow hrel hr => ?ramGlyph, fun hout hr => ?ramOutside,
      memRead_and_memAsks_video k ho, memRead_and_memAsks_data k ho, memRead_and_memAsks_low k ho⟩⟩
  case romGlyph =>
    have hg := romGlyph_eq_some_iff.2 ⟨hchar, hrow, hrel⟩
    simpa only [hg, fontRead, fontAsks] using memRead_and_memAsks_rom k ho hr
  case romOutside =>
    have hg : romGlyph c (rel c ea) = none := glyphAt_eq_none_iff.2 hout
    simpa only [hg, fontRead, fontAsks] using memRead_and_memAsks_rom k ho hr
  case ramGlyph =>
    have hg := ramGlyph_eq_some_iff.2 ⟨hlo, hhi, hrow, hrel⟩
    simpa only [hg, fontRead, fontAsks] using memRead_and_memAsks_ramFont k ho hr
  case ramOutside =>
    have hg : ramGlyph c (rel c ea) = none := glyphAt_eq_none_iff.2 hout
    simpa only [hg, fontRead, fontAsks] using memRead_and_memAsks_ramFont k ho hr

/-- Settles O29, by the write rule of each region, and by the glyph key: it tells the written byte from every other. -/
theorem singleByteWrite : Obligations.SingleByteWrite := by
  intro c k ea b
  refine ⟨memRead_after_glyph_write k b, fun hw a => memRead_after_glyph_write_ne k b hw, memWrite_rom b,
    fun char row hlo hhi hrow hrel hr => ?glyph, fun hout hr => ?outside,
    memWrite_video b, memWrite_data b, memWrite_low b⟩
  case glyph =>
    rw [memWrite_ramFont b hr, ramFontWrite_glyph b (ramGlyph_eq_some_iff.2 ⟨hlo, hhi, hrow, hrel⟩)]
  case outside => rw [memWrite_ramFont b hr, ramFontWrite_outside b (glyphAt_eq_none_iff.2 hout)]

end Sys2Proof.Machine
end

section
/-!
PROOFS. Command words that are refused (30_encoding.md R121, R126, R127): which opcode the decoder reads, what it asks
of the marked fields and where it leaves the operands; which instructions a block refuses whatever its state; then the
obligations about them.
-/

namespace Sys2Proof.Machine

/-! ### What a decoded word holds -/

/-- A reserved opcode decodes to its row, whatever the other bits: it has no marked field (R127). -/
theorem decodeWord_of_reserved {w : Word} (h : (fieldOp w).toNat = 0 ∨ 0x11 ≤ (fieldOp w).toNat) :
    ∃ i, decodeWord w = .ok i ∧ hostOpcode i = some (fieldOp w).toNat := by
  have hlt : (fieldOp w).toNat < 32 := (fieldOp w).isLt
  rcases h with hop | hlow
  · simp only [decodeWord, hop]
    exact ⟨_, rfl, rfl⟩
  · interval_cases hop : (fieldOp w).toNat
    all_goals
      simp only [decodeWord, hop]
      exact ⟨_, rfl, rfl⟩

/-- The decoder keeps the opcode: an instruction of no other row, and no MML unit, comes out of a command word. -/
theorem hostOpcode_of_decodeWord {w : Word} {i : Instr} (h : decodeWord w = .ok i) :
    hostOpcode i = some (fieldOp w).toNat := by
  by_cases hres : (fieldOp w).toNat = 0 ∨ 0x11 ≤ (fieldOp w).toNat
  · obtain ⟨j, hj, hrow⟩ := decodeWord_of_reserved hres
    obtain rfl : j = i := Except.ok.inj (hj.symm.trans h)
    exact hrow
  · have hlow : 1 ≤ (fieldOp w).toNat := by omega
    have hhigh : (fieldOp w).toNat ≤ 0x10 := by omega
    interval_cases hop : (fieldOp w).toNat
    all_goals
      simp only [decodeWord, hop] at h
      obtain ⟨-, -, -, -, rfl⟩ := checked_ok h
      rfl

/-- A word of the 16 commands decodes only with Z and the fields its opcode marks 0 all 0 (R121, R126). -/
theorem markedZero_of_decodeWord {w : Word} {i : Instr} (h : decodeWord w = .ok i) (hlow : 1 ≤ (fieldOp w).toNat)
    (hhigh : (fieldOp w).toNat ≤ 0x10) : fieldZ w = 0 ∧ markedZero w := by
  interval_cases hop : (fieldOp w).toNat
  all_goals
    simp only [decodeWord, hop] at h
    obtain ⟨hz, hf, ha, hb, -⟩ := checked_ok h
    simp only [markedZero, hop, toNat_lt_two_iff, toNat_lt_four_iff, hz, hf, ha, hb, and_self]

/-! ### What an instruction asks of its operands -/

/-- The data item of an instruction, where it is of the right kind, is valid (R126): a byte string of the length
operand, an event that the voice admits. -/
def itemInRange (i : Instr) (items : List DataItem) : Prop :=
  match i with
  | .writeBlock _ n => ∀ d, items = [.bytes d] → (d.length : Int) = n.toInt
  | .enqueue v | .playAndWait v => ∀ e, items = [.event e] → eventAllowed e v
  | _ => True

/-- The ranges of R126, read off the fields of a word, are those of the command it spells. -/
theorem operandsInRange_iff_of_decodeWord {w : Word} {i : Instr} (h : decodeWord w = .ok i)
    (hlow : 1 ≤ (fieldOp w).toNat) (hhigh : (fieldOp w).toNat ≤ 0x10) (items : List DataItem) :
    operandsInRange w items ↔ i.wf = true ∧ itemInRange i items := by
  have toInt_eq_zero (x : BitVec 17) : x.toInt = 0 ↔ x = 0 := by rw [← BitVec.toInt_inj]; rfl
  interval_cases hop : (fieldOp w).toNat
  all_goals
    simp only [decodeWord, hop] at h
    obtain ⟨-, -, -, -, rfl⟩ := checked_ok h
    simp [operandsInRange, hop, Instr.wf, Instr.encodable, itemInRange, offsetValid_iff, lengthValid_iff,
      toInt_eq_zero, and_assoc]

/-! ### Who is refused whatever the state -/

/-- The reserved rows of the opcode table are refused (R127, R304). -/
theorem exec_of_reserved {i : Instr} {op : Nat} (hi : hostOpcode i = some op) (hop : op = 0 ∨ 0x11 ≤ op) (s : State) :
    exec i s = .next s.turnedAway := by
  cases i <;> simp only [hostOpcode, reduceCtorEq, Option.some.injEq] at hi
  case reserved00 | reserved11 | reserved12 | reserved13 | reserved14 | reserved15 | reserved16 | reserved17 |
      reserved18 | reserved19 | reserved1A | reserved1B | reserved1C | reserved1D | reserved1E | reserved1F => rfl
  all_goals omega

/-- A host command is refused where its own operands are not valid (R126). WRITE_BLOCK, BLOAD and PLAY are refused too
where the items are of the wrong kind. -/
theorem exec_of_not_wf {i : Instr} {op : Nat} (hi : hostOpcode i = some op) (hwf : i.wf = false) (s : State) :
    exec i s = .next s.turnedAway := by
  cases i <;> simp only [hostOpcode, reduceCtorEq] at hi <;>
    simp only [Instr.wf, Instr.encodable, Bool.true_and, Bool.true_eq_false] at hwf
  case peek | poke | readBlock | setSegment | bsave | waitDepth =>
    simp only [exec, execPeek, execPoke, execReadBlock, execSetSegment, execBsave, execWaitDepth]
    exact command_refused (.inr (by rw [hwf, Bool.false_and]))
  case writeBlock | bload | play =>
    simp only [exec, execWriteBlock, execBload, execPlay]
    split
    · exact command_refused (.inr (by simp only [hwf, Bool.false_and]))
    · rfl

/-- A valid length is not negative: the meaning, which counts in naturals, and R126 speak of the same number. -/
theorem toInt_of_lengthValid {n : BitVec 17} (h : lengthValid n = true) : n.toInt = n.toNat := by
  obtain ⟨hnonneg, -⟩ := (lengthValid_iff n).1 h
  have hlt := n.isLt
  rw [BitVec.toInt_eq_toNat_cond] at hnonneg ⊢
  split at hnonneg <;> omega

/-- A host command is refused where its data item is not valid (R126): only those with a byte string or an event have
one that can fail so. -/
theorem exec_of_item_invalid {i : Instr} {s : State} (hitem : ¬itemInRange i s.chan) :
    exec i s = .next s.turnedAway := by
  cases i <;> simp only [itemInRange, not_true_eq_false, not_forall] at hitem
  case writeBlock off n =>
    obtain ⟨d, hc, hlen⟩ := hitem
    refine (execWriteBlock_given off n hc).trans (command_refused (.inr ?_))
    by_cases hn : lengthValid n = true
    · have hne : ¬d.length = n.toNat := fun heq => hlen (by rw [toInt_of_lengthValid hn, heq])
      rw [beq_false_of_ne hne, Bool.and_false]
    · rw [Bool.not_eq_true] at hn
      rw [hn, Bool.and_false, Bool.false_and]
  case enqueue v =>
    obtain ⟨e, hc, he⟩ := hitem
    refine (execEnqueue_given v hc).trans (command_refused (.inr ?_))
    rwa [← Event.admissible_iff, Bool.not_eq_true] at he
  case playAndWait v =>
    obtain ⟨e, hc, he⟩ := hitem
    refine (execPlayAndWait_given v hc).trans (command_refused (.inr ?_))
    rwa [← Event.admissible_iff, Bool.not_eq_true] at he

/-! ### Words that are refused -/

/-- With nothing outstanding, a step runs the word that is presented, its items on the data channel (R120). -/
theorem step_command {s : State} {w : Word} {items : List DataItem} {rest : List Input} (ho : s.out = none)
    (hin : s.inbox = .command w items :: rest) : step s = runWord w { s with inbox := rest, chan := items } := by
  rw [step_idle ho, stepIdle, hin]

/-- A word with a marked field that is not 0, or an operand or item that is not valid, is refused: by the decoder, as a
reserved opcode, or by the meaning. -/
theorem runWord_of_invalid {w : Word} {s : State}
    (h : fieldZ w ≠ 0 ∨ ¬markedZero w ∨ ¬operandsInRange w s.chan) : runWord w s = .next s.turnedAway := by
  unfold runWord
  cases hd : decodeWord w with
  | error => rfl
  | ok i =>
    have hi := hostOpcode_of_decodeWord hd
    by_cases hres : (fieldOp w).toNat = 0 ∨ 0x11 ≤ (fieldOp w).toNat
    · exact exec_of_reserved hi hres s
    · have hlow : 1 ≤ (fieldOp w).toNat := by omega
      have hhigh : (fieldOp w).toNat ≤ 0x10 := by omega
      obtain ⟨hz, hm⟩ := markedZero_of_decodeWord hd hlow hhigh
      have hrange : ¬operandsInRange w s.chan := (h.resolve_left (not_not_intro hz)).resolve_left (not_not_intro hm)
      rw [operandsInRange_iff_of_decodeWord hd hlow hhigh, not_and_or, Bool.not_eq_true] at hrange
      exact hrange.elim (fun hwf => exec_of_not_wf hi hwf s) exec_of_item_invalid

/-! ### The obligations -/

/-- Settles O20, from what the decoder asks of the marked fields and the meanings of the operands and the item. -/
theorem invalidWordRefused : Obligations.InvalidWordRefused := by
  intro s w items rest ho hin hbad
  rw [step_command ho hin]
  exact runWord_of_invalid hbad

/-- Settles O21: a reserved opcode decodes to its own row, and each such row is refused. -/
theorem reservedOpcodesRefused : Obligations.ReservedOpcodesRefused := by
  refine ⟨fun w hop => ?word, fun r s => ?rows⟩
  case word =>
    obtain ⟨i, hi, hrow⟩ := decodeWord_of_reserved hop
    exact ⟨i, hi, exec_of_reserved hrow hop⟩
  case rows =>
    refine ⟨?_, ?_, ?_, ?_, ?_, ?_, ?_, ?_, ?_, ?_, ?_, ?_, ?_, ?_, ?_, ?_⟩
    all_goals exact exec_of_reserved rfl (by decide) s

end Sys2Proof.Machine
end

section
/-!
PROOFS. Segment and file framing (40_address_ops.md R166, R167): SET_SEGMENT once it is taken, and what trimming leaves of
a payload with and without the end-of-file marker; then the obligations about them.
-/

namespace Sys2Proof.Machine

/-! ### SET_SEGMENT -/

/-- A valid SET_SEGMENT with nothing outstanding is taken, and SEG is all it writes. -/
theorem exec_setSegment_of_free {s : State} {isNone : Bool} {value : BitVec 17} (hs : s.free)
    (hv : (if isNone then value == 0 else offsetValid value) = true) :
    exec (.setSegment isNone value) s =
      .next ((s.setSeg (if isNone then s.cfg.dataSeg else norm16 value.toInt)).completed .nothing) := by
  obtain ⟨hout, hchan⟩ := hs
  have hvalid := Bool.and_eq_true_iff.2 ⟨hv, s.noItems_iff.2 hchan⟩
  rw [exec, execSetSegment, command_taken hout hvalid, State.respond_eq]

/-! ### Trimming -/

theorem trim_of_eofMark (c : Config) (q : List Byte) :
    trim c (q ++ [c.eofMark]) = if c.tandy then q.take (q.length - 7) else q := by
  simp [trim]

theorem trim_of_no_eofMark {c : Config} {p : List Byte} (h : ∀ q, p ≠ q ++ [c.eofMark]) :
    trim c p = if c.tandy then p.take (p.length - 7) else p := by
  have hlast : p.getLast? ≠ some c.eofMark := fun hp => by
    obtain ⟨q, hq⟩ := List.getLast?_eq_some_iff.1 hp
    exact h q hq
  simp [trim, hlast]

theorem take_length_sub_seven {q tail : List Byte} (h : tail.length = 7) :
    (q ++ tail).take ((q ++ tail).length - 7) = q :=
  List.take_left' (by rw [List.length_append, h, Nat.add_sub_cancel])

/-- On Tandy a payload of at most seven bytes is all header copy, whether or not a marker ends it. -/
theorem trim_eq_nil_of_short {c : Config} {p : List Byte} (hlen : p.length ≤ 7) (ht : c.tandy = true) :
    trim c p = [] := by
  by_cases hmark : ∃ q, p = q ++ [c.eofMark]
  · obtain ⟨q, rfl⟩ := hmark
    have hq : q.length - 7 = 0 := by rw [List.length_append] at hlen; omega
    rw [trim_of_eofMark, if_pos ht, hq, List.take_zero]
  · rw [trim_of_no_eofMark (not_exists.1 hmark), if_pos ht, Nat.sub_eq_zero_of_le hlen, List.take_zero]

/-! ### The obligations -/

/-- Settles O36: both forms are taken, and `norm16` is the value the second stores. -/
theorem setSegmentOutcome : Obligations.SetSegmentOutcome := by
  intro s hs
  refine ⟨exec_setSegment_of_free hs rfl, fun value hv => ?_⟩
  exact ⟨norm16 value.toInt, norm16_toNat hv, exec_setSegment_of_free hs ((offsetValid_iff value).2 hv)⟩

/-- Settles O37, by whether the marker ends the payload and whether the block is Tandy's. -/
theorem trimOutcome : Obligations.TrimOutcome := by
  intro c p
  refine ⟨?marker, ?plain, ?tandyMarker, ?tandy, trim_eq_nil_of_short⟩
  case marker =>
    rintro q rfl ht
    simp [trim_of_eofMark, ht]
  case plain =>
    intro hmark ht
    simp [trim_of_no_eofMark hmark, ht]
  case tandyMarker =>
    rintro q tail rfl htail ht
    rw [trim_of_eofMark, if_pos ht, take_length_sub_seven htail]
  case tandy =>
    rintro q tail rfl hmark htail ht
    rw [trim_of_no_eofMark hmark, if_pos ht, take_length_sub_seven htail]

end Sys2Proof.Machine
end

section
/-!
PROOFS. The tone queue (41_tone_queue.md): the noise table after an append (R202), the commands that need no item and
complete at once (R207 to R210, R331); then the obligations about them.
-/

namespace Sys2Proof.Machine

/-! ### The noise table -/

/-- R333 keeps the linked entries inside the noise table. -/
theorem noiseLinked_lt_of_wf {c : Config} (h : c.wf = true) {i : Nat} (hi : i ∈ c.noiseLinked) : i < c.noiseSize := by
  simp only [Config.wf, Bool.and_eq_true, List.all_eq_true, decide_eq_true_eq] at h
  obtain ⟨⟨⟨⟨-, hlinked⟩, -⟩, -⟩, -⟩ := h
  exact hlinked i hi

/-- The linked entries of the table become half of the frequency, every other entry stays. -/
theorem getElem?_linkNoise (linked : List Nat) (f : Freq) (t : List Freq) (i : Nat) :
    (linkNoise linked f t)[i]? = if i ∈ linked then t[i]?.map fun _ => halfFreq f else t[i]? := by
  induction linked generalizing t with
  | nil => rfl
  | cons j linked ih =>
    have hstep : linkNoise (j :: linked) f t = linkNoise linked f (t.set j (halfFreq f)) := rfl
    rw [hstep, ih]
    by_cases hij : i = j
    · subst hij
      simp [List.getElem?_set_self', Function.const_def]
    · simp [hij, List.getElem?_set_ne (Ne.symm hij)]

theorem State.noiseFreq_append_of_linked (s : State) {e : Event} (hf : e.freq.coef ≠ 0) :
    (s.append .v2 e).noiseFreq = linkNoise s.cfg.noiseLinked e.freq s.noiseFreq := by
  rw [State.append_eq, State.withEvent, if_pos ⟨rfl, hf⟩]

theorem State.noiseFreq_append_of_unlinked (s : State) {v : Voice} {e : Event} (h : v ≠ .v2 ∨ e.freq.coef = 0) :
    (s.append v e).noiseFreq = s.noiseFreq := by
  rw [State.append_eq, State.withEvent, if_neg fun ⟨hv, hf⟩ => h.elim (· hv) hf]

/-! ### Commands without an item -/

/-- A command that only asks for an empty data channel is taken where nothing is outstanding. -/
theorem command_noItems_of_free {s : State} (hs : s.free) (body : State → State) :
    command s.noItems body s = .next (body s) := by
  obtain ⟨hout, hchan⟩ := hs
  exact command_taken hout (s.noItems_iff.2 hchan)

section
variable {s : State} (hs : s.free)
include hs

theorem exec_qlen_of_free (v : Voice) : exec (.qlen v) s = .next (s.completed (.nat (s.adj v))) := by
  rw [exec, execQlen, command_noItems_of_free hs, State.respond_eq]

theorem exec_isPlaying_of_free (v : Voice) : exec (.isPlaying v) s = .next (s.completed (.bool (s.playing v))) := by
  rw [exec, execIsPlaying, command_noItems_of_free hs, State.respond_eq]

theorem exec_stopAll_of_free : exec .stopAll s = .next (s.flush.completed .nothing) := by
  rw [exec, execStopAll, command_noItems_of_free hs, State.respond_eq]

theorem exec_soundReset_of_free : exec .soundReset s = .next (s.flush.soundDefaults.completed .nothing) := by
  rw [exec, execSoundReset, command_noItems_of_free hs, State.respond_eq]

end

/-- The adjusted length is the queue's length less one, and never negative (R35). -/
theorem State.adj_eq_max (s : State) (v : Voice) : (s.adj v : Int) = max 0 (((s.queue.get v).length : Int) - 1) := by
  rw [State.adj_eq]
  omega

/-- What a flush writes, field by field: the renderer's stop reaches no collaborator's memory (R207). -/
theorem State.flush_eq (s : State) :
    s.flush = { s with
      queue := { v0 := [], v1 := [], v2 := [], noise := [] }
      stopReq := true
      events := s.events ++ [Emit.rendererStop] } := rfl

/-! ### The obligations -/

/-- Settles O46: what an append does to the table, entry by entry; R333 puts every linked entry inside it. -/
theorem noiseLinkage : Obligations.NoiseLinkage := by
  intro s v e i hwf hsize
  refine ⟨?linked, ?others, s.noiseFreq_append_of_unlinked⟩
  case linked =>
    rintro rfl hf hi
    have hlt : i < s.noiseFreq.length := hsize ▸ noiseLinked_lt_of_wf hwf hi
    rw [s.noiseFreq_append_of_linked hf, getElem?_linkNoise, if_pos hi, List.getElem?_eq_getElem hlt]
    rfl
  case others =>
    rintro rfl hf hi
    rw [s.noiseFreq_append_of_linked hf, getElem?_linkNoise, if_neg hi]

/-- Settles O41: the answers are `adj` and `playing`, and both commands complete at once. -/
theorem queueReports : Obligations.QueueReports := by
  intro s v hs
  exact ⟨⟨s.adj v, s.adj_eq_max v, exec_qlen_of_free hs v⟩,
    ⟨s.playing v, s.playing_iff v, exec_isPlaying_of_free hs v⟩⟩

/-- Settles O45: STOP_ALL is a flush; SOUND_RESET writes its defaults on top of one. -/
theorem stopAndSoundReset : Obligations.StopAndSoundReset := by
  intro s hs
  refine ⟨?stopAll, ?soundReset⟩
  case stopAll => rw [exec_stopAll_of_free hs, State.flush_eq]
  case soundReset =>
    rw [exec_soundReset_of_free hs, State.flush_eq]
    rfl

end Sys2Proof.Machine
end

section
/-!
PROOFS. The MML units (42_mml.md): the note table as real numbers (R246), the note names (R247), what the octave shifts
clamp to (R255, R256), and the units that take no argument (R249, R255, R256, R259 to R264, R266); then the obligations
about them.
-/

namespace Sys2Proof.Machine

/-! ### The note table -/

/-- The model's power of two is the library's. -/
theorem pow2_eq_zpow (z : Int) : pow2 z = (2 : Rat) ^ z := by
  cases z with
  | ofNat n => simp [pow2]
  | negSucc n => simp [pow2, zpow_negSucc]

/-- Whole octaves and the remaining semitones together are the distance: what the rational part and the base of a table
frequency stand for is one real power of two. -/
theorem semitoneFreq_real (c : Rat) (d : Int) :
    ∃ k : Fin 12, (semitoneFreq c d).base = .semitone k ∧
      (((semitoneFreq c d).coef : Rat) : Real) * (2 : Real) ^ ((k.val : Real) / 12) =
        c * (2 : Real) ^ ((d : Real) / 12) := by
  refine ⟨Fin.ofNat 12 (d % 12).toNat, rfl, ?_⟩
  set k := Fin.ofNat 12 (d % 12).toNat
  have hsplit : d = 12 * (d / 12) + (k.val : Int) := by
    have hval : k.val = (d % 12).toNat % 12 := rfl
    omega
  have hexp : (d : Real) / 12 = ((d / 12 : Int) : Real) + (k.val : Real) / 12 := by
    have hcast : (d : Real) = 12 * ((d / 12 : Int) : Real) + (k.val : Real) := by exact_mod_cast hsplit
    rw [hcast]
    ring
  calc (((semitoneFreq c d).coef : Rat) : Real) * (2 : Real) ^ ((k.val : Real) / 12)
      = c * ((2 : Real) ^ (d / 12) * (2 : Real) ^ ((k.val : Real) / 12)) := by
        simp only [semitoneFreq, pow2_eq_zpow]
        push_cast
        ring
    _ = c * (2 : Real) ^ ((d : Real) / 12) := by
        rw [hexp, Real.rpow_add two_pos, Real.rpow_intCast]

/-! ### Note names -/

theorem semi_eq_none_iff (l : Letter) (acc : Option Acc) :
    semi l acc = none ↔
      (l, acc) ∈ [(Letter.C, some Acc.flat), (.E, some .sharp), (.F, some .flat), (.B, some .sharp)] := by
  rcases acc with _ | _ | _ <;> cases l <;> decide

/-- Where both names stand in the table, a sharp is one semitone up. -/
theorem semi_sharp {l : Letter} {st st' : Fin 12} (h : semi l none = some st) (h' : semi l (some .sharp) = some st') :
    st'.val = st.val + 1 := by
  cases l <;> cases h <;> cases h' <;> rfl

/-- Where both names stand in the table, a flat is one semitone down. -/
theorem semi_flat {l : Letter} {st st' : Fin 12} (h : semi l none = some st) (h' : semi l (some .flat) = some st') :
    st'.val + 1 = st.val := by
  cases l <;> cases h <;> cases h' <;> rfl

/-! ### Octave shifts -/

theorem clampOct_val (n : Nat) : (clampOct n).val = min n 6 := rfl

/-- One octave down from an octave is clamped at 0 only: the natural subtraction stops there. -/
theorem clampOct_pred_val (o : Fin 7) : ((clampOct (o.val - 1)).val : Int) = max ((o.val : Int) - 1) 0 := by
  rw [clampOct_val]
  omega

/-! ### Units without an argument -/

theorem State.setPs_eq (s : State) (v : ToneVoice) (p : PlayState) : s.setPs v p = { s with ps := s.ps.set v p } := rfl

theorem State.setFg_eq (s : State) (b : Bool) : s.setFg b = { s with fg := b } := rfl

section
variable {s : State} {sc : Scan} (h : s.scanning sc)
include h

theorem exec_mmlNop_of_scanning : exec .mmlNop s = .next s := by
  rw [exec, execMmlNop, onUnit_scanning h]

theorem exec_mmlUp_of_scanning :
    exec .mmlUp s = .next (s.setPs sc.turn { s.ps.get sc.turn with
      eff := some (clampOct ((s.ps.get sc.turn).octave.val + 1)) }) := by
  rw [exec, execMmlUp, onUnit_scanning h]

theorem exec_mmlDown_of_scanning :
    exec .mmlDown s = .next (s.setPs sc.turn { s.ps.get sc.turn with
      eff := some (clampOct ((s.ps.get sc.turn).octave.val - 1)) }) := by
  rw [exec, execMmlDown, onUnit_scanning h]

theorem exec_mmlMN_of_scanning :
    exec .mmlMN s = .next (s.setPs sc.turn { s.ps.get sc.turn with speed := .normal }) := by
  rw [exec, execMmlMN, onUnit_scanning h]

theorem exec_mmlML_of_scanning :
    exec .mmlML s = .next (s.setPs sc.turn { s.ps.get sc.turn with speed := .legato }) := by
  rw [exec, execMmlML, onUnit_scanning h]

theorem exec_mmlMS_of_scanning :
    exec .mmlMS s = .next (s.setPs sc.turn { s.ps.get sc.turn with speed := .staccato }) := by
  rw [exec, execMmlMS, onUnit_scanning h]

theorem exec_mmlMF_of_scanning : exec .mmlMF s = .next { s with fg := true } := by
  rw [exec, execMmlMF, onUnit_scanning h, State.setFg_eq]

theorem exec_mmlMB_of_scanning : exec .mmlMB s = .next { s with fg := false } := by
  rw [exec, execMmlMB, onUnit_scanning h, State.setFg_eq]

theorem exec_mmlMOther_of_scanning (suffix : Option Byte) : exec (.mmlMOther suffix) s = .next (s.failed .ifc) := by
  rw [exec, execMmlMOther, onUnit_scanning h, State.raiseIfc_eq]

theorem exec_mmlOther_of_scanning (b : Byte) : exec (.mmlOther b) s = .next (s.failed .ifc) := by
  rw [exec, execMmlOther, onUnit_scanning h, State.raiseIfc_eq]

end

/-! ### The obligations -/

/-- Settles O60: the table is the semitones from A4 in powers of two; the names are read off their table. -/
theorem noteTableExact : Obligations.NoteTableExact := by
  refine ⟨fun anchor t => ?table, semi_eq_none_iff, rfl, fun _ _ _ => semi_sharp, fun _ _ _ => semi_flat⟩
  case table =>
    obtain ⟨k, hbase, hreal⟩ := semitoneFreq_real 440 ((t : Int) - anchor)
    refine ⟨k, hbase, hreal.trans ?_⟩
    push_cast
    rfl

/-- Settles O57, unit by unit; the two shifts by what the clamp leaves of the octave they reach. -/
theorem modifierUnits : Obligations.ModifierUnits := by
  intro s sc h
  exact ⟨exec_mmlNop_of_scanning h,
    ⟨_, clampOct_val _, exec_mmlUp_of_scanning h⟩,
    ⟨_, clampOct_pred_val _, exec_mmlDown_of_scanning h⟩,
    ⟨.normal, rfl, exec_mmlMN_of_scanning h⟩,
    ⟨.legato, rfl, exec_mmlML_of_scanning h⟩,
    ⟨.staccato, rfl, exec_mmlMS_of_scanning h⟩,
    exec_mmlMF_of_scanning h, exec_mmlMB_of_scanning h⟩

/-- Settles O59: both units raise IFC, whatever their byte. -/
theorem badUnitsRaise : Obligations.BadUnitsRaise := by
  intro s sc h
  exact ⟨exec_mmlMOther_of_scanning h, exec_mmlOther_of_scanning h⟩

end Sys2Proof.Machine
end

section
/-!
PROOFS. The two languages (30_encoding.md): a command word and its row of the opcode table (R121, R125, R127), a unit and
the bytes it takes from a text (R128 to R135); then the obligations about them.
-/

namespace Sys2Proof.Machine

/-! ### Case folding -/

theorem fold_fold (c : Byte) : fold (fold c) = fold c := by revert c; decide

theorem fold_of_not_lower {c : Byte} (h : c.toNat < 0x61 ∨ 0x7A < c.toNat) : fold c = c := by
  rw [fold, if_neg (by omega)]

theorem toNat_fold_of_lower {c : Byte} (hlo : 0x61 ≤ c.toNat) (hhi : c.toNat ≤ 0x7A) :
    (fold c).toNat + 0x20 = c.toNat := by
  rw [fold, if_pos ⟨hlo, hhi⟩]
  bv_omega

theorem isCommandByte_of_high {c : Byte} (h : 0x80 ≤ c.toNat) : isCommandByte c = false := by
  rw [isCommandByte, fold_of_not_lower (by omega)]
  simp only [List.mem_cons, List.not_mem_nil, or_false, decide_eq_false_iff_not]
  omega

/-! ### Which unit a byte begins -/

theorem decodeFrom_of_not_command {c : Byte} (r : List Byte) (h : isCommandByte c = false) :
    decodeFrom c r = (.mmlOther c, r) := by
  simp only [isCommandByte, List.mem_cons, List.not_mem_nil, or_false, decide_eq_false_iff_not, not_or] at h
  simp only [decodeFrom]
  split <;> first | rfl | omega

/-- The command letters are told apart after folding, so a folded letter begins the same unit (R128). -/
theorem decodeFrom_fold {c : Byte} (r : List Byte) (h : isCommandByte c = true) :
    decodeFrom (fold c) r = decodeFrom c r := by
  simp only [isCommandByte, List.mem_cons, List.not_mem_nil, or_false, decide_eq_true_eq] at h
  rcases h with h | h | h | h | h | h | h | h | h | h | h | h | h | h | h | h | h | h <;>
    simp only [decodeFrom, fold_fold, h]

theorem readMode_of_not_suffix {b : Byte} (r : List Byte) (h : isModeSuffix b = false) :
    readMode (b :: r) = (.mmlMOther (some b), r) := by
  simp only [isModeSuffix, List.mem_cons, List.not_mem_nil, or_false, decide_eq_false_iff_not, not_or] at h
  simp only [readMode]
  split <;> first | rfl | omega

/-! ### What a unit leaves of the text -/

theorem readNum_suffix (r : List Byte) : (readNum r).2 <:+ r := by
  unfold readNum
  split
  · exact List.suffix_refl r
  · exact List.dropWhile_suffix _

theorem readDot_suffix (r : List Byte) : (readDot r).2 <:+ r := by
  cases r with
  | nil => exact List.suffix_refl _
  | cons b r =>
    simp only [readDot]
    split
    · exact List.suffix_cons b r
    · exact List.suffix_refl _

theorem readAcc_suffix (r : List Byte) : (readAcc r).2 <:+ r := by
  cases r with
  | nil => exact List.suffix_refl _
  | cons b r =>
    simp only [readAcc]
    split_ifs
    · exact List.suffix_cons b r
    · exact List.suffix_cons b r
    · exact List.suffix_refl _

theorem readArg_suffix (mk : Option Nat → Instr) (r : List Byte) : (readArg mk r).2 <:+ r := readNum_suffix r

theorem readNumDot_suffix (mk : Option Nat → Bool → Instr) (r : List Byte) : (readNumDot mk r).2 <:+ r := by
  have hnum := readNum_suffix r
  unfold readNumDot
  split
  · rename_i r1 hr
    rwa [hr] at hnum
  · rename_i n r1 hr
    rw [hr] at hnum
    exact (readDot_suffix r1).trans hnum

theorem readPause_suffix (mk : Option Nat → Bool → Instr) (r : List Byte) : (readPause mk r).2 <:+ r :=
  (readDot_suffix _).trans (readNum_suffix r)

theorem readNote_suffix (mk : Option Acc → Option Nat → Bool → Instr) (r : List Byte) : (readNote mk r).2 <:+ r :=
  (readPause_suffix _ _).trans (readAcc_suffix r)

theorem readSplice_suffix (r : List Byte) : (readSplice r).2 <:+ r := by
  have hdrop := List.dropWhile_suffix (l := r) (fun b => !isSemicolon b)
  unfold readSplice
  split
  · exact List.nil_suffix
  · rename_i b rest hr
    rw [hr] at hdrop
    exact (List.suffix_cons b rest).trans hdrop

theorem readMode_suffix (r : List Byte) : (readMode r).2 <:+ r := by
  cases r with
  | nil => exact List.suffix_refl _
  | cons b r => simp only [readMode]; split <;> exact List.suffix_cons b r

/-- A unit takes its first byte and leaves a suffix of what follows (R134). -/
theorem decodeFrom_suffix (c : Byte) (r : List Byte) : (decodeFrom c r).2 <:+ r := by
  unfold decodeFrom
  split <;>
    first
    | exact List.suffix_refl r
    | exact readArg_suffix _ r
    | exact readNote_suffix _ r
    | exact readSplice_suffix r
    | exact readNumDot_suffix _ r
    | exact readPause_suffix _ r
    | exact readMode_suffix r

/-! ### Reading an encoded unit back -/

/-- The text cannot be taken for an operand of the unit before it. -/
def beginsNoOperand (r : List Byte) : Prop := noDigit r ∧ noDot r ∧ noAcc r

theorem beginsNoOperand_nil : beginsNoOperand [] :=
  ⟨noDigit_nil, by simp [noDot], by simp [noAcc]⟩

theorem beginsNoOperand_semicolon (r : List Byte) : beginsNoOperand (0x3B :: r) := by
  refine ⟨?_, by simp [noDot], by simp [noAcc]⟩
  intro b hb
  cases hb
  decide

theorem readSplice_terminated {ref : List Byte} (h : ref.all (fun b => !isSemicolon b) = true) (r : List Byte) :
    readSplice (ref ++ 0x3B :: r) = (.mmlX ref true, r) := by
  have href := List.all_eq_true.1 h
  have htake : (ref ++ 0x3B :: r).takeWhile (fun b => !isSemicolon b) = ref := by
    rw [List.takeWhile_append_of_pos href]; simp [isSemicolon]
  have hdrop : (ref ++ 0x3B :: r).dropWhile (fun b => !isSemicolon b) = 0x3B :: r := by
    rw [List.dropWhile_append_of_pos href]; simp [isSemicolon]
  simp only [readSplice, htake, hdrop]

theorem readSplice_unterminated {ref : List Byte} (h : ref.all (fun b => !isSemicolon b) = true) :
    readSplice ref = (.mmlX ref false, []) := by
  have href := List.all_eq_true.1 h
  simp only [readSplice, List.takeWhile_eq_self_iff.2 href, List.dropWhile_eq_nil_iff.2 href]

/-- An encoded unit is read whole where its operands end with it. Only a splice without its `;` and an `M` without a
suffix need the end of the text (R133, R134). -/
theorem decodeUnit_encode_append {i : Instr} {bs r : List Byte} (hi : encode i = .unit bs) (he : i.encodable = true)
    (hr : beginsNoOperand r) (hopen : (∃ ref, i = .mmlX ref false) ∨ i = .mmlMOther none → r = []) :
    decodeUnit (bs ++ r) = some (i, r) := by
  obtain ⟨hdigit, hdot, hacc⟩ := hr
  cases i <;> simp only [encode, reduceCtorEq, Code.unit.injEq, noteBytes] at hi
  case mmlNop | mmlUp | mmlDown | mmlMN | mmlML | mmlMS | mmlMF | mmlMB => subst hi; rfl
  case mmlL n | mmlT n | mmlO n | mmlV n => subst hi; exact congrArg some (readArg_bytes _ n hdigit)
  case mmlA acc len dot | mmlB acc len dot | mmlC acc len dot | mmlD acc len dot | mmlE acc len dot |
      mmlF acc len dot | mmlG acc len dot =>
    subst hi
    exact congrArg some (readNote_bytes _ acc len dot hdigit hdot hacc)
  case mmlP len dot => subst hi; exact congrArg some (readPause_bytes .mmlP len dot hdigit hdot)
  case mmlN n dot =>
    subst hi
    refine congrArg some (readNumDot_bytes .mmlN n dot hdigit hdot ?_)
    rintro rfl
    simpa [Instr.encodable] using he
  case mmlX ref term =>
    subst hi
    cases term with
    | true =>
      rw [if_pos rfl, List.cons_append, List.append_assoc]
      exact congrArg some (readSplice_terminated he r)
    | false =>
      rw [hopen (.inl ⟨ref, rfl⟩), if_neg Bool.false_ne_true, List.append_nil, List.append_nil]
      exact congrArg some (readSplice_unterminated he)
  case mmlMOther suffix =>
    cases suffix with
    | none =>
      rw [hopen (.inr rfl)]
      cases hi
      rfl
    | some b =>
      cases hi
      exact congrArg some (readMode_of_not_suffix r (by simpa [Instr.encodable] using he))
  case mmlOther b =>
    subst hi
    exact congrArg some (decodeFrom_of_not_command r (by simpa [Instr.encodable] using he))

/-! ### Rows of the opcode table -/

/-- A masked word is compared field by field (R121). -/
theorem and_eq_iff_fields (w m x : Word) :
    w &&& m = x ↔ fieldOp w &&& fieldOp m = fieldOp x ∧ fieldF w &&& fieldF m = fieldF x ∧
      fieldA w &&& fieldA m = fieldA x ∧ fieldB w &&& fieldB m = fieldB x ∧ fieldZ w &&& fieldZ m = fieldZ x := by
  simp only [word_ext (w &&& m) x, fieldOp, fieldF, fieldA, fieldB, fieldZ, BitVec.extractLsb'_and]

/-- A word matches the row of an opcode exactly when it holds the opcode and, in a row of the 16 commands, has Z and the
marked fields 0 (R121, R125, R127). -/
theorem rowMatches_iff {op : Nat} (hop : op < 32) (w : Word) :
    rowMatches op w ↔
      fieldOp w = BitVec.ofNat 5 op ∧ (1 ≤ op → op ≤ 0x10 → fieldZ w = 0 ∧ markedZero w) := by
  have hand5 (x : BitVec 5) : x &&& 31#5 = x := BitVec.and_allOnes
  have hand4 (x : BitVec 4) : x &&& 15#4 = x := BitVec.and_allOnes
  have hand17 (x : BitVec 17) : x &&& 131071#17 = x := BitVec.and_allOnes
  have hand21 (x : BitVec 21) : x &&& 2097151#21 = x := BitVec.and_allOnes
  rw [rowMatches, and_eq_iff_fields, markedZero]
  simp only [toNat_lt_two_iff, toNat_lt_four_iff]
  generalize fieldOp w = o, fieldF w = f, fieldA w = a, fieldB w = b, fieldZ w = z
  rcases (by omega : op = 0 ∨ 0x11 ≤ op ∨ 1 ≤ op ∧ op ≤ 0x10) with rfl | hreserved | ⟨hlow, hhigh⟩
  · simp [rowMask, fieldOp, fieldF, fieldA, fieldB, fieldZ, hand5]
  · interval_cases op
    all_goals simp [rowMask, fieldOp, fieldF, fieldA, fieldB, fieldZ, hand5]
  interval_cases op
  all_goals
    simp only [rowMask, fieldOp, fieldF, fieldA, fieldB, fieldZ]
    simp only [Nat.reduceLeDiff, forall_const, BitVec.ofNat_eq_ofNat, BitVec.reduceExtractLsb', BitVec.and_zero,
      true_and, hand5, hand4, hand17, hand21]
    refine and_congr_right fun ho => ?_
    subst ho
    simp [and_comm, and_assoc]

theorem checked_of_zero {z : BitVec 21} {f : BitVec 4} {a b : BitVec 17} (i : Instr) (hz : z = 0) (hf : f = 0)
    (ha : a = 0) (hb : b = 0) : checked z f a b i = .ok i := by simp [checked, hz, hf, ha, hb]

/-- The decoder accepts a word of the 16 commands that has Z and the marked fields 0. -/
theorem decodeWord_of_markedZero {w : Word} (hlow : 1 ≤ (fieldOp w).toNat) (hhigh : (fieldOp w).toNat ≤ 0x10)
    (hz : fieldZ w = 0) (hm : markedZero w) : ∃ i, decodeWord w = .ok i := by
  simp only [markedZero, toNat_lt_two_iff, toNat_lt_four_iff] at hm
  interval_cases hop : (fieldOp w).toNat
  all_goals
    simp only at hm
    simp only [decodeWord, hop]
    exact ⟨_, checked_of_zero _ hz (by simp only [hm]) (by simp only [hm]) (by simp only [hm])⟩

/-- A reserved word keeps all of its other bits in its operand (R127). -/
theorem encode_of_decodeWord_reserved {w : Word} {i : Instr} (hop : (fieldOp w).toNat = 0 ∨ 0x11 ≤ (fieldOp w).toNat)
    (h : decodeWord w = .ok i) : encode i = .word w := by
  have hlt : (fieldOp w).toNat < 32 := (fieldOp w).isLt
  have hofNat : fieldOp w = BitVec.ofNat 5 (fieldOp w).toNat := by simp
  have hres := reservedWord_fields w
  rcases hop with hop | hlow
  · rw [hofNat, hop] at hres
    simp only [decodeWord, hop] at h
    cases h
    exact congrArg Code.word hres
  · interval_cases hop : (fieldOp w).toNat
    all_goals
      rw [hofNat] at hres
      simp only [decodeWord, hop] at h
      cases h
      exact congrArg Code.word hres

/-- A word of the 16 commands has Z and the marked fields 0, and every other field is an operand (R121, R125). -/
theorem encode_of_decodeWord_command {w : Word} {i : Instr} (hlow : 1 ≤ (fieldOp w).toNat)
    (hhigh : (fieldOp w).toNat ≤ 0x10) (h : decodeWord w = .ok i) : encode i = .word w := by
  have hofNat : fieldOp w = BitVec.ofNat 5 (fieldOp w).toNat := by simp
  have hword := hostWord_fields w
  have hnone (hf : fieldF w &&& 0xE = 0) : noneBits ((fieldF w).getLsbD 0) = fieldF w := (flagF_of_and _ hf).symm
  have hlowF (hf : fieldF w &&& 0xC = 0) : lowF ((fieldF w).extractLsb' 0 2) = fieldF w := (lowF_of_and _ hf).symm
  interval_cases hop : (fieldOp w).toNat
  all_goals
    rw [hofNat] at hword
    simp only [decodeWord, hop] at h
    obtain ⟨hz, hf, ha, hb, rfl⟩ := checked_ok h
    refine congrArg Code.word (Eq.trans ?_ (hword hz))
    simp (disch := exact hf) only [voiceBits_voiceOf, hnone, hlowF, hf, ha, hb, BitVec.ofNat_eq_ofNat]

/-- No bit of a word is lost by decoding: the marked fields are 0, and every other field is an operand. -/
theorem encode_of_decodeWord {w : Word} {i : Instr} (h : decodeWord w = .ok i) : encode i = .word w := by
  rcases (by omega : ((fieldOp w).toNat = 0 ∨ 0x11 ≤ (fieldOp w).toNat) ∨
    1 ≤ (fieldOp w).toNat ∧ (fieldOp w).toNat ≤ 0x10) with hres | ⟨hlow, hhigh⟩
  · exact encode_of_decodeWord_reserved hres h
  · exact encode_of_decodeWord_command hlow hhigh h

/-- A host command's word decodes to it: its fields are the operands, and what the row marks 0 was written as 0. -/
theorem decodeWord_of_encode {w : Word} {i : Instr} (hi : encode i = .word w) : decodeWord w = .ok i := by
  cases i <;> simp only [encode, reduceCtorEq, Code.word.injEq, noteBytes] at hi
  case mmlMOther suffix => cases suffix <;> cases hi
  case reserved00 | reserved11 | reserved12 | reserved13 | reserved14 | reserved15 | reserved16 | reserved17 |
      reserved18 | reserved19 | reserved1A | reserved1B | reserved1C | reserved1D | reserved1E | reserved1F =>
    subst hi
    simp [decodeWord, reservedWord_rest]
  case setSegment | bload =>
    subst hi
    simp only [decodeWord, fieldOp_hostWord, fieldF_hostWord, fieldA_hostWord, fieldB_hostWord, fieldZ_hostWord,
      noneBits_getLsbD]
    exact checked_of_zero _ rfl (noneBits_and _) rfl rfl
  case enqueue | playAndWait | isPlaying | qlen | play =>
    subst hi
    simp only [decodeWord, fieldOp_hostWord, fieldF_hostWord, fieldA_hostWord, fieldB_hostWord, fieldZ_hostWord,
      lowF_extract, voiceOf_voiceBits]
    exact checked_of_zero _ rfl (lowF_and _) rfl rfl
  all_goals
    subst hi
    simp [decodeWord, checked]

/-! ### The obligations -/

/-- Settles O5: a command word by its fields, a unit as one that the end of the text follows. -/
theorem decodeEncode : Obligations.DecodeEncode := by
  intro i he
  cases hi : encode i with
  | unit bs =>
    have hread := decodeUnit_encode_append hi he beginsNoOperand_nil fun _ => rfl
    rw [List.append_nil] at hread
    simp only [decode, hread]
  | word w => exact decodeWord_of_encode hi

/-- Settles O4, from what each row's mask asks of the fields. -/
theorem decodeFollowsOpcodeTable : Obligations.DecodeFollowsOpcodeTable := by
  refine ⟨fun w i h => ⟨(fieldOp w).toNat, hostOpcode_of_decodeWord h, ?row⟩, fun w op hop hmatch => ?word⟩
  case row =>
    exact (rowMatches_iff (fieldOp w).isLt w).2 ⟨by simp, markedZero_of_decodeWord h⟩
  case word =>
    obtain ⟨hofNat, hmarked⟩ := (rowMatches_iff hop w).1 hmatch
    have heq : (fieldOp w).toNat = op := by rw [hofNat, BitVec.toNat_ofNat]; omega
    by_cases hres : op = 0 ∨ 0x11 ≤ op
    · rw [← heq] at hres
      obtain ⟨i, hi, hrow⟩ := decodeWord_of_reserved hres
      exact ⟨i, hi, heq ▸ hrow⟩
    · have hlow : 1 ≤ op := by omega
      have hhigh : op ≤ 0x10 := by omega
      obtain ⟨hz, hm⟩ := hmarked hlow hhigh
      obtain ⟨i, hi⟩ := decodeWord_of_markedZero (heq ▸ hlow) (heq ▸ hhigh) hz hm
      exact ⟨i, hi, heq ▸ hostOpcode_of_decodeWord hi⟩

/-- Settles O6, field by field of the word. -/
theorem encodeDecodeWord : Obligations.EncodeDecodeWord := fun _ _ => encode_of_decodeWord

/-- Settles O7: `;` is no operand byte, so the unit ends before it. -/
theorem unitEndsBeforeSemicolon : Obligations.UnitEndsBeforeSemicolon := by
  intro i bs r hi he hsplice hmode
  refine decodeUnit_encode_append hi he (beginsNoOperand_semicolon r) fun hopen => ?_
  rcases hopen with ⟨ref, href⟩ | hm
  · exact absurd href (hsplice ref)
  · exact absurd hm hmode

/-- Settles O8, from what each format leaves of the text and what case folding does to a byte. -/
theorem unitScanning : Obligations.UnitScanning := by
  refine ⟨fun bs => ⟨?empty, fun i rest h => ?suffix⟩, fun c r => ⟨?lower, ?other, isCommandByte_of_high⟩,
    fun b r => ⟨?_, ?_, ?_, ?_, ?_⟩, fun c => ⟨toNat_fold_of_lower, fold_of_not_lower⟩⟩
  case empty => cases bs <;> simp [decodeUnit]
  case suffix =>
    cases bs with
    | nil => cases h
    | cons c r =>
      obtain ⟨taken, htaken⟩ := decodeFrom_suffix c r
      refine ⟨c :: taken, List.cons_ne_nil _ _, ?_⟩
      rw [Option.some.inj h] at htaken
      rw [List.cons_append, htaken]
  case lower => exact fun h => congrArg some (decodeFrom_fold r h).symm
  case other => exact fun h => congrArg some (decodeFrom_of_not_command r h)
  all_goals rintro (rfl | rfl) <;> rfl

/-- Settles O9 by running both decoders on each sample. -/
theorem decodeSampleWords : Obligations.DecodeSampleWords := by
  refine ⟨?_, ?_, ?_, ?_, ?_, ?_, ?_⟩ <;> rfl

/-- Settles O1: the step takes the word with its items, and the decoder says what runs. -/
theorem stepRunsDecodedWord : Obligations.StepRunsDecodedWord := by
  intro s w items rest ho hin
  rw [step_command ho hin, runWord]
  refine ⟨fun i hi => ?_, fun e he => ?_⟩
  · rw [hi]
  · rw [he, State.refuse_eq]

end Sys2Proof.Machine
end

section
/-!
PROOFS. The invariant (10_state.md, 70_reset_and_hazards.md): session construction establishes it, each update the meanings
are made of keeps it, so every instruction, every resumption and every step does; and no state that meets it stops the
machine.
-/

namespace Sys2Proof.Machine

/-! ### Session construction -/

theorem noiseInit_of_wf {c : Config} (h : c.wf = true) :
    c.noiseInit.length = c.noiseSize ∧ ∀ f ∈ c.noiseInit, 0 ≤ f.coef := by
  simp only [Config.wf, Bool.and_eq_true, beq_iff_eq, List.all_eq_true, decide_eq_true_eq] at h
  obtain ⟨⟨⟨-, hlength⟩, hsign⟩, -⟩ := h
  exact ⟨hlength, hsign⟩

theorem session_inv {c : Config} (h : c.wf = true) : (State.session c).Inv where
  config := h
  depth v n _ := by simp [State.session]
  queued v e he := by simp [State.session] at he
  current v e he := by simp [State.session] at he
  inFlight v := by simp [State.session]
  noiseSize := (noiseInit_of_wf h).1
  noiseSign := (noiseInit_of_wf h).2
  scanner := rfl
  scanOk sc hsc := by cases hsc
  pending k hk := by cases hk
  fontWf := Memory.wf_nil
  videoWf := Memory.wf_nil
  dataWf := Memory.wf_nil

/-! ### Updates that keep the invariant -/

section
variable {s : State} (h : s.Inv)
include h

/-- The inbox, the channel and the records are no part of the invariant. -/
theorem State.Inv.of_inbox (rest : List Input) : ({ s with inbox := rest } : State).Inv :=
  State.inv_of_command h rfl rfl rfl rfl rfl ⟨[], rfl⟩ h.scanner h.scanOk h.pending

theorem State.Inv.of_taken (rest : List Input) (items : List DataItem) :
    ({ s with inbox := rest, chan := items } : State).Inv :=
  State.inv_of_command h rfl rfl rfl rfl rfl ⟨[], rfl⟩ h.scanner h.scanOk h.pending

theorem State.Inv.consulted (q : List Ask) : (s.consulted q).Inv :=
  State.inv_of_command h rfl rfl rfl rfl rfl ⟨[], rfl⟩ h.scanner h.scanOk h.pending

theorem State.Inv.turnedAway : s.turnedAway.Inv :=
  State.inv_of_command h rfl rfl rfl rfl rfl ⟨[], rfl⟩ h.scanner h.scanOk h.pending

theorem State.Inv.delivered (l : List Emit) : (s.delivered l).Inv :=
  State.inv_of_command h rfl rfl rfl rfl rfl ⟨l, rfl⟩ h.scanner h.scanOk h.pending

theorem State.Inv.setPs (v : ToneVoice) (p : PlayState) : (s.setPs v p).Inv :=
  State.inv_of_command h rfl rfl rfl rfl rfl ⟨[], rfl⟩ h.scanner h.scanOk h.pending

theorem State.Inv.setFg (b : Bool) : (s.setFg b).Inv :=
  State.inv_of_command h rfl rfl rfl rfl rfl ⟨[], rfl⟩ h.scanner h.scanOk h.pending

theorem State.Inv.setSeg (x : BitVec 16) : (s.setSeg x).Inv :=
  State.inv_of_command h rfl rfl rfl rfl rfl ⟨[], rfl⟩ h.scanner h.scanOk h.pending

/-- A command that is over takes its scanner with it (R39). -/
theorem State.Inv.completed (d : RespData) : (s.completed d).Inv :=
  State.inv_of_command h rfl rfl rfl rfl rfl ⟨[], rfl⟩ rfl (fun _ hsc => by cases hsc) (fun _ hc => by cases hc)

theorem State.Inv.failed (st : Status) : (s.failed st).Inv :=
  State.inv_of_command h rfl rfl rfl rfl rfl ⟨[], rfl⟩ rfl (fun _ hsc => by cases hsc) (fun _ hc => by cases hc)

/-- A command may be held where it is a PLAY's exactly if a scanner exists, and what it has to append is admissible. -/
theorem State.Inv.held {c : Cont} (hplay : s.scan.isSome = c.isPlay) (hadmits : c.admits = true) :
    ({ s with out := some c } : State).Inv :=
  State.inv_of_command h rfl rfl rfl rfl rfl ⟨[], rfl⟩ hplay h.scanOk fun _ hc => Option.some.inj hc ▸ hadmits

/-- A PLAY goes on with another sound scanner. -/
theorem State.Inv.scanned {sc : Scan} (hs : s.scan.isSome = true) (hok : sc.Ok) : (s.setScan sc).Inv :=
  State.inv_of_command h rfl rfl rfl rfl rfl ⟨[], rfl⟩ (hs.symm.trans h.scanner)
    (fun _ hsc => Option.some.inj hsc ▸ hok) h.pending

/-- An admissible event joins a queue with room. -/
theorem State.Inv.withEvent {v : Voice} {e : Event} (ha : e.admissible v = true) (hr : s.room v = true) :
    (s.withEvent v e).Inv :=
  State.inv_of_event h ha hr rfl rfl rfl rfl rfl rfl h.scanner h.scanOk h.pending

theorem State.Inv.flush : s.flush.Inv where
  config := h.config
  depth v n _ := by simp
  queued v e he := by simp at he
  current := h.current
  inFlight := h.inFlight
  noiseSize := h.noiseSize
  noiseSign := h.noiseSign
  scanner := h.scanner
  scanOk := h.scanOk
  pending := h.pending
  fontWf := h.fontWf
  videoWf := h.videoWf
  dataWf := h.dataWf

theorem State.Inv.soundDefaults : s.soundDefaults.Inv :=
  { h with
    noiseSize := (noiseInit_of_wf h.config).1
    noiseSign := (noiseInit_of_wf h.config).2 }

/-- An item in flight changes with BUSY, and its event is admissible (R36). -/
theorem State.Inv.setInFlight (v : Voice) {c : Option Event} (hc : ∀ e, c = some e → e.admissible v = true) :
    (s.setInFlight v c.isSome c).Inv :=
  { h with
    current := fun w e he => by
      by_cases hw : w = v
      · subst hw
        exact hc e (by simpa [State.setInFlight] using he)
      · exact h.current w e (by simpa [State.setInFlight, Quad.get_set_ne _ _ hw] using he)
    inFlight := fun w => by
      by_cases hw : w = v
      · subst hw
        simp [State.setInFlight]
      · simpa [State.setInFlight, Quad.get_set_ne _ _ hw] using h.inFlight w }

/-- A queue may lose its head. -/
theorem State.Inv.setQueue_tail {v : Voice} {e : Event} {q : List Event} (hq : s.queue.get v = e :: q) :
    (s.setQueue v q).Inv :=
  { h with
    depth := fun w n hn => by
      have hlen := h.depth w n hn
      by_cases hw : w = v
      · subst hw
        rw [hq, List.length_cons] at hlen
        simpa [State.setQueue] using Nat.le_of_succ_le hlen
      · simpa [State.setQueue, Quad.get_set_ne _ _ hw] using hlen
    queued := fun w x hx => by
      by_cases hw : w = v
      · subst hw
        exact h.queued w x (hq ▸ List.mem_cons_of_mem e (by simpa [State.setQueue] using hx))
      · exact h.queued w x (by simpa [State.setQueue, Quad.get_set_ne _ _ hw] using hx) }

theorem State.Inv.stopAck : s.stopAck.Inv :=
  { h with
    current := fun v e he => by simp at he
    inFlight := fun v => by simp }

end

/-! ### The agents -/

theorem State.Inv.renderer {s : State} (h : s.Inv) (r : RendererStep) : (rendererStep r s).Inv := by
  rcases rendererStep_cases r s with he | ⟨v, e, q, -, -, -, hq, he⟩ | ⟨v, -, -, he⟩ | ⟨-, -, he⟩ <;> rw [he]
  · exact h
  · have hadm : ∀ x, some e = some x → x.admissible v = true :=
      fun x hx => h.queued v x (by rw [hq, ← Option.some.inj hx]; exact List.mem_cons_self)
    exact (h.setQueue_tail hq).setInFlight v hadm
  · exact h.setInFlight v (c := none) (by simp)
  · exact h.stopAck

/-- A change of a collaborator keeps its memory canonical. -/
theorem State.Inv.changed {s : State} (h : s.Inv) (c : CollabChange) : (applyChange c s).Inv := by
  refine { h with fontWf := ?_, videoWf := ?_, dataWf := ?_ }
  · cases c with
    | fontByte a b => exact Memory.wf_write h.fontWf a b
    | _ => exact h.fontWf
  · cases c with
    | videoByte a b => exact Memory.wf_write h.videoWf a b
    | _ => exact h.videoWf
  · cases c with
    | dataByte a b => exact Memory.wf_write h.dataWf a b
    | _ => exact h.dataWf

theorem State.Inv.polled {s : State} (h : s.Inv) : (poll s).Inv := by
  rcases poll_cases s with ⟨-, he⟩ | ⟨w, items, rest, -, he⟩ | ⟨r, rest, -, he⟩ | ⟨c, rest, -, he⟩ <;> rw [he]
  · exact h
  · exact (h.of_inbox rest).turnedAway
  · exact (h.of_inbox rest).renderer r
  · exact h.of_inbox rest

/-! ### The scanner -/

/-- The scanner's turn and a smaller active set are free. -/
theorem Scan.ok_pass {sc : Scan} (h : sc.Ok) {act : Tri Bool}
    (hact : act = sc.active ∨ act = sc.active.set sc.turn false) :
    ({ sc with active := act, turn := nextTurn sc.turn } : Scan).Ok := by
  refine ⟨h.strings, h.cursor, h.total, fun v hv => h.participating v ?_⟩
  rcases hact with rfl | rfl
  · exact hv
  · by_cases hvt : v = sc.turn
    · subst hvt
      simp at hv
    · simpa [Tri.get_set_ne _ _ hvt] using hv

theorem Scan.ok_endTurn {sc : Scan} (h : sc.Ok) : ({ sc with turn := nextTurn sc.turn } : Scan).Ok :=
  ⟨h.strings, h.cursor, h.total, h.participating⟩

/-- A splice makes the buffer no shorter, so the cursor stays inside (R250). -/
theorem Scan.ok_splice {sc : Scan} (h : sc.Ok) (r : List Byte) : (sc.splice r).Ok := by
  refine ⟨h.strings, fun v => ?_, h.total, h.participating⟩
  have hcur := h.cursor v
  by_cases hv : v = sc.turn
  · subst hv
    simp only [Scan.splice, Tri.get_set_self, List.length_append, List.length_take, List.length_drop]
    omega
  · simpa only [Scan.splice, Tri.get_set_ne _ _ hv] using hcur

theorem initScan_ok {l : List (List Byte)} (hlo : 1 ≤ l.length) (hhi : l.length ≤ 3) : (initScan l).Ok where
  strings := ⟨hlo, hhi⟩
  cursor v := by simp [initScan]
  total v := by simp [initScan]
  participating v hv := by cases v <;> simpa [initScan, Tri.get, ToneVoice.idx] using hv

theorem State.Inv.endTurn {s : State} (h : s.Inv) : s.endTurn.Inv := by
  unfold State.endTurn
  split
  · rename_i sc hs
    exact h.scanned (by rw [hs]; rfl) (Scan.ok_endTurn (h.scanOk sc hs))
  · exact h

/-! ### Instructions -/

theorem State.Inv.scan_isSome {s : State} {c : Cont} (h : s.Inv) (ho : s.out = some c) : s.scan.isSome = c.isPlay := by
  rw [h.scanner, ho]
  rfl

theorem State.Inv.scan_of_none {s : State} (h : s.Inv) (ho : s.out = none) : s.scan.isSome = false := by
  rw [h.scanner, ho]
  rfl

/-- A host command that is taken finds no scanner, so what it leaves outstanding decides alone whether one exists. -/
theorem State.Inv.hostEffect {i : Instr} {s t : State} (h : s.Inv) (ho : s.out = none) (he : hostEffect i s t) :
    t.Inv := by
  have hscan := h.scan_of_none ho
  rcases he with ⟨q, st, -, rfl⟩ | ⟨q, l, d, -, rfl⟩ | ⟨b, a, x, -, rfl⟩ | ⟨v, e, -, ha, hr, rfl | rfl⟩ |
    ⟨c, hplay, ha, rfl⟩ | ⟨-, rfl⟩ | ⟨-, rfl⟩ | ⟨k, l, -, hlo, hhi, rfl⟩
  · exact (h.consulted q).failed st
  · exact ((h.consulted q).delivered l).completed d
  · exact (h.setSeg x).completed .nothing
  · exact (h.withEvent ha hr).completed .nothing
  · exact (h.withEvent ha hr).held (c := .backPressure v) hscan rfl
  · exact h.held (hscan.trans hplay.symm) ha
  · exact h.flush.completed .nothing
  · exact h.flush.soundDefaults.completed .nothing
  · exact State.inv_of_command h rfl rfl rfl rfl rfl ⟨[], rfl⟩ rfl
      (fun _ hsc => Option.some.inj hsc ▸ initScan_ok hlo hhi) (fun _ hc => Option.some.inj hc ▸ rfl)

/-- An event's duration is not negative, so the total it is added to stays so (R248). -/
theorem Scan.ok_acc_event {sc : Scan} (h : sc.Ok) {v : ToneVoice} {e : Event} (ha : e.admissible v.queue = true) :
    ({ sc with acc := sc.acc.set v (sc.acc.get v + e.dur) } : Scan).Ok := by
  obtain ⟨-, -, hdur, -⟩ := (Event.admissible_iff e v.queue).1 ha
  exact Scan.ok_acc h v _ (add_nonneg (h.total v) hdur)

theorem State.Inv.unitEffect {i : Instr} {s t : State} {sc : Scan} (h : s.Inv) (hs : s.scanning sc)
    (he : unitEffect i s sc t) : t.Inv := by
  obtain ⟨ho, hsc⟩ := hs
  have hok := h.scanOk sc hsc
  have hsome : s.scan.isSome = true := h.scan_isSome ho
  rcases he with ⟨-, rfl⟩ | ⟨q, rfl⟩ | ⟨ref, term, r, q, -, rfl⟩ | ⟨-, rfl⟩ | ⟨-, rfl⟩ | ⟨p, -, rfl⟩ |
    ⟨e, -, ha, rfl⟩
  · exact h
  · exact (h.consulted q).failed .ifc
  · exact (h.consulted q).scanned hsome (Scan.ok_splice hok r)
  · exact h.setFg true
  · exact h.setFg false
  · exact h.setPs sc.turn p
  · have hps := h.setPs sc.turn (s.ps.get sc.turn).clearEff
    rcases emitUnit_cases (s := s.setPs sc.turn (s.ps.get sc.turn).clearEff) hsc sc.turn e with ⟨hr, he⟩ | ⟨-, he⟩ <;>
      rw [he]
    · exact (hps.withEvent ha hr).scanned hsome (Scan.ok_acc_event hok ha)
    · exact hps.held (c := .playEmit sc.turn e) hsome ha

/-- Every instruction keeps the invariant. -/
theorem State.Inv.exec {i : Instr} {s t : State} (h : s.Inv) (he : exec i s = .next t) : t.Inv := by
  rcases exec_any he with ⟨q, rfl⟩ | ⟨ho, heff⟩ | ⟨-, sc, hs, heff⟩
  · exact (h.consulted q).turnedAway
  · exact h.hostEffect ho heff
  · exact h.unitEffect hs heff

/-! ### Resumption -/

theorem State.Inv.afterPad {s : State} (h : s.Inv) (hs : s.scan.isSome = true) (v : ToneVoice) : (afterPad v s).Inv := by
  rcases afterPad_cases v s with ⟨w, he⟩ | he | he <;> rw [he]
  · exact h.held (c := .playPad w) hs rfl
  · exact h.completed .nothing
  · exact h.held (c := .playForeground) hs rfl

theorem padEvent_admissible {dur : Rat} (hdur : 0 ≤ dur) (v : ToneVoice) :
    (padEvent dur).admissible v.queue = true := by
  rw [Event.admissible_iff]
  exact ⟨.inl ⟨rfl, by cases v <;> simp [ToneVoice.queue]⟩, le_refl _, hdur, zero_lt_one, le_refl _, Nat.zero_le _⟩

/-- A voice that needs a pad lies below the maximum, so its pad has a duration and its total becomes the maximum. -/
theorem State.Inv.padFrom {s : State} (h : s.Inv) (v : ToneVoice) (ho : s.out = some (.playPad v)) :
    (padFrom v s).Inv := by
  have hsome : s.scan.isSome = true := h.scan_isSome ho
  rcases padFrom_cases v s with he | he | ⟨sc, hs, hneeds, hr, he⟩ <;> rw [he]
  · exact h.afterPad hsome v
  · exact h.held (c := .playPad v) hsome rfl
  · have hok := h.scanOk sc hs
    have hlt : sc.acc.get v < sc.maxAcc := by
      simp only [Scan.needsPad, Bool.and_eq_true, decide_eq_true_eq] at hneeds
      exact hneeds.2
    have ha := padEvent_admissible (sub_nonneg.2 hlt.le) v
    exact ((h.withEvent ha hr).scanned hsome (Scan.ok_acc hok v _ (Scan.maxAcc_nonneg hok))).afterPad rfl v

/-- A held command keeps the invariant as it goes on: what it appends was admissible when it was held. -/
theorem State.Inv.resumed {s : State} {c : Cont} (h : s.Inv) (ho : s.out = some c) : (resume c s).Inv := by
  have hsome := h.scan_isSome ho
  have hadm := h.pending c ho
  cases c with
  | enqueue v e =>
    rcases enqueueFrom_cases v e s with ⟨hr, he⟩ | ⟨-, he⟩ <;> rw [resume, he]
    · exact (h.withEvent hadm hr).completed .nothing
    · exact h.held hsome hadm
  | playAndWait v e =>
    rcases playAndWaitFrom_cases v e s with ⟨hr, -, he⟩ | ⟨hr, -, he⟩ | ⟨-, he⟩ <;> rw [resume, he]
    · exact (h.withEvent hadm hr).completed .nothing
    · exact (h.withEvent hadm hr).held (c := .backPressure v) hsome rfl
    · exact h.held hsome hadm
  | backPressure v =>
    rcases backPressureFrom_cases v s with ⟨-, he⟩ | ⟨-, he⟩ <;> rw [resume, he]
    · exact h.completed .nothing
    · exact h.held hsome hadm
  | waitDepth mask d =>
    rcases waitDepthFrom_cases mask d s with ⟨-, he⟩ | ⟨-, he⟩ <;> rw [resume, he]
    · exact h.completed .nothing
    · exact h.held hsome hadm
  | waitIdle mask =>
    rcases waitIdleFrom_cases mask s with ⟨-, he⟩ | ⟨-, he⟩ <;> rw [resume, he]
    · exact h.completed .nothing
    · exact h.held hsome hadm
  | playScan => exact h.held (c := .playPad .v0) hsome rfl
  | playEmit v e =>
    obtain ⟨sc, hs⟩ := Option.isSome_iff_exists.1 hsome
    rcases playEmitFrom_cases hs v e with ⟨hr, he⟩ | ⟨-, he⟩ <;> rw [resume, he]
    · exact ((h.withEvent hadm hr).scanned hsome (Scan.ok_acc_event (h.scanOk sc hs) hadm)).held (c := .playScan) rfl rfl
    · exact h.held hsome hadm
  | playPad v => exact h.padFrom v ho
  | playForeground =>
    rcases foregroundFrom_cases s with ⟨-, he⟩ | ⟨-, he⟩ <;> rw [resume, he]
    · exact h.completed .nothing
    · exact h.held hsome hadm

/-! ### Progress -/

/-- A host command or a reserved word always has a next state: it runs or is refused. -/
theorem exec_host_next {i : Instr} {op : Nat} (hi : hostOpcode i = some op) (s : State) : ∃ t, exec i s = .next t := by
  cases i <;> simp only [hostOpcode, reduceCtorEq] at hi
  case writeBlock | bload | enqueue | playAndWait | play =>
    simp only [exec, execWriteBlock, execBload, execEnqueue, execPlayAndWait, execPlay]
    split <;> exact ⟨_, rfl⟩
  all_goals exact ⟨_, rfl⟩

/-- The meaning of an MML unit is one that acts on the voice being scanned. -/
theorem exec_unit_eq {i : Instr} (hi : hostOpcode i = none) (s : State) : ∃ unit, exec i s = onUnit s unit := by
  cases i <;> simp only [hostOpcode, reduceCtorEq] at hi
  all_goals
    simp only [exec, execMmlNop, execMmlX, execMmlN, execMmlL, execMmlT, execMmlO, execMmlUp, execMmlDown, execMmlA,
      execMmlB, execMmlC, execMmlD, execMmlE, execMmlF, execMmlG, noteUnit, execMmlP, execMmlMN, execMmlML, execMmlMS,
      execMmlMF, execMmlMB, execMmlMOther, execMmlV, execMmlOther]
    exact ⟨_, rfl⟩

/-- A unit always has a next state where a PLAY scans. -/
theorem exec_unit_next {i : Instr} {s : State} {sc : Scan} (hi : hostOpcode i = none) (h : s.scanning sc) :
    ∃ t, exec i s = .next t := by
  obtain ⟨unit, hu⟩ := exec_unit_eq hi s
  exact ⟨_, hu.trans (onUnit_scanning h unit)⟩

theorem stepScan_next {s : State} {sc : Scan} (h : s.scanning sc) : ∃ t, stepScan s = .next t := by
  simp only [stepScan, h.2]
  rcases scanAction_cases sc with ⟨ha, -⟩ | ⟨act, ha, -⟩ | ⟨i, rest, hd, -, ha⟩ <;> rw [ha]
  · exact ⟨_, rfl⟩
  · exact ⟨_, rfl⟩
  · generalize ({ sc with pos := _ } : Scan) = sc'
    have hs : (s.setScan sc').scanning sc' := ⟨h.1, rfl⟩
    obtain ⟨t, ht⟩ := exec_unit_next (decodeUnit_isUnit hd) hs
    exact ⟨t.endTurn, by simp only [ht, afterUnit]⟩

/-! ### The obligations -/

/-- Settles O12, by what a step can do: each agent's part keeps the invariant. -/
theorem stepKeepsInv : Obligations.StepKeepsInv := by
  intro s t h hstep
  rcases step_cases hstep with ⟨-, -, rfl⟩ | ⟨w, items, rest, -, -, ⟨i, -, he⟩ | ⟨e, -, rfl⟩⟩ | ⟨r, rest, -, -, rfl⟩ |
    ⟨c, rest, -, -, rfl⟩ | ⟨sc, hs, -, rfl⟩ | ⟨sc, sc', hs, ha, rfl⟩ | ⟨sc, i, sc', u, hs, ha, he, rfl⟩ |
    ⟨c, ho, -, -, rfl⟩ | ⟨c, -, rfl⟩
  · exact h
  · exact (h.of_taken rest items).exec he
  · exact (h.of_taken rest items).turnedAway
  · exact (h.of_inbox rest).renderer r
  · exact (h.of_inbox rest).changed c
  · have hsome : s.scan.isSome = true := h.scan_isSome hs.1
    exact h.held (c := .playPad .v0) hsome rfl
  · have hok := h.scanOk sc hs.2
    rcases scanAction_cases sc with ⟨ha', -⟩ | ⟨act, ha', hact⟩ | ⟨i, rest, -, -, ha'⟩ <;> rw [ha'] at ha <;> cases ha
    exact h.scanned (h.scan_isSome hs.1) (Scan.ok_pass hok hact)
  · have hok := h.scanOk sc hs.2
    rcases scanAction_cases sc with ⟨ha', -⟩ | ⟨act, ha', -⟩ | ⟨j, rest, -, -, ha'⟩ <;> rw [ha'] at ha <;> cases ha
    exact ((h.scanned (h.scan_isSome hs.1) (Scan.ok_pos hok rest.length)).exec he).endTurn
  · exact h.resumed ho
  · exact h.polled

/-- Settles O13: only a scan without a scanner could stop a step, and the invariant gives a scan its scanner. -/
theorem stepNeverStops : Obligations.StepNeverStops := by
  intro s h
  rcases Option.eq_none_or_eq_some s.out with ho | ⟨c, ho⟩
  · rw [step_idle ho, stepIdle]
    rcases hin : s.inbox with _ | ⟨_ | r | c, rest⟩
    · exact ⟨_, rfl⟩
    · rename_i w items
      simp only [runWord]
      cases hd : decodeWord w with
      | ok i => exact exec_host_next (hostOpcode_of_decodeWord hd) _
      | error e => exact ⟨_, rfl⟩
    · exact ⟨_, rfl⟩
    · exact ⟨_, rfl⟩
  · by_cases hc : c = .playScan
    · subst hc
      obtain ⟨sc, hs⟩ := Option.isSome_iff_exists.1 (h.scan_isSome ho)
      rw [step_scan ho]
      exact stepScan_next ⟨ho, hs⟩
    · cases hr : s.ready c with
      | true => exact ⟨_, step_ready ho hc hr⟩
      | false => exact ⟨_, step_held ⟨ho, hc, hr⟩⟩

/-- Settles O10: session construction writes these values, for every voice the same. -/
theorem sessionValues : Obligations.SessionValues := by
  refine ⟨rfl, fun c => ⟨rfl, rfl, rfl, rfl, rfl, rfl, rfl, rfl, rfl, fun v => ?ps, fun v => ?queues⟩⟩
  case ps => cases v <;> exact ⟨rfl, rfl, rfl, rfl, rfl, rfl⟩
  case queues => cases v <;> exact ⟨rfl, rfl, rfl⟩

/-- Settles O11: the example configuration meets R333, and every session of such a configuration the invariant. -/
theorem resetInv : Obligations.ResetInv :=
  ⟨session_inv (by decide), fun _ => session_inv⟩

end Sys2Proof.Machine
end

section
/-!
PROOFS. Who writes what (10_state.md): the frame of an instruction and of a step, field by field, and what a failed
instruction leaves (60_exceptions.md R304, R307, R308); then the obligations about them.
-/

namespace Sys2Proof.Machine

/-! ### Configuration and records -/

/-- The configuration stays, REFUSED is sticky, and the three records only grow (R23, R41). -/
def State.recordsKept (s t : State) : Prop :=
  t.cfg = s.cfg ∧ (s.refused = true → t.refused = true) ∧ s.events <+: t.events ∧ s.resp <+: t.resp ∧ s.asks <+: t.asks

theorem State.recordsKept_of_eq {s t : State} (hcfg : t.cfg = s.cfg) (hrefused : t.refused = s.refused)
    (hevents : t.events = s.events) (hresp : t.resp = s.resp) (hasks : t.asks = s.asks) : s.recordsKept t := by
  simp [State.recordsKept, hcfg, hrefused, hevents, hresp, hasks]

theorem State.recordsKept.trans {s t u : State} (h : s.recordsKept t) (h' : t.recordsKept u) : s.recordsKept u := by
  obtain ⟨hcfg, hrefused, hevents, hresp, hasks⟩ := h
  obtain ⟨hcfg', hrefused', hevents', hresp', hasks'⟩ := h'
  exact ⟨hcfg'.trans hcfg, hrefused' ∘ hrefused, hevents.trans hevents', hresp.trans hresp', hasks.trans hasks'⟩

theorem State.recordsKept_turnedAway (s : State) : s.recordsKept s.turnedAway := by
  simp [State.recordsKept, State.turnedAway]

theorem State.recordsKept_endTurn (s : State) : s.recordsKept s.endTurn := by
  obtain ⟨hcfg, -, -, -, -, hrefused, hevents, hresp, -, -, -, -, -, -, -, hasks⟩ := endTurn_fields s
  exact State.recordsKept_of_eq hcfg hrefused hevents hresp hasks

theorem State.recordsKept_renderer (r : RendererStep) (s : State) : s.recordsKept (rendererStep r s) := by
  obtain ⟨hcfg, -, -, hrefused, hevents, hresp, -, -, -, -, -, -, hasks⟩ := renderer_fields r s
  exact State.recordsKept_of_eq hcfg hrefused hevents hresp hasks

/-! ### What an instruction, a resumption and a poll leave alone -/

/-- `Emit` of a unit appends its event, or holds the PLAY with it; beside that only the scanner may change. -/
theorem emitUnit_outcome (v : ToneVoice) (e : Event) (s : State) :
    emitUnit v e s = { s with out := some (.playEmit v e) } ∨
      ∃ scan, emitUnit v e s = { s.withEvent v.queue e with scan := scan } := by
  unfold emitUnit State.appendUnit State.addAcc
  rw [State.append_eq]
  split_ifs
  · split
    · exact .inr ⟨_, rfl⟩
    · exact .inr ⟨_, rfl⟩
  · exact .inl rfl

/-- `Emit` of a unit writes no PlayState, no flag, no record and nothing in flight. -/
theorem emitUnit_frame (v : ToneVoice) (e : Event) (s : State) :
    s.recordsKept (emitUnit v e s) ∧ (emitUnit v e s).busy = s.busy ∧ (emitUnit v e s).cur = s.cur ∧
      (emitUnit v e s).ps = s.ps ∧ (emitUnit v e s).fg = s.fg ∧ (emitUnit v e s).seg = s.seg ∧
      (emitUnit v e s).coll = s.coll ∧ (emitUnit v e s).resp = s.resp := by
  rcases emitUnit_outcome v e s with he | ⟨scan, he⟩ <;> rw [he] <;>
    exact ⟨State.recordsKept_of_eq rfl rfl rfl rfl rfl, rfl, rfl, rfl, rfl, rfl, rfl, rfl⟩

theorem hostEffect_frame {i : Instr} {s t : State} (h : hostEffect i s t) :
    s.recordsKept t ∧ t.busy = s.busy ∧ t.cur = s.cur := by
  rcases h with ⟨q, st, -, rfl⟩ | ⟨q, l, d, -, rfl⟩ | ⟨b, a, x, -, rfl⟩ | ⟨v, e, -, -, -, rfl | rfl⟩ |
    ⟨c, -, -, rfl⟩ | ⟨-, rfl⟩ | ⟨-, rfl⟩ | ⟨k, l, -, -, -, rfl⟩ <;>
    simp [State.recordsKept, State.failed, State.completed, State.consulted, State.delivered, State.withEvent]

theorem unitEffect_frame {i : Instr} {s t : State} {sc : Scan} (h : unitEffect i s sc t) :
    s.recordsKept t ∧ t.busy = s.busy ∧ t.cur = s.cur := by
  rcases h with ⟨-, rfl⟩ | ⟨q, rfl⟩ | ⟨ref, term, r, q, -, rfl⟩ | ⟨-, rfl⟩ | ⟨-, rfl⟩ | ⟨p, -, rfl⟩ | ⟨e, -, -, rfl⟩
  case inr.inr.inr.inr.inr.inr =>
    obtain ⟨hrec, hbusy, hcur, -⟩ := emitUnit_frame sc.turn e (s.setPs sc.turn (s.ps.get sc.turn).clearEff)
    exact ⟨(State.recordsKept_of_eq rfl rfl rfl rfl rfl).trans hrec, hbusy, hcur⟩
  all_goals simp [State.recordsKept, State.failed, State.consulted]

/-- No instruction writes BUSY or CUR, or takes a record back (R36, R41). -/
theorem exec_frame {i : Instr} {s t : State} (h : exec i s = .next t) :
    s.recordsKept t ∧ t.busy = s.busy ∧ t.cur = s.cur := by
  rcases exec_any h with ⟨q, rfl⟩ | ⟨-, he⟩ | ⟨-, sc, -, he⟩
  · simp [State.recordsKept, State.turnedAway, State.consulted]
  · exact hostEffect_frame he
  · exact unitEffect_frame he

theorem resume_frame (c : Cont) (s : State) :
    s.recordsKept (resume c s) ∧ (resume c s).busy = s.busy ∧ (resume c s).cur = s.cur ∧
      (resume c s).seg = s.seg ∧ (resume c s).coll = s.coll := by
  rcases resume_effect c s with he | ⟨c', he⟩ | ⟨v, e, -, he | ⟨c', he⟩ | ⟨c', sc', he⟩⟩ <;> rw [he] <;>
    simp [State.recordsKept, State.completed, State.withEvent]

/-- The text of a PLAY spells units only. -/
theorem hostOpcode_of_scanAction {sc sc' : Scan} {i : Instr} (h : scanAction sc = .unit i sc') : hostOpcode i = none := by
  rcases scanAction_cases sc with ⟨ha, -⟩ | ⟨act, ha, -⟩ | ⟨j, rest, hd, -, ha⟩ <;> rw [ha] at h <;> cases h
  exact decodeUnit_isUnit hd

/-! ### SEG -/

theorem exec_seg {i : Instr} {s t : State} (h : exec i s = .next t) :
    t.seg = s.seg ∨ ∃ isNone value, i = .setSegment isNone value := by
  rcases exec_any h with ⟨q, rfl⟩ | ⟨-, he⟩ | ⟨-, sc, -, he⟩
  · exact .inl rfl
  · rcases he with ⟨q, st, -, rfl⟩ | ⟨q, l, d, -, rfl⟩ | ⟨b, a, x, hi, rfl⟩ | ⟨v, e, -, -, -, rfl | rfl⟩ |
      ⟨c, -, -, rfl⟩ | ⟨-, rfl⟩ | ⟨-, rfl⟩ | ⟨k, l, -, -, -, rfl⟩
    case inr.inr.inl => exact .inr ⟨b, a, hi⟩
    all_goals exact .inl rfl
  · rcases he with ⟨-, rfl⟩ | ⟨q, rfl⟩ | ⟨ref, term, r, q, -, rfl⟩ | ⟨-, rfl⟩ | ⟨-, rfl⟩ | ⟨p, -, rfl⟩ | ⟨e, -, -, rfl⟩
    case inr.inr.inr.inr.inr.inr =>
      obtain ⟨-, -, -, -, -, hseg, -⟩ := emitUnit_frame sc.turn e (s.setPs sc.turn (s.ps.get sc.turn).clearEff)
      exact .inl hseg
    all_goals exact .inl rfl

theorem poll_seg (s : State) : (poll s).seg = s.seg := by
  rcases poll_cases s with ⟨-, he⟩ | ⟨w, items, rest, -, he⟩ | ⟨r, rest, -, he⟩ | ⟨k, rest, -, he⟩ <;> rw [he]
  · rfl
  · obtain ⟨-, -, -, -, -, -, hseg, -⟩ := renderer_fields r { s with inbox := rest }
    exact hseg

/-! ### Queues -/

/-- What one step may do to a queue (R33, R104, R106, R207). -/
def queueMoves (q q' : List Event) : Prop := q' = q ∨ (∃ e, q' = q ++ [e]) ∨ q' = q.tail ∨ q' = []

theorem queueMoves_refl (q : List Event) : queueMoves q q := .inl rfl

theorem State.queueMoves_withEvent (s : State) (v w : Voice) (e : Event) :
    queueMoves (s.queue.get w) ((s.withEvent v e).queue.get w) := by
  by_cases hw : w = v
  · subst hw
    exact .inr (.inl ⟨e, s.withEvent_queue_self w e⟩)
  · exact .inl (s.withEvent_queue_ne e hw)

theorem emitUnit_queue (v : ToneVoice) (e : Event) (s : State) (w : Voice) :
    queueMoves (s.queue.get w) ((emitUnit v e s).queue.get w) := by
  rcases emitUnit_outcome v e s with he | ⟨scan, he⟩ <;> rw [he]
  · exact queueMoves_refl _
  · exact s.queueMoves_withEvent v.queue w e

theorem exec_queue {i : Instr} {s t : State} (h : exec i s = .next t) (w : Voice) :
    queueMoves (s.queue.get w) (t.queue.get w) := by
  rcases exec_any h with ⟨q, rfl⟩ | ⟨-, he⟩ | ⟨-, sc, -, he⟩
  · exact queueMoves_refl _
  · rcases he with ⟨q, st, -, rfl⟩ | ⟨q, l, d, -, rfl⟩ | ⟨b, a, x, hi, rfl⟩ | ⟨v, e, -, -, -, rfl | rfl⟩ |
      ⟨c, -, -, rfl⟩ | ⟨-, rfl⟩ | ⟨-, rfl⟩ | ⟨k, l, -, -, -, rfl⟩
    case inr.inr.inr.inl.inl | inr.inr.inr.inl.inr => exact s.queueMoves_withEvent v w e
    case inr.inr.inr.inr.inr.inl | inr.inr.inr.inr.inr.inr.inl => exact .inr (.inr (.inr (Quad.get_const [] w)))
    all_goals exact queueMoves_refl _
  · rcases he with ⟨-, rfl⟩ | ⟨q, rfl⟩ | ⟨ref, term, r, q, -, rfl⟩ | ⟨-, rfl⟩ | ⟨-, rfl⟩ | ⟨p, -, rfl⟩ | ⟨e, -, -, rfl⟩
    case inr.inr.inr.inr.inr.inr => exact emitUnit_queue sc.turn e (s.setPs sc.turn _) w
    all_goals exact queueMoves_refl _

theorem renderer_queue (r : RendererStep) (s : State) (w : Voice) :
    queueMoves (s.queue.get w) ((rendererStep r s).queue.get w) := by
  rcases rendererStep_cases r s with he | ⟨v, e, q, -, -, -, hq, he⟩ | ⟨v, -, -, he⟩ | ⟨-, -, he⟩ <;> rw [he]
  · exact queueMoves_refl _
  · by_cases hw : w = v
    · subst hw
      exact .inr (.inr (.inl (by rw [hq]; exact Quad.get_set_self _ _ _)))
    · exact .inl (Quad.get_set_ne _ _ hw)
  · exact queueMoves_refl _
  · exact queueMoves_refl _

theorem resume_queue (c : Cont) (s : State) (w : Voice) :
    queueMoves (s.queue.get w) ((resume c s).queue.get w) := by
  rcases resume_effect c s with he | ⟨c', he⟩ | ⟨v, e, -, he | ⟨c', he⟩ | ⟨c', sc', he⟩⟩ <;> rw [he]
  · exact queueMoves_refl _
  · exact queueMoves_refl _
  all_goals exact s.queueMoves_withEvent v w e

/-! ### Sound state -/

/-- A host command other than SOUND_RESET writes no PlayState and not FG. -/
theorem hostEffect_sound {i : Instr} {s t : State} (h : hostEffect i s t) :
    (t.ps = s.ps ∧ t.fg = s.fg) ∨ (i = .soundReset ∧ t.fg = true) := by
  rcases h with ⟨q, st, -, rfl⟩ | ⟨q, l, d, -, rfl⟩ | ⟨b, a, x, -, rfl⟩ | ⟨v, e, -, -, -, rfl | rfl⟩ |
    ⟨c, -, -, rfl⟩ | ⟨-, rfl⟩ | ⟨hi, rfl⟩ | ⟨k, l, -, -, -, rfl⟩
  case inr.inr.inr.inr.inr.inr.inl => exact .inr ⟨hi, rfl⟩
  all_goals exact .inl ⟨rfl, rfl⟩

/-- What a unit does to the sound state: FG by MF and MB, one PlayState by an argument or modifier unit, the pending
octave of one by a note or rest; else nothing. -/
theorem unitEffect_sound {i : Instr} {s t : State} {sc : Scan} (h : unitEffect i s sc t) :
    (t.ps = s.ps ∧ t.fg = s.fg) ∨ (t.ps = s.ps ∧ ((i = .mmlMF ∧ t.fg = true) ∨ (i = .mmlMB ∧ t.fg = false))) ∨
    (t.fg = s.fg ∧ ∃ q, t.ps = s.ps.set sc.turn q ∧
      (unitSets i s (s.ps.get sc.turn) q ∨ (soundUnit i ∧ q = (s.ps.get sc.turn).clearEff))) := by
  rcases h with ⟨-, rfl⟩ | ⟨q, rfl⟩ | ⟨ref, term, r, q, -, rfl⟩ | ⟨hi, rfl⟩ | ⟨hi, rfl⟩ | ⟨p, hp, rfl⟩ | ⟨e, hi, -, rfl⟩
  · exact .inl ⟨rfl, rfl⟩
  · exact .inl ⟨rfl, rfl⟩
  · exact .inl ⟨rfl, rfl⟩
  · exact .inr (.inl ⟨rfl, .inl ⟨hi, rfl⟩⟩)
  · exact .inr (.inl ⟨rfl, .inr ⟨hi, rfl⟩⟩)
  · exact .inr (.inr ⟨rfl, p, rfl, .inl hp⟩)
  · obtain ⟨-, -, -, hps, hfg, -⟩ := emitUnit_frame sc.turn e (s.setPs sc.turn (s.ps.get sc.turn).clearEff)
    exact .inr (.inr ⟨hfg, _, hps, .inr ⟨hi, rfl⟩⟩)

/-- Which unit may change which field of a PlayState (R25 to R31). -/
def fieldWriters (i : Instr) (perVoiceVolume : Bool) (p q : PlayState) : Prop :=
  (q.oct ≠ p.oct → ∃ n, i = .mmlO n) ∧ (q.lenN ≠ p.lenN → ∃ n, i = .mmlL n) ∧
  (q.tempoN ≠ p.tempoN → ∃ n, i = .mmlT n) ∧
  (q.speed ≠ p.speed → i = .mmlMN ∨ i = .mmlML ∨ i = .mmlMS) ∧
  (q.vol ≠ p.vol → perVoiceVolume = true ∧ ∃ n, i = .mmlV n) ∧
  (q.eff ≠ p.eff → i = .mmlUp ∨ i = .mmlDown ∨ (q.eff = none ∧
    ((∃ n, i = .mmlO n) ∨ (∃ n d, i = .mmlN n d) ∨ (∃ n d, i = .mmlP n d) ∨ ∃ l a n d, i = letterInstr l a n d)))

theorem fieldWriters_refl (i : Instr) (b : Bool) (p : PlayState) : fieldWriters i b p p := by simp [fieldWriters]

theorem fieldWriters_of_unitSets {i : Instr} {s : State} {p q : PlayState} (h : unitSets i s p q) :
    fieldWriters i s.cfg.perVoiceVolume p q := by
  rcases h with ⟨n, x, rfl, rfl⟩ | ⟨n, x, rfl, rfl⟩ | ⟨n, x, rfl, rfl⟩ | ⟨n, x, rfl, hv, rfl⟩ | ⟨x, hi, rfl⟩ |
    ⟨x, hi, rfl⟩
  case inr.inr.inr.inr.inl => rcases hi with rfl | rfl <;> simp [fieldWriters]
  case inr.inr.inr.inr.inr => rcases hi with rfl | rfl | rfl <;> simp [fieldWriters]
  all_goals simp [fieldWriters, *]

theorem fieldWriters_of_soundUnit {i : Instr} (b : Bool) (p : PlayState) (h : soundUnit i) :
    fieldWriters i b p p.clearEff :=
   ⟨fun h' => absurd rfl h', fun h' => absurd rfl h', fun h' => absurd rfl h', fun h' => absurd rfl h',
    fun h' => absurd rfl h', fun _ => .inr (.inr ⟨rfl, .inr h⟩)⟩

/-! ### What an instruction changes in an address -/

/-- A glyph byte of the RAM font stands at an address of its window. -/
theorem inGlyphWindow_of_ramGlyph {c : Config} {a : BitVec 20} {g : Nat × Nat} (hr : region c a = .ramFont)
    (hg : ramGlyph c (rel c a) = some g) : inGlyphWindow c a := by
  obtain ⟨-, hhi⟩ := (region_eq_ramFont_iff c a).1 hr
  have hrel := rel_add_of_region hr
  obtain ⟨-, -, -, heq⟩ := ramGlyph_eq_some_iff.1 (show ramGlyph c (rel c a) = some (g.1, g.2) from hg)
  simp only [regionBase] at hrel
  have hrow := glyphAt_row_lt hg
  have hlast := (ramGlyph_eq_some_iff.1 (show ramGlyph c (rel c a) = some (g.1, g.2) from hg)).2.1
  exact ⟨by omega, by omega, hhi⟩

/-- Every glyph byte that the outputs set stands at one of these addresses. -/
def glyphsAt (c : Config) (addrs : List (BitVec 20)) (l : List Emit) : Prop :=
  ∀ char row b, Emit.fontSet char row b ∈ l →
    ∃ a ∈ addrs, region c a = .ramFont ∧ ramGlyph c (rel c a) = some (char, row)

theorem glyphsAt_nil (c : Config) (addrs : List (BitVec 20)) : glyphsAt c addrs [] :=
  fun _ _ _ hmem => absurd hmem List.not_mem_nil

/-- A single-byte write sets a glyph byte only at its own address. -/
theorem glyphsAt_memWrite {c : Config} {addrs : List (BitVec 20)} {a : BitVec 20} (b : Byte) (ha : a ∈ addrs) :
    glyphsAt c addrs (memWrite c a b) := by
  intro char row x hmem
  cases hr : region c a with
  | rom => simp [memWrite_rom b hr] at hmem
  | video => simp [memWrite_video b hr] at hmem
  | data => simp [memWrite_data b hr] at hmem
  | low =>
    rw [memWrite_low b hr] at hmem
    unfold lowWrite at hmem
    split at hmem <;> simp at hmem
  | ramFont =>
    rw [memWrite_ramFont b hr] at hmem
    unfold ramFontWrite at hmem
    split at hmem
    · rename_i char' row' hg
      simp only [List.mem_cons, Emit.fontSet.injEq, reduceCtorEq, List.not_mem_nil, or_false] at hmem
      obtain ⟨rfl, rfl, -⟩ := hmem
      exact ⟨a, ha, hr, hg⟩
    · simp at hmem

/-- The bytes of a block are set at their own addresses: of any part of it, at the addresses of that part. -/
theorem glyphsAt_writeBlockAt (c : Config) (seg : BitVec 16) (off : Int) (data : List Byte) (vid idx : List Nat) :
    glyphsAt c (idx.map (effAddr seg off)) (idx.flatMap (writeBlockAt c seg off data vid)) := by
  intro char row b hmem
  obtain ⟨i, hi, hmem⟩ := List.mem_flatMap.1 hmem
  simp only [writeBlockAt] at hmem
  split_ifs at hmem
  · simp at hmem
  · simp at hmem
  · exact glyphsAt_memWrite _ (List.mem_map_of_mem hi) char row b hmem

/-- An instruction's outputs set glyph bytes only at the addresses it stores to. -/
theorem glyphsAt_of_outputsOf {i : Instr} {s : State} {l : List Emit} (h : outputsOf i s l) :
    glyphsAt s.cfg (storedAt i s) l := by
  rcases h with rfl | ⟨off, val, b, rfl, rfl⟩ | ⟨off, n, data, rfl, -, hlen, rfl⟩ |
    ⟨isNone, off, fileOff, p, rfl, hc, -, rfl⟩
  · exact glyphsAt_nil _ _
  · exact glyphsAt_memWrite b List.mem_cons_self
  · simp only [storedAt, ← hlen]
    exact glyphsAt_writeBlockAt _ _ _ _ _ _
  · simp only [storedAt, hc]
    exact glyphsAt_writeBlockAt _ _ _ _ _ _

/-- An output that sets no glyph byte leaves every answer of the collaborators. -/
theorem Collab.receive_of_not_fontSet {k : Collab} {e : Emit} (h : ∀ char row b, e ≠ .fontSet char row b) :
    k.receive e = k := by
  cases e with
  | fontSet char row b => exact absurd rfl (h char row b)
  | _ => rfl

/-- An address reads as before where the outputs set no glyph byte that stands at it, or an override covers it. -/
theorem memRead_receives_of_not_set {c : Config} {addrs : List (BitVec 20)} {l : List Emit} {ea : BitVec 20}
    (hl : glyphsAt c addrs l) (hea : ea ∉ addrs ∨ ¬inGlyphWindow c ea ∨ overrideAt c ea ≠ none) (k : Collab) :
    memRead c (l.foldl Collab.receive k) ea = memRead c k ea := by
  induction l generalizing k with
  | nil => rfl
  | cons e l ih =>
    rw [List.foldl_cons, ih fun char row b hmem => hl char row b (List.mem_cons_of_mem e hmem)]
    by_cases hfont : ∃ char row b, e = .fontSet char row b
    · obtain ⟨char, row, b, rfl⟩ := hfont
      obtain ⟨a, ha, hr, hg⟩ := hl char row b List.mem_cons_self
      cases ho : overrideAt c ea with
      | some x => rw [memRead_of_override _ ho, memRead_of_override k ho]
      | none =>
        have hne : ea ≠ a := by
          rintro rfl
          rcases hea with hea | hea | hea
          · exact hea ha
          · exact hea (inGlyphWindow_of_ramGlyph hr hg)
          · exact hea ho
        rw [memRead_of_no_override _ ho, memRead_of_no_override k ho, regionRead_receive_fontSet_ne k b hr hg hne]
    · rw [Collab.receive_of_not_fontSet fun char row b he => hfont ⟨char, row, b, he⟩]

/-- The collaborators change by an instruction only as its outputs say. -/
theorem exec_coll {i : Instr} {s t : State} (h : exec i s = .next t) :
    ∃ l, glyphsAt s.cfg (storedAt i s) l ∧ t.coll = l.foldl Collab.receive s.coll := by
  rcases exec_any h with ⟨q, rfl⟩ | ⟨-, he⟩ | ⟨-, sc, -, he⟩
  · exact ⟨[], glyphsAt_nil _ _, rfl⟩
  · rcases he with ⟨q, st, -, rfl⟩ | ⟨q, l, d, hl, rfl⟩ | ⟨b, a, x, -, rfl⟩ | ⟨v, e, -, -, -, rfl | rfl⟩ |
      ⟨c, -, -, rfl⟩ | ⟨-, rfl⟩ | ⟨-, rfl⟩ | ⟨k, l, -, -, -, rfl⟩
    case inr.inl => exact ⟨l, glyphsAt_of_outputsOf hl, rfl⟩
    all_goals exact ⟨[], glyphsAt_nil _ _, rfl⟩
  · rcases he with ⟨-, rfl⟩ | ⟨q, rfl⟩ | ⟨ref, term, r, q, -, rfl⟩ | ⟨-, rfl⟩ | ⟨-, rfl⟩ | ⟨p, -, rfl⟩ | ⟨e, -, -, rfl⟩
    case inr.inr.inr.inr.inr.inr =>
      obtain ⟨-, -, -, -, -, -, hcoll, -⟩ := emitUnit_frame sc.turn e (s.setPs sc.turn (s.ps.get sc.turn).clearEff)
      exact ⟨[], glyphsAt_nil _ _, hcoll⟩
    all_goals exact ⟨[], glyphsAt_nil _ _, rfl⟩

theorem exec_memRead {i : Instr} {s t : State} {ea : BitVec 20} (h : exec i s = .next t)
    (hea : ea ∉ storedAt i s ∨ ¬inGlyphWindow s.cfg ea ∨ overrideAt s.cfg ea ≠ none) :
    memRead t.cfg t.coll ea = memRead s.cfg s.coll ea := by
  obtain ⟨l, hl, hcoll⟩ := exec_coll h
  rw [(exec_frame h).1.1, hcoll]
  exact memRead_receives_of_not_set hl hea s.coll

/-- A unit stores to no address. -/
theorem storedAt_of_unit {i : Instr} (hi : hostOpcode i = none) (s : State) : storedAt i s = [] := by
  cases i <;> first | rfl | cases hi

/-! ### The obligations -/

/-- Settles O14: each agent's part of a step keeps the records. -/
theorem configAndRecordsKept : Obligations.ConfigAndRecordsKept := by
  intro s t hstep
  have hinbox (rest : List Input) : s.recordsKept { s with inbox := rest } :=
    State.recordsKept_of_eq rfl rfl rfl rfl rfl
  have htaken (rest : List Input) (items : List DataItem) :
      s.recordsKept { s with inbox := rest, chan := items } := State.recordsKept_of_eq rfl rfl rfl rfl rfl
  rcases step_cases hstep with ⟨-, -, rfl⟩ | ⟨w, items, rest, -, -, ⟨i, -, he⟩ | ⟨e, -, rfl⟩⟩ | ⟨r, rest, -, -, rfl⟩ |
    ⟨c, rest, -, -, rfl⟩ | ⟨sc, -, -, rfl⟩ | ⟨sc, sc', -, -, rfl⟩ | ⟨sc, i, sc', u, -, -, he, rfl⟩ |
    ⟨c, -, -, -, rfl⟩ | ⟨c, -, rfl⟩
  · exact State.recordsKept_of_eq rfl rfl rfl rfl rfl
  · exact (htaken rest items).trans (exec_frame he).1
  · exact (htaken rest items).trans (State.recordsKept_turnedAway _)
  · exact (hinbox rest).trans (State.recordsKept_renderer r _)
  · exact State.recordsKept_of_eq rfl rfl rfl rfl rfl
  · exact State.recordsKept_of_eq rfl rfl rfl rfl rfl
  · exact State.recordsKept_of_eq rfl rfl rfl rfl rfl
  · have hscan : s.recordsKept { s with scan := some sc' } := State.recordsKept_of_eq rfl rfl rfl rfl rfl
    exact (hscan.trans (exec_frame he).1).trans u.recordsKept_endTurn
  · exact (resume_frame c s).1
  · rcases poll_cases s with ⟨-, he⟩ | ⟨w, items, rest, -, he⟩ | ⟨r, rest, -, he⟩ | ⟨k, rest, -, he⟩ <;> rw [he]
    · exact State.recordsKept_of_eq rfl rfl rfl rfl rfl
    · exact (hinbox rest).trans (State.recordsKept_turnedAway _)
    · exact (hinbox rest).trans (State.recordsKept_renderer r _)
    · exact hinbox rest

/-- Settles O19: each agent's part of a step moves a queue in one of these ways, or leaves it. -/
theorem queueChangesAtEnds : Obligations.QueueChangesAtEnds := by
  intro s t v hstep
  change queueMoves (s.queue.get v) (t.queue.get v)
  rcases step_cases hstep with ⟨-, -, rfl⟩ | ⟨w, items, rest, -, -, ⟨i, -, he⟩ | ⟨e, -, rfl⟩⟩ | ⟨r, rest, -, -, rfl⟩ |
    ⟨c, rest, -, -, rfl⟩ | ⟨sc, -, -, rfl⟩ | ⟨sc, sc', -, -, rfl⟩ | ⟨sc, i, sc', u, -, -, he, rfl⟩ |
    ⟨c, -, -, -, rfl⟩ | ⟨c, -, rfl⟩
  · exact queueMoves_refl _
  · exact exec_queue he v
  · exact queueMoves_refl _
  · exact renderer_queue r { s with inbox := rest } v
  · exact queueMoves_refl _
  · exact queueMoves_refl _
  · exact queueMoves_refl _
  · obtain ⟨-, -, -, -, -, -, -, -, -, hqueue, -⟩ := endTurn_fields u
    rw [hqueue]
    exact exec_queue he v
  · exact resume_queue c s v
  · rcases poll_cases s with ⟨-, he⟩ | ⟨w, items, rest, -, he⟩ | ⟨r, rest, -, he⟩ | ⟨k, rest, -, he⟩ <;> rw [he]
    · exact queueMoves_refl _
    · exact queueMoves_refl _
    · exact renderer_queue r { s with inbox := rest } v
    · exact queueMoves_refl _

/-- Settles O15: no other instruction writes SEG, and a PLAY's text spells no host command. -/
theorem segWrittenOnlyBySetSegment : Obligations.SegWrittenOnlyBySetSegment := by
  refine ⟨fun i s t he hne => (exec_seg he).resolve_left hne, fun s t hstep hne => ?_⟩
  rcases step_cases hstep with ⟨-, -, rfl⟩ | ⟨w, items, rest, ho, hin, ⟨i, hd, he⟩ | ⟨e, -, rfl⟩⟩ | ⟨r, rest, -, -, rfl⟩ |
    ⟨c, rest, -, -, rfl⟩ | ⟨sc, -, -, rfl⟩ | ⟨sc, sc', -, -, rfl⟩ | ⟨sc, i, sc', u, hs, ha, he, rfl⟩ |
    ⟨c, -, -, -, rfl⟩ | ⟨c, -, rfl⟩
  · exact absurd rfl hne
  · obtain ⟨isNone, value, rfl⟩ := (exec_seg he).resolve_left hne
    exact ⟨ho, w, items, rest, isNone, value, hin, hd⟩
  · exact absurd rfl hne
  · obtain ⟨-, -, -, -, -, -, hseg, -⟩ := renderer_fields r { s with inbox := rest }
    exact absurd hseg hne
  · exact absurd rfl hne
  · exact absurd rfl hne
  · exact absurd rfl hne
  · obtain ⟨-, -, -, -, -, -, -, -, hseg, -⟩ := endTurn_fields u
    rw [hseg] at hne
    obtain ⟨isNone, value, rfl⟩ := (exec_seg he).resolve_left hne
    cases hostOpcode_of_scanAction ha
  · obtain ⟨-, -, -, hseg, -⟩ := resume_frame c s
    exact absurd hseg hne
  · exact absurd (poll_seg s) hne

/-- Settles O16: a step that is not the renderer's keeps BUSY and CUR. -/
theorem inFlightWrittenOnlyByRenderer : Obligations.InFlightWrittenOnlyByRenderer := by
  refine ⟨fun i s t he => (exec_frame he).2, fun s t hstep hne => ?_⟩
  have changed (h : t.busy = s.busy ∧ t.cur = s.cur) : False := hne.elim (· h.1) (· h.2)
  rcases step_cases hstep with ⟨-, -, rfl⟩ | ⟨w, items, rest, -, -, ⟨i, -, he⟩ | ⟨e, -, rfl⟩⟩ |
    ⟨r, rest, -, hin, rfl⟩ | ⟨c, rest, -, -, rfl⟩ | ⟨sc, -, -, rfl⟩ | ⟨sc, sc', -, -, rfl⟩ |
    ⟨sc, i, sc', u, -, -, he, rfl⟩ | ⟨c, -, -, -, rfl⟩ | ⟨c, -, rfl⟩
  · exact (changed ⟨rfl, rfl⟩).elim
  · exact (changed (exec_frame he).2).elim
  · exact (changed ⟨rfl, rfl⟩).elim
  · exact ⟨r, rest, hin, rfl⟩
  · exact (changed ⟨rfl, rfl⟩).elim
  · exact (changed ⟨rfl, rfl⟩).elim
  · exact (changed ⟨rfl, rfl⟩).elim
  · obtain ⟨-, -, hbusy, hcur, -⟩ := endTurn_fields u
    obtain ⟨-, hbusy', hcur'⟩ := exec_frame he
    exact (changed ⟨hbusy.trans hbusy', hcur.trans hcur'⟩).elim
  · obtain ⟨-, hbusy, hcur, -⟩ := resume_frame c s
    exact (changed ⟨hbusy, hcur⟩).elim
  · rcases poll_cases s with ⟨-, he⟩ | ⟨w, items, rest, -, he⟩ | ⟨r, rest, hin, he⟩ | ⟨k, rest, -, he⟩ <;>
      rw [he] at changed
    · exact (changed ⟨rfl, rfl⟩).elim
    · exact (changed ⟨rfl, rfl⟩).elim
    · exact ⟨r, rest, hin, he⟩
    · exact (changed ⟨rfl, rfl⟩).elim

/-- Settles O17: the effect of a host command or a unit on the sound state, and the writers of each PlayState field. -/
theorem soundStateWriters : Obligations.SoundStateWriters := by
  intro i s t v hexec
  have same (hps : t.ps = s.ps) : fieldWriters i s.cfg.perVoiceVolume (s.ps.get v) (t.ps.get v) :=
    hps ▸ fieldWriters_refl i _ _
  rcases exec_any hexec with ⟨q, rfl⟩ | ⟨-, he⟩ | ⟨hunit, sc, -, he⟩
  · exact ⟨fun _ h => absurd rfl h, fun _ => ⟨fun h => absurd rfl h, same rfl⟩⟩
  · rcases hostEffect_sound he with ⟨hps, hfg⟩ | ⟨hi, hfg⟩
    · exact ⟨fun _ h => absurd hfg h, fun _ => ⟨fun h => absurd hfg h, same hps⟩⟩
    · exact ⟨fun _ _ => hfg, fun h => absurd hi h⟩
  · refine ⟨?_, fun _ => ?_⟩
    · rintro rfl
      cases hunit
    · rcases unitEffect_sound he with ⟨hps, hfg⟩ | ⟨hps, hi⟩ | ⟨hfg, q, hps, hq⟩
      · exact ⟨fun h => absurd hfg h, same hps⟩
      · exact ⟨fun _ => hi, same hps⟩
      · refine ⟨fun h => absurd hfg h, ?_⟩
        by_cases hv : v = sc.turn
        · subst hv
          have hwriters : fieldWriters i s.cfg.perVoiceVolume (s.ps.get sc.turn) q :=
            hq.elim fieldWriters_of_unitSets fun ⟨hi, hq⟩ => hq ▸ fieldWriters_of_soundUnit _ _ hi
          have hset : t.ps.get sc.turn = q := by rw [hps, Tri.get_set_self]
          rw [hset]
          exact hwriters
        · have hsame : t.ps.get v = s.ps.get v := by rw [hps, Tri.get_set_ne _ _ hv]
          rw [hsame]
          exact fieldWriters_refl i s.cfg.perVoiceVolume _

/-- Settles O18: an instruction's outputs set glyph bytes only where it stores, and a glyph byte stands at one address. -/
theorem bytesChangeOnlyWhereStored : Obligations.BytesChangeOnlyWhereStored := by
  refine ⟨fun i s t ea he hea => exec_memRead he hea, fun s t ea hstep hne => ?_⟩
  have changed (hcfg : t.cfg = s.cfg) (hcoll : t.coll = s.coll) : False := hne (by rw [hcfg, hcoll])
  rcases step_cases hstep with ⟨-, -, rfl⟩ | ⟨w, items, rest, ho, hin, ⟨i, hd, he⟩ | ⟨e, -, rfl⟩⟩ |
    ⟨r, rest, -, -, rfl⟩ | ⟨c, rest, ho, hin, rfl⟩ | ⟨sc, -, -, rfl⟩ | ⟨sc, sc', -, -, rfl⟩ |
    ⟨sc, i, sc', u, -, ha, he, rfl⟩ | ⟨c, -, -, -, rfl⟩ | ⟨c, -, rfl⟩
  · exact (changed rfl rfl).elim
  · have hstored := mt (exec_memRead (ea := ea) he) hne
    simp only [not_or, not_not] at hstored
    obtain ⟨hmem, hwin, -⟩ := hstored
    exact ⟨ho, .inr ⟨w, items, rest, i, hin, hd, hmem, hwin⟩⟩
  · exact (changed rfl rfl).elim
  · obtain ⟨hcfg, hcoll, -⟩ := renderer_fields r { s with inbox := rest }
    exact (changed hcfg hcoll).elim
  · exact ⟨ho, .inl ⟨c, rest, hin⟩⟩
  · exact (changed rfl rfl).elim
  · exact (changed rfl rfl).elim
  · obtain ⟨hcfg, hcoll, -⟩ := endTurn_fields u
    rw [hcfg, hcoll] at hne
    refine absurd (exec_memRead he (.inl ?_)) hne
    rw [storedAt_of_unit (hostOpcode_of_scanAction ha)]
    exact List.not_mem_nil
  · obtain ⟨⟨hcfg, -⟩, -, -, -, hcoll⟩ := resume_frame c s
    exact (changed hcfg hcoll).elim
  · rcases poll_cases s with ⟨-, he⟩ | ⟨w, items, rest, -, he⟩ | ⟨r, rest, -, he⟩ | ⟨k, rest, -, he⟩ <;>
      rw [he] at changed
    · exact (changed rfl rfl).elim
    · exact (changed rfl rfl).elim
    · obtain ⟨hcfg, hcoll, -⟩ := renderer_fields r { s with inbox := rest }
      exact (changed hcfg hcoll).elim
    · exact (changed rfl rfl).elim

end Sys2Proof.Machine
end

section
/-!
PROOFS. Refusals and errors (60_exceptions.md R304, R307, R308, R313): a command while another is outstanding, items that
do not suit, a unit outside a PLAY, and what a failed instruction leaves; then the obligations about them.
-/

namespace Sys2Proof.Machine

/-! ### Commands that are not taken -/

/-- Whatever a host command is, it is refused while another is outstanding (R313). -/
theorem exec_of_outstanding {i : Instr} {op : Nat} {s : State} (hi : hostOpcode i = some op) (ho : s.out ≠ none) :
    exec i s = .next s.turnedAway := by
  cases i <;> simp only [hostOpcode, reduceCtorEq] at hi
  case writeBlock | bload | enqueue | playAndWait | play =>
    simp only [exec, execWriteBlock, execBload, execEnqueue, execPlayAndWait, execPlay]
    split
    · exact command_refused (.inl ho)
    · rfl
  case peek | poke | readBlock | setSegment | bsave | waitDepth | waitIdle | stopAll | isPlaying | qlen | soundReset =>
    simp only [exec, execPeek, execPoke, execReadBlock, execSetSegment, execBsave, execWaitDepth, execWaitIdle,
      execStopAll, execIsPlaying, execQlen, execSoundReset]
    exact command_refused (.inl ho)
  all_goals rfl

/-- The strings that items spell are those items (R123). -/
theorem itemStrings_eq_some_iff {items : List DataItem} {l : List (List Byte)} :
    itemStrings items = some l ↔ items = l.map .bytes := by
  refine ⟨fun h => ?_, fun h => h ▸ itemStrings_map l⟩
  induction items generalizing l with
  | nil => cases h; rfl
  | cons x items ih =>
    cases x with
    | bytes b =>
      simp only [itemStrings, Option.map_eq_some_iff] at h
      obtain ⟨l', hl', rfl⟩ := h
      rw [ih hl', List.map_cons]
    | file off payload => cases h
    | event e => cases h

/-- A command that needs no item asks for an empty data channel. -/
theorem noItems_of_chan_ne {s : State} (h : s.chan ≠ []) : s.noItems = false := by
  rw [Bool.eq_false_iff]
  exact mt s.noItems_iff.1 h

/-- A host command is refused where the items on the data channel are not those it needs (R123). -/
theorem exec_of_items_unsuited {i : Instr} {op : Nat} {s : State} (hi : hostOpcode i = some op)
    (hitems : ¬itemsSuit i s.chan) : exec i s = .next s.turnedAway := by
  cases i <;> simp only [hostOpcode, reduceCtorEq] at hi <;> simp only [itemsSuit] at hitems
  case writeBlock off n =>
    simp only [exec, execWriteBlock]
    split
    · rename_i data hc
      have hlen : (data.length == n.toNat) = false := beq_false_of_ne fun hlen => hitems ⟨data, hc, hlen⟩
      exact command_refused (.inr (by rw [hlen, Bool.and_false]))
    · rfl
  case bload isNone off =>
    simp only [exec, execBload]
    split
    · rename_i fileOff payload hc
      exact absurd ⟨fileOff, payload, hc⟩ hitems
    · rfl
  case enqueue v =>
    simp only [exec, execEnqueue]
    split
    · rename_i e hc
      exact absurd ⟨e, hc⟩ hitems
    · rfl
  case playAndWait v =>
    simp only [exec, execPlayAndWait]
    split
    · rename_i e hc
      exact absurd ⟨e, hc⟩ hitems
    · rfl
  case play k =>
    simp only [exec, execPlay]
    split
    · rename_i l hl
      have hlen : (l.length == k.toNat) = false :=
        beq_false_of_ne fun hlen => hitems ⟨l, itemStrings_eq_some_iff.1 hl, hlen⟩
      exact command_refused (.inr (by rw [hlen, Bool.and_false]))
    · rfl
  case peek | poke | readBlock | setSegment | bsave | waitDepth =>
    simp only [exec, execPeek, execPoke, execReadBlock, execSetSegment, execBsave, execWaitDepth]
    exact command_refused (.inr (by rw [noItems_of_chan_ne hitems, Bool.and_false]))
  case waitIdle | stopAll | isPlaying | qlen | soundReset =>
    simp only [exec, execWaitIdle, execStopAll, execIsPlaying, execQlen, execSoundReset]
    exact command_refused (.inr (noItems_of_chan_ne hitems))
  all_goals rfl

/-- Outside a PLAY's scan a unit has no meaning (R39, log 15). -/
theorem onUnit_of_not_scanning {s : State} (h : ∀ sc, ¬s.scanning sc) (unit : Scan → PlayState → State) :
    onUnit s unit = .refused .unitOutsidePlay := by
  unfold onUnit
  split
  · rename_i sc ho hs
    exact absurd ⟨ho, hs⟩ (h sc)
  · rfl

/-! ### Instructions that fail -/

/-- How an instruction answers: a refusal and an error change nothing else, beside the queries made; what completes
answers OK, and what goes on or holds answers nothing. -/
theorem exec_answer {i : Instr} {s t : State} (h : exec i s = .next t) :
    (∃ q, t = (s.consulted q).turnedAway) ∨ (∃ q st, (st = .ifc ∨ st = .range) ∧ t = (s.consulted q).failed st) ∨
    (∃ d, t.resp = s.resp ++ [{ status := .ok, data := d }]) ∨ t.resp = s.resp := by
  rcases exec_any h with ⟨q, rfl⟩ | ⟨-, he⟩ | ⟨-, sc, -, he⟩
  · exact .inl ⟨q, rfl⟩
  · rcases he with ⟨q, st, hst, rfl⟩ | ⟨q, l, d, -, rfl⟩ | ⟨b, a, x, -, rfl⟩ | ⟨v, e, -, -, -, rfl | rfl⟩ |
      ⟨c, -, -, rfl⟩ | ⟨-, rfl⟩ | ⟨-, rfl⟩ | ⟨k, l, -, -, -, rfl⟩
    · exact .inr (.inl ⟨q, st, hst, rfl⟩)
    · exact .inr (.inr (.inl ⟨d, rfl⟩))
    · exact .inr (.inr (.inl ⟨.nothing, rfl⟩))
    · exact .inr (.inr (.inl ⟨.nothing, rfl⟩))
    · exact .inr (.inr (.inr rfl))
    · exact .inr (.inr (.inr rfl))
    · exact .inr (.inr (.inl ⟨.nothing, rfl⟩))
    · exact .inr (.inr (.inl ⟨.nothing, rfl⟩))
    · exact .inr (.inr (.inr rfl))
  · rcases he with ⟨-, rfl⟩ | ⟨q, rfl⟩ | ⟨ref, term, r, q, -, rfl⟩ | ⟨-, rfl⟩ | ⟨-, rfl⟩ | ⟨p, -, rfl⟩ | ⟨e, -, -, rfl⟩
    · exact .inr (.inr (.inr rfl))
    · exact .inr (.inl ⟨q, .ifc, .inl rfl, rfl⟩)
    · exact .inr (.inr (.inr rfl))
    · exact .inr (.inr (.inr rfl))
    · exact .inr (.inr (.inr rfl))
    · exact .inr (.inr (.inr rfl))
    · obtain ⟨-, -, -, -, -, -, -, hresp⟩ :=
        emitUnit_frame sc.turn e (s.setPs sc.turn (s.ps.get sc.turn).clearEff)
      exact .inr (.inr (.inr hresp))

/-! ### The obligations -/

/-- Settles O22: `exec` refuses every host command then, and a held command refuses the one its input presents. -/
theorem secondCommandRefused : Obligations.SecondCommandRefused := by
  refine ⟨fun i s op hi ho => exec_of_outstanding hi ho, fun s c w items rest hheld hin => ?_⟩
  simp only [step_held hheld, poll, hin, heldInput, State.refuse_eq]

/-- Settles O23, by what each command asks of the channel; a unit's meaning asks for a scanning PLAY. -/
theorem outOfPlaceInstructions : Obligations.OutOfPlaceInstructions := by
  refine ⟨fun i s op hi hitems => exec_of_items_unsuited hi hitems, fun i s hi hscan => ?_⟩
  obtain ⟨unit, hunit⟩ := exec_unit_eq hi s
  exact hunit.trans (onUnit_of_not_scanning hscan unit)

/-- Settles O24: the answer tells which ending the instruction took. -/
theorem failureLeavesNoTrace : Obligations.FailureLeavesNoTrace := by
  intro i s t st hexec hresp
  have answered {st' : Status} {d : RespData} (h : t.resp = s.resp ++ [{ status := st', data := d }]) : st' = st := by
    rw [hresp, List.append_cancel_left_eq, List.singleton_inj, Response.mk.injEq] at h
    exact h.1.symm
  rcases exec_answer hexec with ⟨q, ht⟩ | ⟨q, st', hst, ht⟩ | ⟨d, hd⟩ | hsame
  · refine ⟨q, fun _ => ht, fun hst => ?_⟩
    obtain rfl : Status.refused = st := answered (d := .nothing) (by rw [ht]; rfl)
    simp at hst
  · obtain rfl : st' = st := answered (d := .nothing) (by rw [ht]; rfl)
    refine ⟨q, fun hr => ?_, fun _ => ht⟩
    subst hr
    simp at hst
  · obtain rfl : Status.ok = st := answered hd
    exact ⟨[], by simp, by simp⟩
  · simp [hsame] at hresp

end Sys2Proof.Machine
end

section
/-!
PROOFS. Low memory and the single-byte commands (20_memory.md R84 to R102, 40_address_ops.md R160, R162, R163): where a
field lies, what its bytes are, and how PEEK and POKE end; then the obligations about them.
-/

namespace Sys2Proof.Machine

/-! ### Where a field lies -/

theorem lowField_eq_none {c : Config} {a : Nat}
    (h : ∀ f : LowField, a < c.lowmem.of f ∨ c.lowmem.of f + f.width ≤ a) : lowField c a = none := by
  have hnone : LowField.all.find? (fun f => decide (c.lowmem.of f ≤ a) && decide (a < c.lowmem.of f + f.width)) =
      none := by
    refine List.find?_eq_none.2 fun f _ => ?_
    have hout := h f
    simp only [Bool.and_eq_true, decide_eq_true_eq]
    omega
  simp only [lowField, hnone]

/-- The byte a low-memory address has in its field lies inside the field's width. -/
theorem lowField_lt_width {c : Config} {a k : Nat} {f : LowField} (h : lowField c a = some (f, k)) : k < f.width := by
  unfold lowField at h
  split at h
  · rename_i g hg
    cases h
    have hin := List.find?_some hg
    simp only [Bool.and_eq_true, decide_eq_true_eq] at hin
    omega
  · cases h

/-! ### Bytes of a field -/

theorem fieldByte_of_not_fit {w : Nat} {x : Int} (h : x < 0 ∨ (256 : Int) ^ w ≤ x) (k : Nat) :
    fieldByte w x k = .outOfContract := by
  rw [fieldByte, if_neg (by omega)]

theorem fieldByte_one {x : Int} (hlo : 0 ≤ x) (hhi : x < 256) :
    ∃ b : Byte, fieldByte 1 x 0 = .byte b ∧ (b.toNat : Int) = x := by
  refine ⟨BitVec.ofNat 8 (x.toNat / 256 ^ 0), by rw [fieldByte, if_pos ⟨hlo, by simpa using hhi⟩], ?_⟩
  rw [BitVec.toNat_ofNat]
  omega

/-- A two-byte field is little-endian (R64). -/
theorem fieldByte_two {x : Int} (hlo : 0 ≤ x) (hhi : x < 65536) :
    ∃ lo hi : Byte, fieldByte 2 x 0 = .byte lo ∧ fieldByte 2 x 1 = .byte hi ∧ x = lo.toNat + 256 * hi.toNat := by
  refine ⟨BitVec.ofNat 8 (x.toNat / 256 ^ 0), BitVec.ofNat 8 (x.toNat / 256 ^ 1),
    by rw [fieldByte, if_pos ⟨hlo, by simpa using hhi⟩], by rw [fieldByte, if_pos ⟨hlo, by simpa using hhi⟩], ?_⟩
  rw [BitVec.toNat_ofNat, BitVec.toNat_ofNat]
  omega

/-- Bit `j` of a packed number is the layout's source `j` (log 3). -/
theorem testBit_pack (args : List Nat) {layout : List PackBit} {j : Nat} {p : PackBit} (h : layout[j]? = some p) :
    (layout.foldr (fun b n => (PackBit.eval args b).toNat + 2 * n) 0).testBit j = PackBit.eval args p := by
  induction layout generalizing j with
  | nil => cases h
  | cons q layout ih =>
    rw [List.foldr_cons]
    generalize hn : layout.foldr (fun b n => (PackBit.eval args b).toNat + 2 * n) 0 = n at ih
    have hbit := Bool.toNat_lt (PackBit.eval args q)
    cases j with
    | zero =>
      cases h
      rw [Nat.testBit_zero, Nat.add_mul_mod_self_left]
      generalize PackBit.eval args p = x
      cases x <;> rfl
    | succ j =>
      have hhalf : ((PackBit.eval args q).toNat + 2 * n) / 2 = n := by omega
      rw [Nat.testBit_succ, hhalf]
      exact ih h

theorem packByte_getLsbD {layout : List PackBit} {args : List Nat} {j : Nat} {p : PackBit} (hj : j < 8)
    (h : layout[j]? = some p) : (packByte layout args).getLsbD j = PackBit.eval args p := by
  rw [packByte, BitVec.getLsbD_ofNat, testBit_pack args h]
  simp [hj]

/-- One bad byte of a ring slot spoils both (log 27). -/
theorem ringByte_of_bad {kb : Keyboard} {slot : Nat} {lo hi : Int} (hs : kb.slots[slot]? = some (lo, hi)) {k : Nat}
    (hk : k / 2 = slot) (h : lo < 0 ∨ 256 ≤ lo ∨ hi < 0 ∨ 256 ≤ hi) : ringByte kb k = .outOfContract := by
  have hslot : kb.slots.getD (k / 2) (0, 0) = (lo, hi) := by rw [hk, List.getD_eq_getElem?_getD, hs]; rfl
  simp only [ringByte, hslot]
  by_cases hlo : lo < 0 ∨ 256 ≤ lo
  · rw [fieldByte_of_not_fit (by simpa using hlo)]
  · rw [fieldByte_of_not_fit (x := hi) (by simp; omega)]
    split <;> simp_all

theorem ringByte_of_good {kb : Keyboard} {slot : Nat} {lo hi : Int} (hs : kb.slots[slot]? = some (lo, hi))
    (hlo : 0 ≤ lo) (hlo' : lo < 256) (hhi : 0 ≤ hi) (hhi' : hi < 256) :
    ∃ b b' : Byte, ringByte kb (2 * slot) = .byte b ∧ ringByte kb (2 * slot + 1) = .byte b' ∧
      (b.toNat : Int) = lo ∧ (b'.toNat : Int) = hi := by
  obtain ⟨b, hb, hblo⟩ := fieldByte_one hlo hlo'
  obtain ⟨b', hb', hbhi⟩ := fieldByte_one hhi hhi'
  have hslot (k : Nat) (hk : k / 2 = slot) : kb.slots.getD (k / 2) (0, 0) = (lo, hi) := by
    rw [hk, List.getD_eq_getElem?_getD, hs]; rfl
  refine ⟨b, b', ?_, ?_, hblo, hbhi⟩
  · simp only [ringByte, hslot (2 * slot) (by omega), hb, hb', if_pos (show 2 * slot % 2 = 0 by omega)]
  · simp only [ringByte, hslot (2 * slot + 1) (by omega), hb, hb', if_neg (show ¬(2 * slot + 1) % 2 = 0 by omega)]

/-! ### Answers as bytes -/

/-- An answer in its contract is read as the sentinel's value, an unmapped byte as 0 (R75, R162). -/
theorem Answer.clamped_of_sentinel {a : Answer} {x : Int} (h : a.sentinel = some x) :
    ∃ b : Byte, a.clamped = some b ∧ (b.toNat : Int) = max 0 x := by
  cases a with
  | outOfContract => cases h
  | unmapped => cases h; exact ⟨0, rfl, rfl⟩
  | byte b => cases h; exact ⟨b, rfl, by omega⟩

theorem Answer.sentinel_eq_none_iff {a : Answer} : a.sentinel = none ↔ a = .outOfContract := by
  cases a <;> simp [Answer.sentinel]

theorem Answer.clamped_eq_none_iff {a : Answer} : a.clamped = none ↔ a = .outOfContract := by
  cases a <;> simp [Answer.clamped]

/-- A byte is determined by its value as an integer. -/
theorem eq_ofInt_of_toNat {b : Byte} {x : Int} (h : (b.toNat : Int) = x) : b = BitVec.ofInt 8 x := by
  subst h
  simp

/-! ### PEEK and POKE -/

section
variable {s : State} {off : BitVec 17} (hs : s.free) (hoff : offsetRange off.toInt)
include hs hoff

theorem exec_peek_of_free : exec (.peek off) s = .next (protCheck (peekBody off) s) := by
  obtain ⟨hout, hchan⟩ := hs
  exact command_taken hout (Bool.and_eq_true_iff.2 ⟨(offsetValid_iff off).2 hoff, s.noItems_iff.2 hchan⟩)

theorem exec_poke_of_free (val : BitVec 17) : exec (.poke off val) s = .next (protCheck (pokeBody off val) s) := by
  obtain ⟨hout, hchan⟩ := hs
  exact command_taken hout (Bool.and_eq_true_iff.2 ⟨(offsetValid_iff off).2 hoff, s.noItems_iff.2 hchan⟩)

end

theorem pokeBody_of_range {s : State} {off val : BitVec 17} (h : 0 ≤ val.toInt ∧ val.toInt ≤ 255) :
    pokeBody off val s =
      (s.delivered (memWrite s.cfg (effAddr s.seg off.toInt 0) (BitVec.ofInt 8 val.toInt))).completed .nothing := by
  rw [pokeBody, if_pos h, State.respond_eq, State.emit_eq]

theorem pokeBody_of_not_range {s : State} {off val : BitVec 17} (h : ¬(0 ≤ val.toInt ∧ val.toInt ≤ 255)) :
    pokeBody off val s = s.failed .range := by
  rw [pokeBody, if_neg h, State.raise_eq, Err.status]

/-! ### The obligations -/

/-- Settles O30: fields do not overlap, so an address is found in its own field or in none. -/
theorem lowMemoryFields : Obligations.LowMemoryFields := by
  intro c k b hwf
  refine ⟨fun f j hj => ?inside, fun a ha => ?outside⟩
  case inside =>
    have hfield := lowField_mem hwf f j hj
    refine ⟨?_, ?_, ?_, ?_, ?_, ?_, fun hmods hhead htail hring => ?_⟩
    · simp only [lowRead, hfield]
    · simp only [lowReadAsks, hfield]
    · rintro rfl; simp only [lowWrite, hfield]
    · rintro rfl; simp only [lowWrite, hfield]
    · rintro rfl; simp only [lowWrite, hfield]
    · rintro rfl; simp only [lowWrite, hfield]
    · cases f <;> first | contradiction | simp only [lowWrite, hfield]
  case outside =>
    have hfield := lowField_eq_none ha
    simp only [lowRead, lowReadAsks, lowWrite, hfield, and_self]

/-- Settles O31, by the bytes of a field of one and of two bytes, the ring's slots and the bits of a packed byte. -/
theorem lowMemoryValues : Obligations.LowMemoryValues := by
  intro c k m bit packed
  have packs (f : LowField) (layout : List PackBit) (args : List Nat)
      (hf : lowByte c k f 0 = .byte (packByte layout args)) : packed f layout args := by
    refine ⟨_, hf, fun j hj p hp => ?_⟩
    rw [packByte_getLsbD hj hp]
    cases p <;> rfl
  refine ⟨fun f x hf => ?oneByte, fun slot lo hi hslot => ?ring, packs _ _ _ rfl, packs _ _ _ rfl,
    fun h => packs _ _ _ (by simp only [lowByte, h, if_true]; rfl), fun f x hf => ?twoBytes, fun h => ?palette,
    fun h => ?unknownMode, fun n b hn hm => ?mode⟩
  case oneByte =>
    have hbyte : lowByte c k f 0 = fieldByte 1 x 0 := by
      rcases hf with ⟨rfl, rfl⟩ | ⟨rfl, rfl⟩ | ⟨rfl, rfl⟩ | ⟨rfl, rfl⟩ | ⟨rfl, rfl⟩ | ⟨rfl, rfl⟩ | ⟨rfl, rfl⟩ <;> rfl
    rw [hbyte]
    exact ⟨fieldByte_one, fun h => fieldByte_of_not_fit (by simpa using h) 0⟩
  case ring =>
    exact ⟨ringByte_of_good hslot, fun h => ⟨ringByte_of_bad hslot (by omega) h, ringByte_of_bad hslot (by omega) h⟩⟩
  case twoBytes =>
    have hbyte (j : Nat) : lowByte c k f j = fieldByte 2 x j := by
      rcases hf with ⟨rfl, rfl⟩ | ⟨rfl, rfl⟩ | ⟨rfl, rfl⟩ | ⟨rfl, rfl⟩ | ⟨rfl, rfl⟩ | ⟨rfl, rfl⟩ <;> rfl
    simp only [hbyte]
    exact ⟨fieldByte_two, fun h => fieldByte_of_not_fit (by simpa using h)⟩
  case palette => simp only [lowByte, h, Bool.false_eq_true, if_false]
  case unknownMode =>
    have hnone : c.modeNumber.lookup k.videoMeta.modeName = none :=
      List.lookup_eq_none_iff.2 fun p hp => by simpa using (h p hp).symm
    simp only [lowByte, screenMode, hnone, Option.getD_none]
  case mode =>
    subst hm
    simp only [lowByte, screenMode, hn, Option.getD_some]

/-- Settles O32: the protection check, then the byte or a refusal. -/
theorem peekOutcome : Obligations.PeekOutcome := by
  intro s off hs hoff ea t
  rw [exec_peek_of_free hs hoff]
  refine ⟨fun hl => congrArg _ (protCheck_locked hl), fun ha => ?_⟩
  rw [protCheck_accessible ha]
  have hasked : t = (s.consulted protAsks).consulted (memAsks s.cfg s.coll ea) := (State.consulted_consulted _ _ _).symm
  rw [hasked]
  rcases peekBody_cases off (s.consulted protAsks) with ⟨b, hb, he⟩ | ⟨hb, he⟩ <;> rw [he]
  · refine ⟨fun x hx => ?_, fun hnone => ?_⟩
    · obtain ⟨b', hb', hval⟩ := Answer.clamped_of_sentinel hx
      obtain rfl : b = b' := Option.some.inj (hb.symm.trans hb')
      rw [← eq_ofInt_of_toNat hval]
      rfl
    · cases hb.symm.trans (Answer.clamped_eq_none_iff.2 (Answer.sentinel_eq_none_iff.1 hnone))
  · refine ⟨fun x hx => ?_, fun _ => rfl⟩
    obtain ⟨b', hb', -⟩ := Answer.clamped_of_sentinel hx
    cases hb.symm.trans hb'

/-- Settles O33: the protection check, then the value's range, then one routed write. -/
theorem pokeOutcome : Obligations.PokeOutcome := by
  intro s off val hs hoff t
  rw [exec_poke_of_free hs hoff]
  refine ⟨fun hl => congrArg _ (protCheck_locked hl), fun ha hval => ?_, fun ha hlo hhi => ?_⟩
  · rw [protCheck_accessible ha, pokeBody_of_not_range (by omega)]
    rfl
  · refine ⟨BitVec.ofInt 8 val.toInt, ?_, ?_⟩
    · rw [BitVec.toNat_ofInt]
      omega
    · rw [protCheck_accessible ha, pokeBody_of_range ⟨hlo, hhi⟩]
      rfl

end Sys2Proof.Machine
end

section
/-!
PROOFS. Block transfers and files (40_address_ops.md R161, R164, R165, R168 to R171): the run of the video bytes in a span,
what READ_BLOCK answers and asks, the outputs of WRITE_BLOCK, and BLOAD and BSAVE; then the obligations about them.
-/

namespace Sys2Proof.Machine

/-! ### The video run of a span -/

theorem isVideo_iff (c : Config) (ea : BitVec 20) :
    isVideo c ea = true ↔ 0xA0000 ≤ ea.toNat ∧ ea.toNat < 0xC0000 := by
  rw [isVideo, beq_iff_eq, region_eq_video_iff]

theorem range_eq_append_range' {m n : Nat} (h : m ≤ n) : List.range n = List.range m ++ List.range' m (n - m) := by
  have happend := List.range'_append_1 (s := 0) (m := m) (n := n - m)
  rw [Nat.zero_add, Nat.add_sub_cancel' h] at happend
  rw [List.range_eq_range', List.range_eq_range', happend]

/-- A span is what lies before a run, the run, and what lies after it. -/
theorem range_eq_append_run {n i0 i1 : Nat} (h0 : i0 ≤ i1) (h1 : i1 ≤ n) :
    List.range n = List.range i0 ++ List.range' i0 (i1 - i0) ++ List.range' i1 (n - i1) := by
  rw [range_eq_append_range' h1, range_eq_append_range' h0]

/-- Where the video bytes of a span are exactly those from `i0` to `i1`, `Vid` is that run. -/
theorem videoIndices_eq_range' {c : Config} {seg : BitVec 16} {off : Int} {n i0 i1 : Nat} (h0 : i0 ≤ i1) (h1 : i1 ≤ n)
    (h : ∀ i < n, isVideo c (effAddr seg off i) = true ↔ i0 ≤ i ∧ i < i1) :
    videoIndices c seg off n = List.range' i0 (i1 - i0) := by
  have hbefore : (List.range i0).filter (fun i => isVideo c (effAddr seg off i)) = [] :=
    List.filter_eq_nil_iff.2 fun i hi hv => by
      have hlt := List.mem_range.1 hi
      have := (h i (by omega)).1 hv
      omega
  have hrun : (List.range' i0 (i1 - i0)).filter (fun i => isVideo c (effAddr seg off i)) = List.range' i0 (i1 - i0) :=
    List.filter_eq_self.2 fun i hi => by
      obtain ⟨hlo, hhi⟩ := List.mem_range'_1.1 hi
      exact (h i (by omega)).2 ⟨hlo, by omega⟩
  have hafter : (List.range' i1 (n - i1)).filter (fun i => isVideo c (effAddr seg off i)) = [] :=
    List.filter_eq_nil_iff.2 fun i hi hv => by
      obtain ⟨hlo, hhi⟩ := List.mem_range'_1.1 hi
      have := (h i (by omega)).1 hv
      omega
  rw [videoIndices, range_eq_append_run h0 h1, List.filter_append, List.filter_append, hbefore, hrun, hafter,
    List.nil_append, List.append_nil]

/-- A span of at most 65535 bytes is too short to leave the video region and wrap back into it (R161). -/
theorem exists_video_run (c : Config) (seg : BitVec 16) (off : Int) {n : Nat} (hn : n ≤ 65535) :
    ∃ i0 i1, i0 ≤ i1 ∧ i1 ≤ n ∧ ∀ i < n, isVideo c (effAddr seg off i) = true ↔ i0 ≤ i ∧ i < i1 := by
  obtain ⟨p, hp⟩ : ∃ p, p = (seg.toNat * 16 + (norm16 off).toNat) % 2 ^ 20 := ⟨_, rfl⟩
  refine ⟨min n (0xA0000 - p), min n (0xC0000 - p), by omega, by omega, fun i hi => ?_⟩
  rw [isVideo_iff, effAddr_toNat]
  omega

/-- Two bytes of a span of at most 65535 bytes lie at two addresses. -/
theorem effAddr_injective {seg : BitVec 16} {off : Int} {i j : Nat} (hi : i ≤ 65535) (hj : j ≤ 65535)
    (h : effAddr seg off i = effAddr seg off j) : i = j := by
  have heq := congrArg BitVec.toNat h
  rw [effAddr_toNat, effAddr_toNat] at heq
  omega

/-! ### READ_BLOCK -/

/-- A bulk answer in its contract: exactly `n` bytes (R102). -/
def goodRange (n : Nat) (l : List Int) : Prop := l.length = n ∧ ∀ x ∈ l, 0 ≤ x ∧ x < 256

theorem rangeBytes_of_good {n : Nat} {l : List Int} (h : goodRange n l) :
    rangeBytes n l = some (l.map fun x => BitVec.ofInt 8 x) := rangeBytes_ok h.1 h.2

theorem rangeBytes_of_not_good {n : Nat} {l : List Int} (h : ¬goodRange n l) : rangeBytes n l = none := by
  cases hb : rangeBytes n l with
  | none => rfl
  | some bs =>
    obtain ⟨hlen, hbytes, -⟩ := rangeBytes_some hb
    exact absurd ⟨hlen, hbytes⟩ h

/-- The bytes of a bulk answer in its contract are its integers. -/
theorem toNat_getD_map_ofInt {l : List Int} (h : ∀ x ∈ l, 0 ≤ x ∧ x < 256) (j : Nat) :
    (((l.map fun x => BitVec.ofInt 8 x).getD j 0).toNat : Int) = l.getD j 0 := by
  simp only [List.getD_eq_getElem?_getD, List.getElem?_map]
  cases hj : l[j]? with
  | none => rfl
  | some x =>
    obtain ⟨hlo, hhi⟩ := h x (List.mem_of_getElem? hj)
    simp only [Option.map_some, Option.getD_some, BitVec.toNat_ofInt]
    omega

section
variable {c : Config} {k : Collab} {seg : BitVec 16} {off : Int} {i : Nat}

theorem readBlockByte_of_not_video (i0 : Nat) (vb : Option (List Byte)) (h : isVideo c (effAddr seg off i) = false) :
    readBlockByte c k seg off i0 vb i = (memRead c k (effAddr seg off i)).clamped := by
  simp [readBlockByte, h]

theorem readBlockByte_of_video (i0 : Nat) (vb : Option (List Byte)) (h : isVideo c (effAddr seg off i) = true) :
    readBlockByte c k seg off i0 vb i = vb.map fun l =>
      (if c.ovrVideoBulk then overrideAt c (effAddr seg off i) else none).getD (l.getD (i - i0) 0) := by
  simp [readBlockByte, h]

/-- A byte of READ_BLOCK is missing where its single-byte answer, or the one bulk answer, breaks the contract (R102). -/
theorem readBlockByte_eq_none_iff (i0 n : Nat) (l : List Int) :
    readBlockByte c k seg off i0 (rangeBytes n l) i = none ↔
      (isVideo c (effAddr seg off i) = false ∧ memRead c k (effAddr seg off i) = .outOfContract) ∨
      (isVideo c (effAddr seg off i) = true ∧ ¬goodRange n l) := by
  cases hv : isVideo c (effAddr seg off i) with
  | false => rw [readBlockByte_of_not_video _ _ hv, Answer.clamped_eq_none_iff]; simp
  | true =>
    rw [readBlockByte_of_video _ _ hv]
    by_cases hgood : goodRange n l
    · simp [rangeBytes_of_good hgood, hgood]
    · simp [rangeBytes_of_not_good hgood, hgood]

/-- The first video index of a span stands at the head of `Vid`. -/
theorem head?_videoIndices_iff {n : Nat} (hi : i < n) (hv : isVideo c (effAddr seg off i) = true) :
    (videoIndices c seg off n).head? = some i ↔ i = (videoIndices c seg off n).headD 0 := by
  have hmem : i ∈ videoIndices c seg off n := mem_videoIndices.2 ⟨hi, hv⟩
  cases hvid : videoIndices c seg off n with
  | nil => simp [hvid] at hmem
  | cons j l => simp [eq_comm]

/-- The bulk call is made at the first video byte and nowhere else (R164). -/
theorem readBlockAsk_eq {n : Nat} (hi : i < n) :
    readBlockAsk c k seg off (videoIndices c seg off n) i =
      if isVideo c (effAddr seg off i) = false then memAsks c k (effAddr seg off i)
      else if i = (videoIndices c seg off n).headD 0 then
        [.videoGetRange (rel c (effAddr seg off ((videoIndices c seg off n).headD 0))) (videoIndices c seg off n).length]
      else [] := by
  cases hv : isVideo c (effAddr seg off i) with
  | false => simp [readBlockAsk, hv]
  | true =>
    simp only [readBlockAsk, hv, head?_videoIndices_iff hi hv, if_true, Bool.true_eq_false, if_false]
    split_ifs with h
    · rw [← h]
    · rfl

/-- What a video byte of the bulk answer is (R164). -/
theorem readBlockByte_video_value {i0 n : Nat} {l : List Int} {b : Byte} (hv : isVideo c (effAddr seg off i) = true)
    (hb : readBlockByte c k seg off i0 (rangeBytes n l) i = some b) :
    goodRange n l ∧ b = (if c.ovrVideoBulk then overrideAt c (effAddr seg off i) else none).getD
      ((l.map fun x => BitVec.ofInt 8 x).getD (i - i0) 0) := by
  rw [readBlockByte_of_video _ _ hv] at hb
  by_cases hgood : goodRange n l
  · rw [rangeBytes_of_good hgood] at hb
    exact ⟨hgood, (Option.some.inj hb).symm⟩
  · rw [rangeBytes_of_not_good hgood] at hb
    cases hb

end

/-- A valid READ_BLOCK with nothing outstanding runs its body. -/
theorem exec_readBlock_of_free {s : State} {off n : BitVec 17} (hs : s.free) (hoff : offsetRange off.toInt)
    (hlen : lengthRange n.toInt) : exec (.readBlock off n) s = .next (readBlockBody off n s) := by
  obtain ⟨hout, hchan⟩ := hs
  have hvalid := Bool.and_eq_true_iff.2 ⟨(offsetValid_iff off).2 hoff, (lengthValid_iff n).2 hlen⟩
  exact command_taken hout (Bool.and_eq_true_iff.2 ⟨hvalid, s.noItems_iff.2 hchan⟩)

/-! ### WRITE_BLOCK -/

section
variable {c : Config} {seg : BitVec 16} {off : Int} {data : List Byte} {vid : List Nat} {i : Nat}

theorem writeBlockAt_of_not_video (h : isVideo c (effAddr seg off i) = false) :
    writeBlockAt c seg off data vid i = memWrite c (effAddr seg off i) (data.getD i 0) := by
  simp [writeBlockAt, h]

theorem writeBlockAt_of_head (h : isVideo c (effAddr seg off i) = true) (hi : vid.head? = some i) :
    writeBlockAt c seg off data vid i =
      [.videoSetRange (rel c (effAddr seg off i)) ((data.drop i).take vid.length)] := by
  simp [writeBlockAt, h, hi]

theorem writeBlockAt_of_not_head (h : isVideo c (effAddr seg off i) = true) (hi : vid.head? ≠ some i) :
    writeBlockAt c seg off data vid i = [] := by
  simp [writeBlockAt, h, hi]

/-- Without a video byte the outputs are the single-byte writes in order (R165). -/
theorem writeBlock_of_no_video {n : Nat} (hlen : data.length = n) (h : ∀ i < n, isVideo c (effAddr seg off i) = false) :
    writeBlock c seg off data =
      (List.range n).flatMap fun i => memWrite c (effAddr seg off i) (data.getD i 0) := by
  rw [writeBlock, hlen]
  exact List.flatMap_congr fun i hi => writeBlockAt_of_not_video (h i (List.mem_range.1 hi))

/-- The whole video run is one bulk call at the place of its first byte (R165). -/
theorem writeBlock_of_video_run {n i0 i1 : Nat} (hlen : data.length = n) (h0 : i0 < i1) (h1 : i1 ≤ n)
    (h : ∀ i < n, isVideo c (effAddr seg off i) = true ↔ i0 ≤ i ∧ i < i1) :
    writeBlock c seg off data =
      (List.range i0).flatMap (fun i => memWrite c (effAddr seg off i) (data.getD i 0)) ++
        [.videoSetRange (rel c (effAddr seg off i0)) ((data.drop i0).take (i1 - i0))] ++
        (List.range' i1 (n - i1)).flatMap fun i => memWrite c (effAddr seg off i) (data.getD i 0) := by
  have hvid := videoIndices_eq_range' h0.le h1 h
  have outside {i : Nat} (hi : i < n) (hout : i < i0 ∨ i1 ≤ i) : isVideo c (effAddr seg off i) = false := by
    rw [Bool.eq_false_iff]
    exact fun hv => by have := (h i hi).1 hv; omega
  have hhead : (List.range' i0 (i1 - i0)).head? = some i0 := by
    rw [List.head?_range', if_neg (by omega)]
  have hbefore : (List.range i0).flatMap (writeBlockAt c seg off data (List.range' i0 (i1 - i0))) =
      (List.range i0).flatMap fun i => memWrite c (effAddr seg off i) (data.getD i 0) :=
    List.flatMap_congr fun i hi => by
      have := List.mem_range.1 hi
      exact writeBlockAt_of_not_video (outside (by omega) (.inl this))
  have hafter : (List.range' i1 (n - i1)).flatMap (writeBlockAt c seg off data (List.range' i0 (i1 - i0))) =
      (List.range' i1 (n - i1)).flatMap fun i => memWrite c (effAddr seg off i) (data.getD i 0) :=
    List.flatMap_congr fun i hi => by
      have := List.mem_range'_1.1 hi
      exact writeBlockAt_of_not_video (outside (by omega) (.inr this.1))
  have hrest : (List.range' (i0 + 1) (i1 - i0 - 1)).flatMap
      (writeBlockAt c seg off data (List.range' i0 (i1 - i0))) = [] :=
    List.flatMap_eq_nil_iff.2 fun i hi => by
      have := List.mem_range'_1.1 hi
      refine writeBlockAt_of_not_head ((h i (by omega)).2 (by omega)) ?_
      rw [hhead, ne_eq, Option.some.injEq]
      omega
  have hfirst : writeBlockAt c seg off data (List.range' i0 (i1 - i0)) i0 =
      [.videoSetRange (rel c (effAddr seg off i0)) ((data.drop i0).take (i1 - i0))] := by
    rw [writeBlockAt_of_head ((h i0 (by omega)).2 ⟨le_rfl, h0⟩) hhead, List.length_range']
  have hrun : (List.range' i0 (i1 - i0)).flatMap (writeBlockAt c seg off data (List.range' i0 (i1 - i0))) =
      [.videoSetRange (rel c (effAddr seg off i0)) ((data.drop i0).take (i1 - i0))] := by
    conv_lhs =>
      arg 2
      rw [show i1 - i0 = (i1 - i0 - 1) + 1 by omega, List.range'_succ]
    rw [List.flatMap_cons, hrest, hfirst, List.append_nil]
  rw [writeBlock, hlen, hvid, range_eq_append_run h0.le h1, List.flatMap_append, List.flatMap_append, hbefore, hrun,
    hafter]

/-- A glyph byte of a block reads as its byte of the data: no later byte of the block lies at its address (R67). -/
theorem memRead_after_writeBlock (k : Collab) (hlen : data.length ≤ 65535) (hi : i < data.length)
    (hw : inGlyphWindow c (effAddr seg off i)) (ho : overrideAt c (effAddr seg off i) = none) :
    memRead c ((writeBlock c seg off data).foldl Collab.receive k) (effAddr seg off i) = .byte (data.getD i 0) := by
  have hvideo : isVideo c (effAddr seg off i) = false := by
    rw [isVideo, (ramGlyph_of_inGlyphWindow hw).1]
    rfl
  have hsplit : List.range data.length = List.range i ++ i :: List.range' (i + 1) (data.length - (i + 1)) := by
    rw [range_eq_append_range' hi.le, show data.length - i = data.length - (i + 1) + 1 by omega, List.range'_succ]
  have hlater : effAddr seg off i ∉ (List.range' (i + 1) (data.length - (i + 1))).map (effAddr seg off) := by
    rintro hmem
    obtain ⟨j, hj, heq⟩ := List.mem_map.1 hmem
    have := List.mem_range'_1.1 hj
    have := effAddr_injective (by omega) (by omega) heq
    omega
  rw [writeBlock, hsplit, List.flatMap_append, List.flatMap_cons, writeBlockAt_of_not_video hvideo, List.foldl_append,
    List.foldl_append, memRead_receives_of_not_set (glyphsAt_writeBlockAt _ _ _ _ _ _) (.inl hlater)]
  exact memRead_after_glyph_write _ _ hw ho

end

/-! ### Writing back -/

/-- A byte written where it was just read stores what its collaborator answers already (R171). -/
theorem leavesAsIs_memWrite {c : Config} {k : Collab} {ea : BitVec 20} {b : Byte}
    (hb : (regionRead c k ea).clamped = some b) : ∀ e ∈ memWrite c ea b, leavesAsIs c k e := by
  intro e he
  cases hr : region c ea with
  | rom => simp [memWrite_rom b hr] at he
  | ramFont =>
    rw [memWrite_ramFont b hr] at he
    simp only [regionRead, hr] at hb
    unfold ramFontWrite at he
    split at he
    · rename_i char row hg
      rw [hg] at hb
      simp only [List.mem_cons, List.not_mem_nil, or_false] at he
      rcases he with rfl | rfl
      · exact hb
      · exact trivial
    · cases he
  | video =>
    rw [memWrite_video b hr, List.mem_singleton] at he
    simp only [regionRead, hr] at hb
    subst he
    exact hb
  | data =>
    rw [memWrite_data b hr, List.mem_singleton] at he
    simp only [regionRead, hr] at hb
    subst he
    exact hb
  | low =>
    rw [memWrite_low b hr] at he
    simp only [regionRead, hr, lowRead] at hb
    unfold lowWrite at he
    split at he
    · rename_i j hf
      have hj : j = 0 := Nat.lt_one_iff.1 (lowField_lt_width hf)
      rw [List.mem_singleton] at he
      subst he hj
      simpa only [leavesAsIs, hf] using hb
    · rename_i j hf
      rw [List.mem_singleton] at he
      subst he
      simpa only [leavesAsIs, hf] using hb
    · rename_i j hf
      rw [List.mem_singleton] at he
      subst he
      simpa only [leavesAsIs, hf] using hb
    · rename_i j hf
      rw [List.mem_singleton] at he
      subst he
      have hslot : 2 * (j / 2) + j % 2 = j := Nat.div_add_mod j 2
      simpa only [leavesAsIs, hslot, hf] using hb
    · cases he

/-- Bytes that stand in a bulk answer in its contract are that answer. -/
theorem range_eq_map_toNat {n : Nat} {l : List Int} {bytes : List Byte} (hgood : goodRange n l)
    (hlen : bytes.length = n) (h : ∀ j < n, bytes.getD j 0 = (l.map fun x => BitVec.ofInt 8 x).getD j 0) :
    l = bytes.map fun b => (b.toNat : Int) := by
  obtain ⟨hl, hbytes⟩ := hgood
  refine List.ext_getElem (by rw [List.length_map, hl, hlen]) fun j hj hj' => ?_
  have hval := toNat_getD_map_ofInt hbytes j
  rw [← h j (hl ▸ hj), List.getD_eq_getElem _ _ (by omega), List.getD_eq_getElem _ _ hj] at hval
  rw [List.getElem_map, hval]

/-- The bulk call of a write-back stores the bulk answer that was read (R171). -/
theorem leavesAsIs_bulk {c : Config} {k : Collab} {seg : BitVec 16} {off : Int} {n i : Nat} {bs : List Byte}
    (hn : n ≤ 65535) (hno : ∀ i < n, overrideAt c (effAddr seg off i) = none)
    (hread : readBlock c k seg off n = some bs) (hi : i < n) (hv : isVideo c (effAddr seg off i) = true)
    (hhead : (videoIndices c seg off n).head? = some i) :
    leavesAsIs c k
      (.videoSetRange (rel c (effAddr seg off i)) ((bs.drop i).take (videoIndices c seg off n).length)) := by
  obtain ⟨hlen, hvalue⟩ := collect_some hread
  simp only [Nat.zero_add] at hvalue
  obtain ⟨i0, i1, h0, h1, hrun⟩ := exists_video_run c seg off hn
  have hvid := videoIndices_eq_range' h0 h1 hrun
  have hfirst : (videoIndices c seg off n).headD 0 = i := ((head?_videoIndices_iff hi hv).1 hhead).symm
  have hi0 : i = i0 := by
    have hlt := (hrun i hi).1 hv
    rw [hvid, List.head?_range', if_neg (by omega)] at hhead
    exact (Option.some.inj hhead).symm
  subst hi0
  have hcount : (videoIndices c seg off n).length = i1 - i := by rw [hvid, List.length_range']
  have hbytes : ((bs.drop i).take (i1 - i)).length = i1 - i := by
    rw [List.length_take, List.length_drop, hlen]
    omega
  have hbyte {j : Nat} (hj : j < n) (hvj : isVideo c (effAddr seg off j) = true) :=
    readBlockByte_video_value hvj (hvalue j hj)
  simp only [hfirst, hcount] at hbyte
  rw [leavesAsIs, hcount, hbytes]
  refine range_eq_map_toNat (hbyte hi hv).1 hbytes fun j hj => ?_
  have hvalue := (hbyte (j := i + j) (by omega) ((hrun (i + j) (by omega)).2 ⟨by omega, by omega⟩)).2
  rw [hno (i + j) (by omega), ite_self, Option.getD_none, Nat.add_sub_cancel_left] at hvalue
  rw [← hvalue]
  simp [hj]

/-! ### Files -/

theorem le16_toNat (x : BitVec 16) :
    x.toNat = (x.setWidth 8 : Byte).toNat + 256 * ((x >>> 8).setWidth 8 : Byte).toNat := by
  have := x.isLt
  simp only [BitVec.toNat_setWidth, BitVec.toNat_ushiftRight, Nat.shiftRight_eq_div_pow]
  omega

/-! ### The obligations -/

/-- Settles O27: such a span meets the video region once. -/
theorem videoRunContiguous : Obligations.VideoRunContiguous := by
  intro c seg off n _ hn
  obtain ⟨i0, i1, h0, h1, hrun⟩ := exists_video_run c seg off hn
  exact ⟨i0, i1, h0, h1, videoIndices_eq_range' h0 h1 hrun⟩

/-- Settles O34: the bytes are there exactly where no answer is bad, and the asking ends at the first bad one. -/
theorem readBlockReturnsEachByte : Obligations.ReadBlockReturnsEachByte := by
  intro s off n hs hoff hlen ea vid i0 vb askAt goodBulk bad
  rw [exec_readBlock_of_free hs hoff hlen]
  set f := readBlockByte s.cfg s.coll s.seg off.toInt i0 (rangeBytes vid.length vb) with hf
  have hbad (i : Nat) : f i = none ↔ bad i := readBlockByte_eq_none_iff i0 vid.length vb
  have hasks {m : Nat} (hm : m ≤ n.toNat) :
      (List.range' 0 m).flatMap (readBlockAsk s.cfg s.coll s.seg off.toInt vid) = (List.range m).flatMap askAt := by
    rw [List.range_eq_range']
    refine List.flatMap_congr fun i hi => readBlockAsk_eq ?_
    have := List.mem_range'_1.1 hi
    omega
  rcases readBlockBody_cases off n s with ⟨bs, hb, he⟩ | ⟨hb, he⟩
  · obtain ⟨hbs, hvalue⟩ := collect_some hb
    simp only [Nat.zero_add] at hvalue
    refine ⟨fun _ => ⟨bs, hbs, ?_, fun i hi => ⟨fun hv x hx => ?_, fun hv => ?_⟩⟩, fun j hj hbadj _ => ?_⟩
    · rw [he, readBlockAsks, collectAsks_some hb, hasks le_rfl]
    · obtain ⟨b, hclamped, hval⟩ := Answer.clamped_of_sentinel hx
      have hbyte := (readBlockByte_of_not_video _ _ hv).symm.trans (hvalue i hi)
      rw [← Option.some.inj (hclamped.symm.trans hbyte)]
      exact hval
    · obtain ⟨hgood, hbyte⟩ := readBlockByte_video_value hv (hvalue i hi)
      refine ⟨fun b hovr hb => ?_, fun hno => ?_⟩
      · rw [hbyte, if_pos hovr, hb, Option.getD_some]
      · have hnone : (if s.cfg.ovrVideoBulk then overrideAt s.cfg (ea i) else none) = none := by
          rcases hno with hno | hno <;> simp [hno]
        rw [hbyte, hnone, Option.getD_none]
        exact toNat_getD_map_ofInt hgood.2 (i - i0)
    · cases ((hbad j).2 hbadj).symm.trans (hvalue j hj)
  · obtain ⟨j', hj', hnone, hbefore, hcollect⟩ := collectAsks_none (ask := readBlockAsk s.cfg s.coll s.seg off.toInt vid) hb
    simp only [Nat.zero_add] at hnone hbefore
    refine ⟨fun hgood => absurd ((hbad j').1 hnone) (hgood j' hj'), fun j hj hbadj hfirst => ?_⟩
    have hsame : j' = j := by
      rcases Nat.lt_trichotomy j' j with hlt | heq | hlt
      · exact absurd ((hbad j').1 hnone) (hfirst j' hlt)
      · exact heq
      · have hsome : (f j).isSome = true := hbefore j hlt
        rw [(hbad j).2 hbadj] at hsome
        cases hsome
    subst hsame
    rw [he, readBlockAsks, hcollect, hasks hj']

/-- Settles O35, from the order of the outputs and the address of each byte of a span. -/
theorem writeBlockOutcome : Obligations.WriteBlockOutcome := by
  intro s off n data hgiven hoff hlen hdata ea one
  obtain ⟨hout, hchan⟩ := hgiven
  have hn : n.toNat ≤ 65535 := by
    have hint := toInt_of_lengthValid ((lengthValid_iff n).2 hlen)
    have := hlen.2
    omega
  have hvalid : (offsetValid off && lengthValid n && data.length == n.toNat) = true := by
    rw [(offsetValid_iff off).2 hoff, (lengthValid_iff n).2 hlen, hdata, beq_self_eq_true]
    rfl
  refine ⟨writeBlock s.cfg s.seg off.toInt data, ?exec, fun i hi hw ho => ?glyph, fun h => ?noVideo,
    fun i0 i1 h0 h1 h => ?run⟩
  case exec => exact (execWriteBlock_given off n hchan).trans (command_taken hout hvalid)
  case glyph => exact memRead_after_writeBlock s.coll (hdata ▸ hn) (hdata ▸ hi) hw ho
  case noVideo => exact writeBlock_of_no_video hdata h
  case run => exact writeBlock_of_video_run hdata h0 h1 h

/-- Settles O40: every byte goes back where it was read, the video run as the bulk answer it came from. -/
theorem writeBackChangesNothing : Obligations.WriteBackChangesNothing := by
  intro s off n bs _ hoff hn hno hread e he
  obtain ⟨hlen, hvalue⟩ := collect_some hread
  simp only [Nat.zero_add] at hvalue
  obtain ⟨i, hi, he⟩ := List.mem_flatMap.1 he
  rw [List.mem_range, hlen] at hi
  rw [hlen] at he
  cases hv : isVideo s.cfg (effAddr s.seg off i) with
  | false =>
    rw [writeBlockAt_of_not_video hv] at he
    refine leavesAsIs_memWrite ?_ e he
    rw [← memRead_of_no_override s.coll (hno i hi), ← readBlockByte_of_not_video _ _ hv]
    exact hvalue i hi
  | true =>
    by_cases hhead : (videoIndices s.cfg s.seg off n).head? = some i
    · rw [writeBlockAt_of_head hv hhead, List.mem_singleton] at he
      subst he
      exact leavesAsIs_bulk hn hno hread hi hv hhead
    · rw [writeBlockAt_of_not_head hv hhead] at he
      cases he

/-- Settles O38: the protection check, the length of the trimmed payload, then the block write at the offset chosen. -/
theorem bloadOutcome : Obligations.BloadOutcome := by
  intro s isNone off fileOff payload hgiven hoff o t
  obtain ⟨hout, hchan⟩ := hgiven
  have hvalid : (if isNone then off == 0 else offsetValid off) = true := by
    cases isNone with
    | true => simpa using hoff
    | false => exact (offsetValid_iff off).2 hoff
  have hexec : exec (.bload isNone off) s = .next (protCheck (bloadBody isNone off fileOff payload) s) :=
    (execBload_given isNone off hchan).trans (command_taken hout hvalid)
  rw [hexec]
  refine ⟨fun hl => congrArg _ (protCheck_locked hl), fun ha hlen => ?_, fun ha hlen => ?_⟩
  · rw [protCheck_accessible ha]
    exact congrArg _ (if_pos hlen)
  · rw [protCheck_accessible ha]
    exact congrArg _ (if_neg (Nat.not_lt.2 hlen))

/-- Settles O39: the protection check, then the block's bytes with the record and, on Tandy, the trailer. -/
theorem bsaveOutcome : Obligations.BsaveOutcome := by
  intro s off n hs hoff hlen asked t
  obtain ⟨hout, hchan⟩ := hs
  have hvalid : (offsetValid off && lengthValid n && s.noItems) = true := by
    rw [(offsetValid_iff off).2 hoff, (lengthValid_iff n).2 hlen, s.noItems_iff.2 hchan]
    rfl
  have hexec : exec (.bsave off n) s = .next (protCheck (bsaveBody off n) s) := command_taken hout hvalid
  rw [hexec]
  refine ⟨fun hl => congrArg _ (protCheck_locked hl), fun ha hnone => ?_, fun ha p hp => ?_⟩
  · rw [protCheck_accessible ha]
    rcases bsaveBody_cases off n asked with ⟨p, hp, -⟩ | ⟨-, he⟩
    · cases hnone.symm.trans hp
    · exact congrArg _ he
  · rw [protCheck_accessible ha]
    have hn : (BitVec.ofNat 16 n.toNat).toNat = n.toNat := by
      have hint := toInt_of_lengthValid ((lengthValid_iff n).2 hlen)
      have := hlen.2
      rw [BitVec.toNat_ofNat]
      omega
    refine ⟨norm16 off.toInt, _, _, _, _, _, _, norm16_toNat hoff, le16_toNat s.seg, le16_toNat _,
      hn.symm.trans (le16_toNat _), ?_⟩
    rcases bsaveBody_cases off n asked with ⟨p', hp', he⟩ | ⟨hnone, -⟩
    · obtain rfl : p = p' := Option.some.inj (hp.symm.trans hp')
      exact congrArg _ he
    · cases hnone.symm.trans hp

end Sys2Proof.Machine
end

section
/-!
PROOFS. Queue commands, waiting and the renderer (41_tone_queue.md R200 to R206, R211 to R216, R339): how a command that may
hold ends, what a held one does with an input and when it goes on; then the obligations about them.
-/

namespace Sys2Proof.Machine

/-! ### Commands with an event -/

section
variable {s : State} {v : Voice} {e : Event} (hs : s.given [.event e])
include hs

theorem exec_enqueue_of_not_allowed (he : ¬eventAllowed e v) : exec (.enqueue v) s = .next s.turnedAway := by
  have hadm : e.admissible v = false := by rwa [← Event.admissible_iff, Bool.not_eq_true] at he
  exact (execEnqueue_given v hs.2).trans (command_refused (.inr hadm))

theorem exec_enqueue_of_allowed (he : eventAllowed e v) : exec (.enqueue v) s = .next (enqueueFrom v e s) :=
  (execEnqueue_given v hs.2).trans (command_taken hs.1 ((Event.admissible_iff e v).2 he))

theorem exec_playAndWait_of_allowed (he : eventAllowed e v) :
    exec (.playAndWait v) s = .next (playAndWaitFrom v e s) :=
  (execPlayAndWait_given v hs.2).trans (command_taken hs.1 ((Event.admissible_iff e v).2 he))

end

/-! ### Where a command that may hold goes -/

theorem State.room_false_of_full {s : State} {v : Voice} {n : Nat} (hn : s.cfg.qdepth = some n)
    (hfull : n ≤ (s.queue.get v).length) : s.room v = false := (s.room_false_iff v).2 ⟨n, hn, hfull⟩

section
variable {s : State} {v : Voice} {e : Event}

theorem enqueueFrom_of_room (hr : s.room v = true) : enqueueFrom v e s = (s.withEvent v e).completed .nothing := by
  rcases enqueueFrom_cases v e s with ⟨-, he⟩ | ⟨hfull, -⟩
  · exact he
  · cases hr.symm.trans hfull

theorem enqueueFrom_of_full (hr : s.room v = false) : enqueueFrom v e s = { s with out := some (.enqueue v e) } := by
  rcases enqueueFrom_cases v e s with ⟨hroom, -⟩ | ⟨-, he⟩
  · cases hr.symm.trans hroom
  · exact he

theorem playAndWaitFrom_of_short (hr : s.room v = true) (hlen : (s.queue.get v).length ≤ 15) :
    playAndWaitFrom v e s = (s.withEvent v e).completed .nothing := by
  rcases playAndWaitFrom_cases v e s with ⟨-, -, he⟩ | ⟨-, hlong, -⟩ | ⟨hfull, -⟩
  · exact he
  · omega
  · cases hr.symm.trans hfull

theorem playAndWaitFrom_of_long (hr : s.room v = true) (hlen : 16 ≤ (s.queue.get v).length) :
    playAndWaitFrom v e s = { s.withEvent v e with out := some (.backPressure v) } := by
  rcases playAndWaitFrom_cases v e s with ⟨-, hshort, -⟩ | ⟨-, -, he⟩ | ⟨hfull, -⟩
  · omega
  · exact he
  · cases hr.symm.trans hfull

theorem playAndWaitFrom_of_full (hr : s.room v = false) :
    playAndWaitFrom v e s = { s with out := some (.playAndWait v e) } := by
  rcases playAndWaitFrom_cases v e s with ⟨hroom, -⟩ | ⟨hroom, -⟩ | ⟨-, he⟩
  · cases hr.symm.trans hroom
  · cases hr.symm.trans hroom
  · exact he

end

theorem backPressureFrom_of_over {s : State} {v : Voice} (h : (s.queue.get v).length ≤ 16) :
    backPressureFrom v s = s.completed .nothing := by
  rw [backPressureFrom, if_pos ((s.backPressureOver_iff v).2 h), State.respond_eq]

section
variable {s : State} {mask : BitVec 4}

theorem waitDepthFrom_of_shallow {d : Nat}
    (h : ∀ v : Voice, mask.getLsbD v.idx = true → (s.queue.get v).length ≤ d + 1) :
    waitDepthFrom mask d s = s.completed .nothing := by
  rw [waitDepthFrom, if_pos ((s.shallow_iff mask d).2 h), State.respond_eq]

theorem waitDepthFrom_of_deep {d : Nat} {v : Voice} (hv : mask.getLsbD v.idx = true)
    (hlen : d + 1 < (s.queue.get v).length) :
    waitDepthFrom mask d s = { s with out := some (.waitDepth mask d) } := by
  rw [waitDepthFrom, if_neg fun h => absurd ((s.shallow_iff mask d).1 h v hv) (Nat.not_le.2 hlen), State.hold]

theorem waitIdleFrom_of_idle
    (h : ∀ v : Voice, mask.getLsbD v.idx = true → s.queue.get v = [] ∧ s.busy.get v = false) :
    waitIdleFrom mask s = s.completed .nothing := by
  rw [waitIdleFrom, if_pos ((s.allIdle_iff mask).2 h), State.respond_eq]

theorem waitIdleFrom_of_busy {v : Voice} (hv : mask.getLsbD v.idx = true)
    (h : s.queue.get v ≠ [] ∨ s.busy.get v = true) :
    waitIdleFrom mask s = { s with out := some (.waitIdle mask) } := by
  have hnot : ¬s.allIdle mask = true := fun hall => by
    obtain ⟨hqueue, hbusy⟩ := (s.allIdle_iff mask).1 hall v hv
    exact h.elim (· hqueue) fun hb => by cases hb.symm.trans hbusy
  rw [waitIdleFrom, if_neg hnot, State.hold]

end

/-! ### The renderer -/

section
variable {s : State} {v : Voice}

theorem rendererStep_take_of_enabled {e : Event} {q : List Event} (hstop : s.stopReq = false)
    (hbusy : s.busy.get v = false) (hq : s.queue.get v = e :: q) :
    rendererStep (.take v) s =
      { s with queue := s.queue.set v q, busy := s.busy.set v true, cur := s.cur.set v (some e) } := by
  simp [rendererStep, State.takeEnabled, State.take, hstop, hbusy, hq, State.setQueue, State.setInFlight]

theorem rendererStep_take_of_disabled (h : s.stopReq = true ∨ s.busy.get v = true ∨ s.queue.get v = []) :
    rendererStep (.take v) s = s := by
  rw [rendererStep, if_neg]
  rcases h with h | h | h <;> simp [State.takeEnabled, h]

theorem rendererStep_done_of_enabled {e : Event} (hbusy : s.busy.get v = true) (hcur : s.cur.get v = some e)
    (hends : e.loop = false ∨ s.queue.get v ≠ []) :
    rendererStep (.done v) s = { s with busy := s.busy.set v false, cur := s.cur.set v none } := by
  have henabled : s.doneEnabled v = true := by
    rcases hends with h | h <;> simp [State.doneEnabled, hbusy, hcur, h]
  rw [rendererStep, if_pos henabled, State.setInFlight]

/-- A looping item ends only once another event is queued behind it (R212). -/
theorem rendererStep_done_of_looping {e : Event} (hcur : s.cur.get v = some e) (hloop : e.loop = true)
    (hq : s.queue.get v = []) : rendererStep (.done v) s = s := by
  rw [rendererStep, if_neg]
  simp [State.doneEnabled, hcur, hloop, hq]

theorem rendererStep_done_of_idle (hbusy : s.busy.get v = false) : rendererStep (.done v) s = s := by
  rw [rendererStep, if_neg]
  simp [State.doneEnabled, hbusy]

end

/-! ### Stores that a collaborator changes -/

/-- An address below every listed one is not listed. -/
theorem Memory.read_of_lt {m : Memory} {a : Nat} (h : ∀ p ∈ m, a < p.1) : m.read a = none := by
  induction m with
  | nil => rfl
  | cons x m ih =>
    obtain ⟨x, c⟩ := x
    have hx : a < x := h (x, c) List.mem_cons_self
    rw [Memory.read, if_neg hx.ne, ih fun p hp => h p (List.mem_cons_of_mem _ hp)]

/-- In the canonical form a removed address is listed no more. -/
theorem Memory.read_remove_self {m : Memory} (hm : m.wf) (a : Nat) : (m.remove a).read a = none := by
  induction m with
  | nil => rfl
  | cons x m ih =>
    obtain ⟨x, c⟩ := x
    obtain ⟨hx, ht⟩ := List.pairwise_cons.1 hm
    rw [Memory.remove]
    split_ifs with ha
    · subst ha
      exact Memory.read_of_lt hx
    · rw [Memory.read, if_neg ha, ih ht]

theorem Memory.read_remove_ne (m : Memory) {a a' : Nat} (h : a' ≠ a) : (m.remove a).read a' = m.read a' := by
  induction m with
  | nil => rfl
  | cons x m ih =>
    obtain ⟨x, c⟩ := x
    rw [Memory.remove]
    split_ifs with ha
    · subst ha
      rw [Memory.read, if_neg h]
    · rw [Memory.read, Memory.read, ih]

theorem Store.answer_remove_self {st : Store} (hst : st.cells.wf) (a : Nat) : (st.write a none).answer a = .unmapped := by
  simp [Store.write, Store.answer, Memory.write, Memory.read_remove_self hst]

theorem Store.answer_remove_ne (st : Store) {a a' : Nat} (h : a' ≠ a) :
    (st.write a none).answer a' = st.answer a' := by
  simp [Store.write, Store.answer, Memory.write, Memory.read_remove_ne _ h, h]

theorem Store.answer_spoil_self (st : Store) (a : Nat) : (st.spoil a).answer a = .outOfContract := by
  simp [Store.spoil, Store.answer]

theorem Store.answer_spoil_ne (st : Store) {a a' : Nat} (h : a' ≠ a) : (st.spoil a).answer a' = st.answer a' := by
  simp [Store.spoil, Store.answer, h]

/-! ### Steps without a command to run -/

theorem step_collab {s : State} {c : CollabChange} {rest : List Input} (ho : s.out = none)
    (hin : s.inbox = .collab c :: rest) : step s = .next (applyChange c { s with inbox := rest }) := by
  rw [step_idle ho, stepIdle, hin]

/-- With no input nothing happens, whether a command is held or none is outstanding (log 17). -/
theorem step_of_no_input {s : State} (h : s.out = none ∨ ∃ c, s.heldAt c) (hin : s.inbox = []) : step s = .next s := by
  rcases h with ho | ⟨c, hheld⟩
  · rw [step_idle ho, stepIdle, hin]
  · rw [step_held hheld, poll, hin]

/-- The renderer moves while a command is held and while none is outstanding (R215, R216). -/
theorem step_renderer {s : State} {r : RendererStep} {rest : List Input} (h : s.out = none ∨ ∃ c, s.heldAt c)
    (hin : s.inbox = .renderer r :: rest) : step s = .next (rendererStep r { s with inbox := rest }) := by
  rcases h with ho | ⟨c, hheld⟩
  · rw [step_idle ho, stepIdle, hin]
  · simp only [step_held hheld, poll, hin, heldInput]

/-! ### A looping item -/

/-- The command outstanding is `c`, and voice `v` plays a looping item with nothing queued and no stop pending (R339). -/
def State.stuckOn (s : State) (v : Voice) (c : Cont) : Prop :=
  s.out = some c ∧ s.queue.get v = [] ∧ s.busy.get v = true ∧ s.stopReq = false ∧
    ∃ e, s.cur.get v = some e ∧ e.loop = true

/-- No renderer step takes from the empty queue, ends the looping item or acknowledges a stop. -/
theorem State.stuckOn.renderer {s : State} {v : Voice} {c : Cont} (h : s.stuckOn v c) (r : RendererStep) :
    (rendererStep r s).stuckOn v c := by
  have ⟨hout, hqueue, hbusy, hstop, e, hcur, hloop⟩ := h
  rcases rendererStep_cases r s with he | ⟨w, x, q, -, -, hidle, -, he⟩ | ⟨w, -, hdone, he⟩ | ⟨-, hack, -⟩
  · rw [he]
    exact h
  · have hw : v ≠ w := by
      rintro rfl
      cases hidle.symm.trans hbusy
    rw [he]
    exact ⟨hout, (Quad.get_set_ne _ _ hw).trans hqueue, (Quad.get_set_ne _ _ hw).trans hbusy, hstop, e,
      (Quad.get_set_ne _ _ hw).trans hcur, hloop⟩
  · have hw : v ≠ w := by
      rintro rfl
      simp [State.doneEnabled, hqueue, hcur, hloop] at hdone
    rw [he]
    exact ⟨hout, hqueue, (Quad.get_set_ne _ _ hw).trans hbusy, hstop, e, (Quad.get_set_ne _ _ hw).trans hcur, hloop⟩
  · cases hstop.symm.trans hack

/-- A wait that includes the voice is not over while an item is in flight on it (R206, R268). -/
theorem State.stuckOn.heldAt {s : State} {v : Voice} {c : Cont} (h : s.stuckOn v c)
    (hc : (∃ mask : BitVec 4, mask.getLsbD v.idx = true ∧ c = .waitIdle mask) ∨ (v ≠ .noise ∧ c = .playForeground)) :
    s.heldAt c := by
  obtain ⟨hout, -, hbusy, -⟩ := h
  rcases hc with ⟨mask, hmask, rfl⟩ | ⟨htone, rfl⟩
  · refine ⟨hout, by simp, Bool.eq_false_iff.2 fun hready => ?_⟩
    cases hbusy.symm.trans ((s.allIdle_iff mask).1 hready v hmask).2
  · refine ⟨hout, by simp, Bool.eq_false_iff.2 fun hready => ?_⟩
    obtain ⟨w, rfl⟩ : ∃ w : ToneVoice, w.queue = v := by
      cases v with
      | v0 => exact ⟨.v0, rfl⟩
      | v1 => exact ⟨.v1, rfl⟩
      | v2 => exact ⟨.v2, rfl⟩
      | noise => exact absurd rfl htone
    cases hbusy.symm.trans ((s.tonesIdle_iff).1 hready w).2

/-! ### The obligations -/

/-- Settles O42, by whether the event is admissible and the queue has room. -/
theorem enqueueOutcome : Obligations.EnqueueOutcome := by
  intro s v e hs
  refine ⟨exec_enqueue_of_not_allowed hs, fun he hroom => ?_, fun he n hn hfull => ?_⟩
  · rw [exec_enqueue_of_allowed hs he, enqueueFrom_of_room ((s.room_iff v).2 hroom)]
  · rw [exec_enqueue_of_allowed hs he, enqueueFrom_of_full (State.room_false_of_full hn hfull)]

/-- Settles O43, by the room in the queue and the events already in it. -/
theorem playAndWaitOutcome : Obligations.PlayAndWaitOutcome := by
  intro s v e hs he
  rw [exec_playAndWait_of_allowed hs he]
  refine ⟨fun hroom => ⟨fun hlen => ?_, fun hlen => ?_⟩, fun n hn hfull => ?_⟩
  · rw [playAndWaitFrom_of_short ((s.room_iff v).2 hroom) hlen]
  · rw [playAndWaitFrom_of_long ((s.room_iff v).2 hroom) hlen]
  · rw [playAndWaitFrom_of_full (State.room_false_of_full hn hfull)]

/-- Settles O44: each wait completes exactly where its predicate holds of every selected voice. -/
theorem waitOutcomes : Obligations.WaitOutcomes := by
  intro s mask hs
  have hidle : exec (.waitIdle mask) s = .next (waitIdleFrom mask s) := command_noItems_of_free hs _
  refine ⟨fun depth hdepth => ?_, fun h => ?_, fun v hv h => ?_⟩
  · have hvalid := Bool.and_eq_true_iff.2 ⟨(lengthValid_iff depth).2 hdepth, s.noItems_iff.2 hs.2⟩
    have hexec : exec (.waitDepth mask depth) s = .next (waitDepthFrom mask depth.toNat s) := command_taken hs.1 hvalid
    rw [hexec]
    exact ⟨fun h => congrArg _ (waitDepthFrom_of_shallow h), fun v hv h => congrArg _ (waitDepthFrom_of_deep hv h)⟩
  · rw [hidle, waitIdleFrom_of_idle h]
  · rw [hidle, waitIdleFrom_of_busy hv h]

/-- Settles O47, step by step of the renderer. -/
theorem rendererSteps : Obligations.RendererSteps := by
  intro s v
  refine ⟨fun e q => rendererStep_take_of_enabled, rendererStep_take_of_disabled,
    fun e => rendererStep_done_of_enabled, fun e => rendererStep_done_of_looping, rendererStep_done_of_idle,
    fun h => ?_, fun h => ?_⟩
  · rw [rendererStep, if_pos h]
    rfl
  · rw [rendererStep, if_neg (by simp [h])]

/-- Settles O48: what each input does, and what each change of a store leaves at the other addresses. -/
theorem heldCommandWaits : Obligations.HeldCommandWaits := by
  refine ⟨fun s h => ⟨step_of_no_input h, fun r rest => step_renderer h⟩, fun s c k rest hheld hin => ?held,
    fun s k rest ho hin => ?idle⟩
  case held => simp only [step_held hheld, poll, hin, heldInput]
  case idle =>
    intro becomes answers
    have changed {c : Collab} (h : applyChange k { s with inbox := rest } = { s with inbox := rest, coll := c }) :
        becomes c := (step_collab ho hin).trans (congrArg _ h)
    have written (st : Store) (a : Nat) (b : Byte) : answers st (st.write a (some b)) a (.byte b) :=
      ⟨st.answer_write_self a b, fun _ => st.answer_write_ne b⟩
    have removed {st : Store} (hst : st.cells.wf) (a : Nat) : answers st (st.write a none) a .unmapped :=
      ⟨Store.answer_remove_self hst a, fun _ => st.answer_remove_ne⟩
    have spoiled (st : Store) (a : Nat) : answers st (st.spoil a) a .outOfContract :=
      ⟨st.answer_spoil_self a, fun _ => st.answer_spoil_ne⟩
    refine ⟨?_, ?_, ?_, ?_, ?_, ?_, ?_, ?_, ?_, ?_, ?_, ?_, ?_, ?_, ?_⟩
    · rintro a b rfl; exact ⟨_, written _ a b, changed rfl⟩
    · rintro a rfl hst; exact ⟨_, removed hst a, changed rfl⟩
    · rintro a rfl; exact ⟨_, spoiled _ a, changed rfl⟩
    · rintro a b rfl; exact ⟨_, written _ a b, changed rfl⟩
    · rintro a rfl hst; exact ⟨_, removed hst a, changed rfl⟩
    · rintro a rfl; exact ⟨_, spoiled _ a, changed rfl⟩
    · rintro a b rfl; exact ⟨_, written _ a b, changed rfl⟩
    · rintro a rfl hst; exact ⟨_, removed hst a, changed rfl⟩
    · rintro a rfl; exact ⟨_, spoiled _ a, changed rfl⟩
    · rintro x rfl; exact changed rfl
    · rintro p r rfl; exact changed rfl
    · rintro m rfl; exact changed rfl
    · rintro kb rfl; exact changed rfl
    · rintro d rfl; exact changed rfl
    · rintro t rfl; exact changed rfl

/-- Settles O49: the step resumes a ready continuation, which ends as it would have without the hold. -/
theorem heldCommandResumes : Obligations.HeldCommandResumes := by
  intro s
  refine ⟨fun v e ho hr => ?_, fun v e ho hr hlen => ?_, fun v e ho hr hlen => ?_, fun v ho hlen => ?_,
    fun mask d ho h => ?_, fun mask ho h => ?_, fun v e sc ho hsc hr => ?_⟩
  · rw [step_ready ho (by simp) hr, resume, enqueueFrom_of_room hr]
  · rw [step_ready ho (by simp) hr, resume, playAndWaitFrom_of_short hr hlen]
  · rw [step_ready ho (by simp) hr, resume, playAndWaitFrom_of_long hr hlen]
  · rw [step_ready ho (by simp) ((s.backPressureOver_iff v).2 hlen), resume, backPressureFrom_of_over hlen]
  · rw [step_ready ho (by simp) ((s.shallow_iff mask d).2 h), resume, waitDepthFrom_of_shallow h]
  · rw [step_ready ho (by simp) ((s.allIdle_iff mask).2 h), resume, waitIdleFrom_of_idle h]
  · rw [step_ready ho (by simp) hr, resume]
    rcases playEmitFrom_cases hsc v e with ⟨-, he⟩ | ⟨hfull, -⟩
    · rw [he]
    · cases hr.symm.trans hfull

/-- Settles O50: the wait is not over, and no renderer step takes, ends or stops the looping item. -/
theorem loopingItemDeadlocksWait : Obligations.LoopingItemDeadlocksWait := by
  intro v c hc stuck s t hstuck hstep
  have hstuck : s.stuckOn v c := hstuck
  obtain rfl : poll s = t := Host.Outcome.next.inj ((step_held (hstuck.heldAt hc)).symm.trans hstep)
  change (poll s).stuckOn v c
  rcases poll_cases s with ⟨-, he⟩ | ⟨w, items, rest, -, he⟩ | ⟨r, rest, -, he⟩ | ⟨k, rest, -, he⟩ <;> rw [he]
  · exact hstuck
  · exact hstuck
  · exact State.stuckOn.renderer (s := { s with inbox := rest }) hstuck r
  · exact hstuck

end Sys2Proof.Machine
end

section
/-!
PROOFS. PLAY (42_mml.md R240 to R242, R267, R268) and its units with arguments (R244 to R258, R265): the round robin's
turns, the padding, the end, and what each unit answers; then the obligations about them.
-/

namespace Sys2Proof.Machine

/-! ### Turns -/

theorem Scan.anyActive_iff (sc : Scan) : sc.anyActive = true ↔ ∃ v, sc.active.get v = true := by
  rw [Scan.anyActive, Bool.or_eq_true, Bool.or_eq_true]
  constructor
  · rintro ((h | h) | h)
    · exact ⟨.v0, h⟩
    · exact ⟨.v1, h⟩
    · exact ⟨.v2, h⟩
  · rintro ⟨_ | _ | _, h⟩
    · exact .inl (.inl h)
    · exact .inl (.inr h)
    · exact .inr h

section
variable {sc : Scan}

theorem scanAction_of_none_active (h : ∀ v, sc.active.get v = false) : scanAction sc = .finished := by
  have hany : sc.anyActive = false := by
    rw [Bool.eq_false_iff]
    exact fun hany => by
      obtain ⟨v, hv⟩ := sc.anyActive_iff.1 hany
      cases (h v).symm.trans hv
  simp [scanAction, hany]

theorem scanAction_of_inactive (h : ∃ v, sc.active.get v = true) (hturn : sc.active.get sc.turn = false) :
    scanAction sc = .pass { sc with turn := nextTurn sc.turn } := by
  simp [scanAction, sc.anyActive_iff.2 h, hturn]

theorem scanAction_of_exhausted (hturn : sc.active.get sc.turn = true) (hend : sc.remaining sc.turn = []) :
    scanAction sc = .pass { sc with active := sc.active.set sc.turn false, turn := nextTurn sc.turn } := by
  simp [scanAction, sc.anyActive_iff.2 ⟨_, hturn⟩, hturn, hend, decodeUnit]

theorem scanAction_of_unit {i : Instr} {rest : List Byte} (hturn : sc.active.get sc.turn = true)
    (hd : decodeUnit (sc.remaining sc.turn) = some (i, rest)) :
    scanAction sc = .unit i { sc with pos := sc.pos.set sc.turn ((sc.buf.get sc.turn).length - rest.length) } := by
  simp [scanAction, sc.anyActive_iff.2 ⟨_, hturn⟩, hturn, hd]

end

/-- A turn that runs no unit only passes the scanner on. -/
theorem step_pass {s : State} {sc sc' : Scan} (h : s.scanning sc) (ha : scanAction sc = .pass sc') :
    step s = .next { s with scan := some sc' } := by
  rw [step_scan h.1]
  simp only [stepScan, h.2, ha, State.setScan]

/-- Where no voice is active the scan is over, and the padding begins (R242, R267). -/
theorem step_finished {s : State} {sc : Scan} (h : s.scanning sc) (ha : scanAction sc = .finished) :
    step s = .next { s with out := some (.playPad .v0) } := by
  rw [step_scan h.1]
  simp only [stepScan, h.2, ha, resume, State.hold]

/-! ### Padding -/

section
variable {s : State} {sc : Scan} {v : ToneVoice} (hs : s.scan = some sc)
include hs

theorem ready_playPad_iff : s.ready (.playPad v) = true ↔ (sc.needsPad v = false ∨ s.room v.queue = true) := by
  simp [State.ready, hs]

theorem padFrom_of_no_need (h : sc.needsPad v = false) : padFrom v s = afterPad v s := by
  simp [padFrom, hs, h]

theorem padFrom_of_room (h : sc.needsPad v = true) (hr : s.room v.queue = true) :
    padFrom v s = afterPad v { s.withEvent v.queue (padEvent (sc.maxAcc - sc.acc.get v)) with
      scan := some { sc with acc := sc.acc.set v sc.maxAcc } } := by
  simp only [padFrom, hs, h, hr, if_true, State.append_eq, State.setScan]

end

theorem needsPad_iff {sc : Scan} {v : ToneVoice} :
    sc.needsPad v = true ↔ v.idx < sc.k ∧ sc.acc.get v < sc.maxAcc := by
  rw [Scan.needsPad, Bool.and_eq_true, decide_eq_true_eq, decide_eq_true_eq]

/-! ### The end of a PLAY -/

theorem foregroundFrom_of_idle {s : State} (h : s.tonesIdle = true) : foregroundFrom s = s.completed .nothing := by
  rw [foregroundFrom, if_pos h, State.respond_eq]

theorem foregroundFrom_of_busy {s : State} (h : s.tonesIdle = false) :
    foregroundFrom s = { s with out := some .playForeground } := by
  rw [foregroundFrom, h, if_neg Bool.false_ne_true, State.hold]

/-! ### Notes, rests and splices -/

theorem exec_letterInstr (l : Letter) (acc : Option Acc) (len : Option Nat) (dot : Bool) (s : State) :
    exec (letterInstr l acc len dot) s = noteUnit l acc len dot s := by
  cases l <;> rfl

/-- The length of a note or rest: the explicit one, or the default (R257, R258). -/
theorem noteLength_of_explicit {p : PlayState} {n : Nat} (h : 0 < n) : noteLength (some n) p = some ⟨n, h⟩ := by
  cases n with
  | zero => cases h
  | succ n => rfl

section
variable {s : State} {sc : Scan} (h : s.scanning sc)
include h

theorem noteUnit_of_bad {l : Letter} {acc : Option Acc} {len : Option Nat} (dot : Bool)
    (hbad : semi l acc = none ∨ len = some 0) : noteUnit l acc len dot s = .next (s.failed .ifc) := by
  rw [noteUnit, onUnit_scanning h]
  cases hsemi : semi l acc with
  | none => rfl
  | some st =>
    obtain rfl : len = some 0 := hbad.resolve_left (by simp [hsemi])
    rfl

theorem noteUnit_of_good {l : Letter} {acc : Option Acc} {len : Option Nat} (dot : Bool) {st : Fin 12} {ln : Pos}
    (hsemi : semi l acc = some st) (hlen : noteLength len (s.ps.get sc.turn) = some ln) :
    noteUnit l acc len dot s = .next (emitUnit sc.turn
      (unitEvent (s.ps.get sc.turn) (noteFreq s.cfg.noteAnchor (12 * (s.ps.get sc.turn).octave.val + st.val))
        (duration ln (s.ps.get sc.turn).tempoN dot) (s.ps.get sc.turn).vol.val)
      (s.setPs sc.turn (s.ps.get sc.turn).clearEff)) := by
  rw [noteUnit, onUnit_scanning h]
  simp only [hsemi, hlen]

theorem exec_mmlP_of_scanning (len : Option Nat) (dot : Bool) {ln : Pos}
    (hlen : noteLength len (s.ps.get sc.turn) = some ln) :
    exec (.mmlP len dot) s = .next (emitUnit sc.turn
      (unitEvent (s.ps.get sc.turn) Freq.zero (duration ln (s.ps.get sc.turn).tempoN dot) (s.ps.get sc.turn).vol.val)
      (s.setPs sc.turn (s.ps.get sc.turn).clearEff)) := by
  rw [exec, execMmlP, onUnit_scanning h]
  simp only [hlen]

theorem exec_mmlN_of_scanning {n : Nat} (hn : n ≤ 84) (dot : Bool) :
    exec (.mmlN (some n) dot) s = .next (emitUnit sc.turn
      (if n = 0 then unitEvent (s.ps.get sc.turn) Freq.zero
          (duration (s.ps.get sc.turn).lenN (s.ps.get sc.turn).tempoN dot) 0
        else unitEvent (s.ps.get sc.turn) (noteFreq s.cfg.noteAnchor (n - 1))
          (duration (s.ps.get sc.turn).lenN (s.ps.get sc.turn).tempoN dot) (s.ps.get sc.turn).vol.val)
      (s.setPs sc.turn (s.ps.get sc.turn).clearEff)) := by
  rw [exec, execMmlN, onUnit_scanning h, needNum, if_neg (Nat.not_lt.2 hn)]

theorem exec_mmlN_of_high {n : Nat} (hn : 84 < n) (dot : Bool) :
    exec (.mmlN (some n) dot) s = .next (s.failed .ifc) := by
  rw [exec, execMmlN, onUnit_scanning h, needNum, if_pos hn, State.raiseIfc_eq]

theorem exec_mmlL_of_scanning {n : Nat} (hn : 0 < n) :
    exec (.mmlL (some n)) s = .next (s.setPs sc.turn { s.ps.get sc.turn with lenN := ⟨n, hn⟩ }) := by
  rw [exec, execMmlL, onUnit_scanning h, needNum, dif_pos hn]

theorem exec_mmlT_of_scanning {n : Nat} (hn : 0 < n) :
    exec (.mmlT (some n)) s = .next (s.setPs sc.turn { s.ps.get sc.turn with tempoN := ⟨n, hn⟩ }) := by
  rw [exec, execMmlT, onUnit_scanning h, needNum, dif_pos hn]

theorem exec_mmlO_of_scanning (n : Nat) :
    exec (.mmlO (some n)) s = .next (s.setPs sc.turn { s.ps.get sc.turn with oct := clampOct n, eff := none }) := by
  rw [exec, execMmlO, onUnit_scanning h, needNum]

theorem exec_mmlV_of_option (hv : s.cfg.perVoiceVolume = true) (n : Nat) :
    exec (.mmlV (some n)) s = .next (s.setPs sc.turn { s.ps.get sc.turn with vol := clampVol n }) := by
  rw [exec, execMmlV, onUnit_scanning h, if_pos hv, needNum]

theorem exec_mmlV_of_no_option (hv : s.cfg.perVoiceVolume = false) (n : Option Nat) :
    exec (.mmlV n) s = .next (s.failed .ifc) := by
  rw [exec, execMmlV, onUnit_scanning h, if_neg (by simp [hv]), State.raiseIfc_eq]

/-- An argument unit without a number raises IFC, V with or without the option (R244). -/
theorem exec_argument_of_missing {i : Instr} (hi : i = .mmlL none ∨ i = .mmlT none ∨ i = .mmlO none ∨ i = .mmlV none) :
    exec i s = .next (s.failed .ifc) := by
  rcases hi with rfl | rfl | rfl | rfl
  · rw [exec, execMmlL, onUnit_scanning h]; rfl
  · rw [exec, execMmlT, onUnit_scanning h]; rfl
  · rw [exec, execMmlO, onUnit_scanning h]; rfl
  · rw [exec, execMmlV, onUnit_scanning h]; split <;> rfl

theorem exec_argument_of_zero {i : Instr} (hi : i = .mmlL (some 0) ∨ i = .mmlT (some 0)) :
    exec i s = .next (s.failed .ifc) := by
  rcases hi with rfl | rfl
  · rw [exec, execMmlL, onUnit_scanning h]; rfl
  · rw [exec, execMmlT, onUnit_scanning h]; rfl

end

/-! ### The obligations -/

/-- Settles O2: the unit runs with the cursor moved, and the turn passes where a scanner is left. -/
theorem stepRunsDecodedUnit : Obligations.StepRunsDecodedUnit := by
  refine ⟨⟨rfl, rfl, rfl⟩, fun s t sc i rest hs hturn hd => ?_⟩
  intro sc1 hexec
  have hstep : step s = .next t.endTurn := by
    rw [step_unit hs (scanAction_of_unit hturn hd), hexec, afterUnit]
  refine ⟨fun sc2 hsc => ?_, fun hsc => ?_⟩
  · rw [hstep]
    simp only [State.endTurn, hsc, State.setScan]
  · rw [hstep]
    simp only [State.endTurn, hsc]

/-- Settles O3, by what the turn finds: no active voice, an inactive one, or one at the end of its buffer. -/
theorem roundRobinTurns : Obligations.RoundRobinTurns := by
  refine ⟨⟨rfl, rfl, rfl⟩, fun s sc hs => ⟨fun h => ?_, fun h hturn => ?_, fun hturn hend => ?_⟩⟩
  · exact step_finished hs (scanAction_of_none_active h)
  · exact step_pass hs (scanAction_of_inactive h hturn)
  · have hrest : sc.remaining sc.turn = [] := by rw [Scan.remaining, hend, List.drop_length]
    exact step_pass hs (scanAction_of_exhausted hturn hrest)

/-- Settles O51: a valid PLAY is taken, and `Init` sets up its scanner. -/
theorem playBegins : Obligations.PlayBegins := by
  intro s k strings hgiven hk hlen
  obtain ⟨hout, hchan⟩ := hgiven
  have hvalid : (k != 0 && strings.length == k.toNat) = true :=
    Bool.and_eq_true_iff.2 ⟨bne_iff_ne.2 hk, beq_iff_eq.2 hlen⟩
  have hpos : 0 < k.toNat := Nat.pos_of_ne_zero fun h0 => hk (BitVec.eq_of_toNat_eq h0)
  have hexec : exec (.play k) s = .next ((s.setScan (initScan strings)).hold .playScan) :=
    (execPlay_given k hchan).trans (command_taken hout hvalid)
  rw [hexec, initScan, hlen, decide_eq_true hpos]
  rfl

/-- Settles O52: a voice needs a pad where it takes part below the maximum, and the pad makes up the difference. -/
theorem paddingEqualises : Obligations.PaddingEqualises := by
  intro s sc v m ho hs hle hmax silence e sc'
  have hm : sc.maxAcc = m := maxAcc_eq hle hmax
  refine ⟨fun hv hlt hr => ?pads, fun hv hlt hr => ?holds, fun hno => ?passes⟩
  case pads =>
    have hneeds : sc.needsPad v = true := needsPad_iff.2 ⟨hv, hm ▸ hlt⟩
    rw [step_ready ho (by simp) ((ready_playPad_iff hs).2 (.inr hr)), resume, padFrom_of_room hs hneeds hr, hm]
    rfl
  case holds =>
    have hneeds : sc.needsPad v = true := needsPad_iff.2 ⟨hv, hm ▸ hlt⟩
    refine ⟨ho, by simp, Bool.eq_false_iff.2 fun hready => ?_⟩
    rcases (ready_playPad_iff hs).1 hready with h | h
    · cases hneeds.symm.trans h
    · cases hr.symm.trans h
  case passes =>
    have hneeds : sc.needsPad v = false := by
      rw [Bool.eq_false_iff]
      intro h
      obtain ⟨hv, hlt⟩ := needsPad_iff.1 h
      rcases hno with hk | heq
      · omega
      · exact absurd (heq.trans hm.symm) hlt.ne
    rw [step_ready ho (by simp) ((ready_playPad_iff hs).2 (.inl hneeds)), resume, padFrom_of_no_need hs hneeds]

/-- Settles O53: after voice 2 the flag and the tone voices decide whether the PLAY waits. -/
theorem playEnds : Obligations.PlayEnds := by
  intro s idle
  have hidle : s.tonesIdle = true ↔ idle := s.tonesIdle_iff
  have hbusy (h : ¬idle) : s.tonesIdle = false := Bool.eq_false_iff.2 (mt hidle.1 h)
  refine ⟨rfl, rfl, fun h => ?_, fun hfg h => ?_, fun ho h => ?_, fun ho h => ⟨ho, by simp, hbusy h⟩⟩
  · cases hfg : s.fg with
    | false => rw [afterPad, afterPadding, if_neg (by simp [hfg]), State.respond_eq]
    | true =>
      have hnow : idle := h.resolve_left (by simp [hfg])
      rw [afterPad, afterPadding, if_pos hfg, foregroundFrom_of_idle (hidle.2 hnow)]
  · rw [afterPad, afterPadding, if_pos hfg, foregroundFrom_of_busy (hbusy h)]
  · rw [step_ready ho (by simp) (hidle.2 h), resume, foregroundFrom_of_idle (hidle.2 h)]

/-- Settles O54: a name of the table with a length emits its event; without either the note raises IFC. -/
theorem noteOutcome : Obligations.NoteOutcome := by
  intro s sc l acc len dot hs p t
  rw [exec_letterInstr]
  refine ⟨noteUnit_of_bad hs dot, fun st ln hsemi hpos hlen => ?_⟩
  have hlength : noteLength len p = some ⟨ln, hpos⟩ := by
    rcases hlen with rfl | ⟨rfl, rfl⟩
    · exact noteLength_of_explicit hpos
    · rfl
  rw [noteUnit_of_good hs dot hsemi hlength]
  obtain ⟨hroom, hfull⟩ := emitUnit_both hs p (noteFreq s.cfg.noteAnchor (12 * p.octave.val + st.val))
    (duration ⟨ln, hpos⟩ p.tempoN dot) p.vol.val
  exact ⟨fun hr => congrArg _ (hroom hr), fun hr => congrArg _ (hfull hr)⟩

/-- Settles O55: each of the units that sounds or rests emits one event of its length; the others raise IFC. -/
theorem absoluteNoteAndRest : Obligations.AbsoluteNoteAndRest := by
  intro s sc dot hs p t dur emitted
  have emits {i : Instr} {f : Freq} {ln : Pos} {vol : Nat}
      (hi : exec i s = .next (emitUnit sc.turn (unitEvent p f (duration ln p.tempoN dot) vol)
        (s.setPs sc.turn p.clearEff))) : emitted i f ln.val vol := by
    obtain ⟨hroom, hfull⟩ := emitUnit_both hs p f (duration ln p.tempoN dot) vol
    exact ⟨fun hr => hi.trans (congrArg _ (hroom hr)), fun hr => hi.trans (congrArg _ (hfull hr))⟩
  refine ⟨?missing, fun n hn => exec_mmlN_of_high hs hn dot, ?zero, fun n hlo hhi => ?note, ?zeroLength,
    fun ln hpos => ?rest, ?default⟩
  case missing => rw [exec, execMmlN, onUnit_scanning hs]; rfl
  case zero => exact emits (exec_mmlN_of_scanning hs (Nat.zero_le 84) dot)
  case note =>
    have hn := exec_mmlN_of_scanning hs hhi dot
    rw [if_neg (by omega)] at hn
    exact emits hn
  case zeroLength => rw [exec, execMmlP, onUnit_scanning hs]; rfl
  case rest => exact emits (exec_mmlP_of_scanning hs (some ln) dot (noteLength_of_explicit hpos))
  case default => exact emits (exec_mmlP_of_scanning hs none dot rfl)

/-- Settles O56, unit by unit. -/
theorem argumentUnits : Obligations.ArgumentUnits := by
  intro s sc hs p
  refine ⟨fun n hn => ⟨exec_mmlL_of_scanning hs hn, exec_mmlT_of_scanning hs hn⟩,
    fun n => ⟨clampOct n, rfl, exec_mmlO_of_scanning hs n⟩,
    fun hv n => ⟨clampVol n, rfl, exec_mmlV_of_option hs hv n⟩, exec_mmlV_of_no_option hs, fun i hi => ?_⟩
  rcases hi with hi | hi | hi | hi | hi | hi
  · exact exec_argument_of_missing hs (.inl hi)
  · exact exec_argument_of_missing hs (.inr (.inl hi))
  · exact exec_argument_of_missing hs (.inr (.inr (.inl hi)))
  · exact exec_argument_of_missing hs (.inr (.inr (.inr hi)))
  · exact exec_argument_of_zero hs (.inl hi)
  · exact exec_argument_of_zero hs (.inr hi)

/-- Settles O58: by the reference and the resolver's answer; the spliced text stands where the cursor is. -/
theorem spliceOutcome : Obligations.SpliceOutcome := by
  intro s sc ref term hs hcur b p t
  refine ⟨fun href => ?empty, fun href hnone => ?unresolved, fun r href hsome => ⟨?text, ?spliced⟩⟩
  case empty =>
    rw [exec, execMmlX, onUnit_scanning hs, if_pos href, State.raiseIfc_eq]
  case unresolved =>
    rw [exec, execMmlX, onUnit_scanning hs, if_neg href, hnone]
    rfl
  case text =>
    have htake : (b.take p).length = p := List.length_take_of_le hcur
    simp only [Tri.get_set_self]
    rw [List.append_assoc]
    exact List.drop_left' htake
  case spliced =>
    rw [exec, execMmlX, onUnit_scanning hs, if_neg href, hsome]
    rfl

end Sys2Proof.Machine
end
